-- ==== Sys2Proof/Word.lean ====
section
/-! DEFINITION. The words of HUFFCORE: the widths of `00_scope.md` rule R6, the absent node index,
and the node record of `10_state.md` rule R48. All values are unsigned (R8). -/

namespace Sys2Proof

/-- A symbol, "one byte value in [0,255]" (R6, W_SYM). -/
abbrev Sym := BitVec 8

/-- A byte count or a frequency (R6, W_LEN = 32). -/
abbrev Count := BitVec 32

/-- A bit count: BITCNT and REM (R6, W_BITS = 40). -/
abbrev BitCount := BitVec 40

/-- A word count or a word index: WORDCNT and WIDX (R6, W_WIDX = 34). -/
abbrev WordCount := BitVec 34

/-- A packed word (R6, W_WORD = 64). -/
abbrev PackWord := BitVec 64

/-- A node index, or the absent one (R6, W_NIDX = 9). -/
abbrev NodeIdx := BitVec 9

/-- A code pattern (R6, W_PAT = 255). -/
abbrev Pattern := BitVec 255

/-- A code length (R6, W_CLEN = 8). -/
abbrev CodeLen := BitVec 8

/-- A command word (R90). -/
abbrev CmdWord := BitVec 32

/-- N_SYM of rule R6: the number of symbol values. -/
abbrev numSyms : Nat := 256

/-- N_NODE of rule R6: the number of records in the node store. -/
abbrev numNodes : Nat := 511

/-- ABSENT of rule R6: the node index that means "no node" (R11). -/
def absent : NodeIdx := 511#9

/-- The symbol with value `i` (`i` is below N_SYM wherever the machine calls this). -/
def symOf (i : Nat) : Sym := BitVec.ofNat 8 i

/-- KIND of a node record (R48): the one-bit field, 0 = LEAF, 1 = INTERNAL. -/
inductive Kind where
  | leaf
  | internal
deriving DecidableEq, Repr, Inhabited

/-- A record of the node store (R48): the seven fields. -/
structure Node where
  /-- field 0, KIND -/
  kind : Kind
  /-- field 1, FREQ -/
  freq : Count
  /-- field 2, SYM -/
  sym : Sym
  /-- field 3, LEFT -/
  left : NodeIdx
  /-- field 4, RIGHT -/
  right : NodeIdx
  /-- field 5, CLEN -/
  clen : CodeLen
  /-- field 6, PAT -/
  pat : Pattern
deriving DecidableEq, Repr, Inhabited

/-- An entry of the assigner's stack (R53): node index, pattern, depth. -/
structure Frame where
  node  : NodeIdx
  pat   : Pattern
  depth : CodeLen
deriving DecidableEq, Repr, Inhabited

end Sys2Proof
end

