-- ==== Sys2Proof/Syntax.lean ====
section
/-! DEFINITION. The instructions: the five commands of `30_encoding.md` rule R91, one constructor per
row of `opcode_table.json`. A command word carries no operand (R97). -/

namespace Sys2Proof

/-- The five commands of rule R91; "The five commands are the whole instruction set" (R226). -/
inductive Instr where
  /-- ENCODE, opcode `0x01` (R211) -/
  | encode
  /-- DECODE, opcode `0x02` (R213) -/
  | decode
  /-- DECODEA, opcode `0x03` (R215) -/
  | decodea
  /-- OLEN, opcode `0x04` (R220) -/
  | olen
  /-- RELEASE, opcode `0x05` (R222) -/
  | release
deriving DecidableEq, Repr

end Sys2Proof
end

