-- ==== Sys2Proof/WellFormed.lean ====
section
/-! DEFINITION. Well-formedness. A command has no operand field (`30_encoding.md` rules R90, R97), so every
`Instr` is well formed; the checks are on the 32-bit command word, field by field. -/

namespace Sys2Proof

/-- Bits [7:0] of a command word, the OPCODE field (R90). -/
def CmdWord.opcode (w : CmdWord) : BitVec 8 := w.extractLsb' 0 8

/-- Bits [31:8] of a command word, the ZERO field (R90). -/
def CmdWord.zeroField (w : CmdWord) : BitVec 24 := w.extractLsb' 8 24

/-- The ZERO field "must be 0; any other value makes the word illegal" (R90, R102). -/
def CmdWord.zeroOk (w : CmdWord) : Bool := CmdWord.zeroField w == 0#24

/-- The OPCODE field names one of the five commands, 1 to 5 (R91, R101). -/
def CmdWord.opcodeOk (w : CmdWord) : Bool :=
  decide (1 ≤ (CmdWord.opcode w).toNat) && decide ((CmdWord.opcode w).toNat ≤ 5)

/-- A command word that encodes a command (R100). -/
def CmdWord.wf (w : CmdWord) : Bool := CmdWord.zeroOk w && CmdWord.opcodeOk w

/-- A command has no operand, so nothing about it can be ill formed (R97). -/
def Instr.wf : Instr → Bool
  | .encode => true
  | .decode => true
  | .decodea => true
  | .olen => true
  | .release => true

end Sys2Proof
end

