-- ==== Sys2Proof/Decode.lean ====
section
/-! DEFINITION. Decoding of the command word (`30_encoding.md` rules R90, R91, R100 to R102) and the
encoder. The decoder is total and rejects by name. -/

namespace Sys2Proof

/-- Why a command word is no command. -/
inductive Reject where
  /-- `w[31:8] ≠ 0` (R102) -/
  | reservedBits
  /-- `w[31:8] = 0` and `w[7:0]` not in 1 to 5 (R101) -/
  | illegalOpcode
deriving DecidableEq, Repr

/-- The command an OPCODE byte names (R91). -/
def decodeOpcode (op : Nat) : Except Reject Instr :=
  match op with
  | 1 => .ok .encode
  | 2 => .ok .decode
  | 3 => .ok .decodea
  | 4 => .ok .olen
  | 5 => .ok .release
  | _ => .error .illegalOpcode

/-- The decoder of rule R100: "if `w[31:8] ≠ 0` then illegal; else by `w[7:0]`". -/
def decodeWord (w : CmdWord) : Except Reject Instr :=
  if CmdWord.zeroOk w then decodeOpcode (CmdWord.opcode w).toNat else .error .reservedBits

/-- The instruction the decoder reads from an instruction of `nbits` bits whose bits are `w`, every bit
above `nbits` being 0. A command word is one 32-bit element and has no byte order (R66, R90), so it is
given to the decoder as it stands; more than 32 bits are no command word. -/
def decodeTableWord (nbits w : Nat) : Option Instr :=
  let bits := w % 2 ^ nbits
  if bits < 2 ^ 32 then
    match decodeWord (BitVec.ofNat 32 bits) with
    | .ok i => some i
    | .error _ => none
  else none

/-- The word of a command (R91). -/
def encode : Instr → CmdWord
  | .encode => 0x00000001#32
  | .decode => 0x00000002#32
  | .decodea => 0x00000003#32
  | .olen => 0x00000004#32
  | .release => 0x00000005#32

end Sys2Proof
end

