-- ==== Sys2Proof/Config.lean ====
section
/-! DEFINITION. What an implementation of HUFFCORE fixes and the spec leaves OPEN (`92_eei_decisions.md`, list of
open parameters): the three capacities, the queue discipline TIE, and what RESET leaves in the stores
and hidden registers. Each open one is a constant with no body, so that nothing can be proved of its value. -/

namespace Sys2Proof

/-- One event of the priority queue's history since QINIT emptied it (R132: "the sequence of pushes, with
the pushed index and its key, and pops"). -/
inductive QEvent where
  | pushed (n : NodeIdx) (key : Count)
  | popped (n : NodeIdx)
deriving DecidableEq, Repr, Inhabited

/-- The queue discipline TIE (R132): which of several minimum-frequency indices `pop` returns. -/
inductive Tie where
  /-- TIE_REF: the lowest node index among the minimal ones (R132) -/
  | ref
  /-- TIE_ALT of `95_test_vectors.md`: the highest node index among the minimal ones -/
  | alt
  /-- any lawful discipline: an unknown function of the queue's history, `Config.tieChoice` -/
  | free
deriving DecidableEq, Repr, Inhabited

/-- What the spec leaves unspecified after RESET (R273, R274): the contents of the six stores, as lists of
(index, value) pairs, and the hidden registers. -/
structure ResetImage where
  inp    : List (Nat × BitVec 8)
  out    : List (Nat × BitVec 8)
  pack   : List (Nat × PackWord)
  node   : List (Nat × Node)
  freq   : List (Nat × Count)
  lut    : List (Nat × NodeIdx)
  acc    : PackWord
  accCnt : BitVec 7
  patReg : Pattern
  depth  : CodeLen
  shReg  : PackWord
  bitIdx : BitVec 6
  wIdx   : WordCount
  inIdx  : Count
  nNode  : NodeIdx
  queue  : List NodeIdx
  qHist  : List QEvent
  stack  : List Frame
deriving DecidableEq, Repr, Inhabited

namespace Config

/-- OPEN: IN_CAP − 1; R6 gives 1 ≤ IN_CAP ≤ 2^32 − 1. -/
opaque inCapLess1 : Fin 4294967295

/-- OPEN: OUT_CAP − 1; R6 gives 1 ≤ OUT_CAP ≤ 2^32 − 1. -/
opaque outCapLess1 : Fin 4294967295

/-- OPEN: PACK_CAP − 1; R6 gives 1 ≤ PACK_CAP ≤ 2^34 − 1. -/
opaque packCapLess1 : Fin 17179869183

/-- IN_CAP, the bytes of the IN store (R6, decision D14). -/
def inCap : Count := BitVec.ofNat 32 (inCapLess1.val + 1)

/-- OUT_CAP, the bytes of the OUT store (R6, decision D14). -/
def outCap : Count := BitVec.ofNat 32 (outCapLess1.val + 1)

/-- PACK_CAP, the words of the PACK store (R6, decision D14). -/
def packCap : WordCount := BitVec.ofNat 34 (packCapLess1.val + 1)

/-- OPEN: the choice TIE makes among several minimal indices, a function of the queue's history, newest
event first (R132). The machine reads it modulo the number of candidates, so every value is lawful and
every lawful discipline is some such function. -/
opaque tieChoice : List QEvent → Nat

/-- OPEN: what the `k`-th RESET leaves in the stores and hidden registers (R273, R274). -/
opaque resetImage : Nat → ResetImage

end Config
end Sys2Proof
end

