-- ==== Sys2Proof/Machine/State.lean ====
section
/-! DEFINITION. The state of HUFFCORE as plain data (`10_state.md`), the reasons a step can stop, how a
micro-operation ends (`00_scope.md` rule R12), and the state after reset (`70_reset_and_hazards.md`
rules R270 to R274). -/

namespace Sys2Proof.Machine

/-- Why the machine stops with no next state. Neither can happen inside a command (`ENCODE` runs the
micro-operations below only on the tree it has just built); both are safe. -/
inductive Fault where
  /-- Raised by MERGE, WRAP and ROOTSEL when `pop` meets an empty queue: R131 defines `pop` only "when
  `size(Q) ≥ 1`" and gives it no effect otherwise. Safe: the machine does less than the hardware might. -/
  | emptyQueue
  /-- Raised by ASSIGN and FLATTEN when the walk goes deeper than the node store has records: "This spec
  does not define ASSIGN on a store that holds a cycle" (R150). Safe. -/
  | unboundedWalk
deriving DecidableEq, Repr

/-- Why the machine gives an action no meaning. -/
inductive Refusal where
  /-- Raised by `exec` for an instruction that has no meaning yet. Safe. -/
  | notModelled (mnemonic : String)
  /-- Raised by the host port when the host offers a value that does not fit the element addressed: R60
  gives `value` as "an unsigned number below 2^w where w is the width of the element addressed". Safe. -/
  | valueTooWide
deriving DecidableEq, Repr

/-- The cause codes of rule R240 that are produced; the codes 13 to 15 are reserved and never produced. -/
inductive Cause where
  /-- 0 NONE -/
  | none
  /-- 1 E_TRAILING -/
  | trailing
  /-- 2 E_NOCHILD -/
  | noChild
  /-- 3 E_COUNT -/
  | count
  /-- 4 E_EXHAUST -/
  | exhaust
  /-- 5 E_OVERRUN -/
  | overrun
  /-- 6 E_OUTCAP -/
  | outCap
  /-- 7 E_INCAP -/
  | inCap
  /-- 8 E_PACKCAP -/
  | packCap
  /-- 9 E_BLOBHELD -/
  | blobHeld
  /-- 10 E_ILLCMD -/
  | illCmd
  /-- 11 E_FAULTED -/
  | faulted
  /-- 12 E_FATAL -/
  | fatal
deriving DecidableEq, Repr, Inhabited

/-- The fatal codes of rule R245 that are produced; the codes 4 to 15 are reserved and never produced. -/
inductive FCode where
  /-- 0: FAULTED = 0 -/
  | none
  /-- 1 F_CODE_TWICE -/
  | codeTwice
  /-- 2 F_CODE_LEN0 -/
  | codeLen0
  /-- 3 F_NOCODE -/
  | noCode
deriving DecidableEq, Repr, Inhabited

/-- The sequencer SEQ (R28): the micro-operation that is active (the list of R100), IDLE between commands. -/
inductive Seq where
  | idle | fcount | qinit | merge | wrap | rootsel | assign | flatten
  | packInit | packSym | packBit | flush | unpackInit | unpackBit | unpackExhaust
deriving DecidableEq, Repr, Inhabited

/-- The fourteen registers of the CSR space (R31). -/
inductive Csr where
  | id | cmd | status | len | origLen | bitCnt | wordCnt | root | blobCtl | outFill | result
  | rem | outPos | pos
deriving DecidableEq, Repr

/-- The seven fields of a node record, in the order of their numbers 0 to 6 (R48). -/
inductive NodeField where
  | kind | freq | sym | left | right | clen | pat
deriving DecidableEq, Repr

/-- One element of one of the seven spaces (R50): the unit of every access. -/
inductive Element where
  /-- space 0 -/
  | csr (r : Csr)
  /-- space 1, IN -/
  | inp (i : Nat)
  /-- space 2, OUT -/
  | out (i : Nat)
  /-- space 3, PACK -/
  | pack (i : Nat)
  /-- space 4, NODE: field `f` of record `n`, index 8·n + f -/
  | node (n : Nat) (f : NodeField)
  /-- space 5, FREQ -/
  | freq (i : Nat)
  /-- space 6, LUT -/
  | lut (i : Nat)
deriving DecidableEq, Repr

/-- What the host does to the block: an access through the port (R60) or the RESET input (R270). -/
inductive HostAction where
  /-- `HostRead(space, index)` -/
  | read (space index : Nat)
  /-- `HostWrite(space, index, value)` -/
  | write (space index value : Nat)
  /-- the RESET input, asserted and released -/
  | reset
deriving DecidableEq, Repr

/-- The state. Fields below the line "of the model" are not the spec's: see `INVENTORY.md`, State. -/
structure State where
  -- flags and code fields of STATUS (R29, R30, R34)
  present : Bool
  ok      : Bool
  faulted : Bool
  cause   : Cause
  fcode   : FCode
  -- control registers (R35 to R42)
  len     : Count
  origLen : Count
  bitCnt  : BitCount
  wordCnt : WordCount
  root    : NodeIdx
  outFill : Count
  result  : Count
  -- the decoder's registers (R23 to R25)
  rem     : BitCount
  outPos  : Count
  pos     : NodeIdx
  -- hidden working registers (R21, R22, R26, R27), the sequencer (R28), the queue (R52), the stack (R53)
  acc     : PackWord
  accCnt  : BitVec 7
  patReg  : Pattern
  depth   : CodeLen
  shReg   : PackWord
  bitIdx  : BitVec 6
  wIdx    : WordCount
  inIdx   : Count
  nNode   : NodeIdx
  seq     : Seq
  queue   : List NodeIdx
  qHist   : List QEvent
  stack   : List Frame
  -- stores (R46 to R48, R50), each a list of (index, element) pairs in canonical form
  inp     : List Host.Cell
  out     : List Host.Cell
  pack    : List (Nat × PackWord)
  node    : List (Nat × Node)
  freq    : List (Nat × Count)
  lut     : List (Nat × NodeIdx)
  -- of the model: the open parameters (R6), constant along every run
  inCap   : Count
  outCap  : Count
  packCap : WordCount
  tie     : Tie
  -- of the model: what the host does next, the value its last read returned, the number of RESETs taken
  script  : List HostAction
  readVal : BitVec 255
  resets  : Nat
deriving DecidableEq, Repr

/-- The answer of a step. -/
abbrev Result := Host.Outcome State Fault Refusal

/-- How a micro-operation or a command ends (R12); `undef` is where the spec gives no effect. -/
inductive Ending where
  | done
  | refuse (c : Cause)
  | fail (c : Cause)
  | fatal (f : FCode)
  | undef (r : Fault)
deriving DecidableEq, Repr

/-- What a piece of a command gives: it falls off its end (`go`) or ends early (`stop`, R12), with the state
made by the writes up to that point (R244, R245, R253). -/
inductive Flow where
  | go (s : State)
  | stop (e : Ending) (s : State)
deriving DecidableEq, Repr

/-- The machine right after reset: flags and codes by R271, control registers by R272, SEQ by R274. The
stores list nothing and the hidden registers are zero or empty: DESIGN CHOICE, the spec leaves them
unspecified (R273, R274). The capacities and TIE are the open constants of `Config`. -/
def State.reset : State where
  present := false
  ok      := false
  faulted := false
  cause   := .none
  fcode   := .none
  len     := 0#32
  origLen := 0#32
  bitCnt  := 0#40
  wordCnt := 0#34
  root    := absent
  outFill := 0#32
  result  := 0#32
  rem     := 0#40
  outPos  := 0#32
  pos     := absent
  acc     := 0#64
  accCnt  := 0#7
  patReg  := 0#255
  depth   := 0#8
  shReg   := 0#64
  bitIdx  := 0#6
  wIdx    := 0#34
  inIdx   := 0#32
  nNode   := 0#9
  seq     := .idle
  queue   := []
  qHist   := []
  stack   := []
  inp     := []
  out     := []
  pack    := []
  node    := []
  freq    := []
  lut     := []
  inCap   := Config.inCap
  outCap  := Config.outCap
  packCap := Config.packCap
  tie     := .free
  script  := []
  readVal := 0#255
  resets  := 0

end Sys2Proof.Machine
end

