-- ==== Sys2Proof/Machine/Flags.lean ====
section
/-! DEFINITION. The flags and the STATUS word (`10_state.md` rules R29, R30, R34; `60_exceptions.md` rules R240,
R245), and the four ways a command sets them (R12, R210). -/

namespace Sys2Proof.Machine

/-- The four-bit cause code (R240). -/
def Cause.code : Cause → BitVec 4
  | .none => 0#4
  | .trailing => 1#4
  | .noChild => 2#4
  | .count => 3#4
  | .exhaust => 4#4
  | .overrun => 5#4
  | .outCap => 6#4
  | .inCap => 7#4
  | .packCap => 8#4
  | .blobHeld => 9#4
  | .illCmd => 10#4
  | .faulted => 11#4
  | .fatal => 12#4

/-- The four-bit fatal code (R245). -/
def FCode.code : FCode → BitVec 4
  | .none => 0#4
  | .codeTwice => 1#4
  | .codeLen0 => 2#4
  | .noCode => 3#4

/-- The STATUS word (R34): FCODE [15:12], CAUSE [11:8], zero [7:3], FAULTED [2], OK [1], PRESENT [0]. -/
def statusWord (s : State) : BitVec 16 :=
  s.fcode.code ++ s.cause.code ++ 0#5 ++ BitVec.ofBool s.faulted ++ BitVec.ofBool s.ok ++
    BitVec.ofBool s.present

/-- A command ends in `done`: "OK <- 1, CAUSE <- 0 on success" (R210). -/
def succeed (s : State) : State := { s with ok := true, cause := .none }

/-- `refuse(c)` (R243): OK <- 0, CAUSE <- c, nothing else changes. `fail(c)` sets the two flags in the same way
(R244): "every write made before that point stands". -/
def report (c : Cause) (s : State) : State := { s with ok := false, cause := c }

/-- The blob slot is cleared: PRESENT and the four blob registers take their absent values, as RELEASE
(R222), `fatal` (R245) and a failed ENCODE (R211) give them. -/
def clearBlob (s : State) : State :=
  { s with present := false, origLen := 0#32, bitCnt := 0#40, wordCnt := 0#34, root := absent }

/-- `fatal(f)` (R245), the one exception entry of the machine: FAULTED <- 1, FCODE <- f, OK <- 0,
CAUSE <- 12, and the blob slot cleared. -/
def raiseFatal (f : FCode) (s : State) : State :=
  { clearBlob s with faulted := true, fcode := f, ok := false, cause := .fatal }

/-- SEQ moves to a micro-operation (R28). -/
def State.enter (m : Seq) (s : State) : State := { s with seq := m }

end Sys2Proof.Machine
end

