-- ==== Sys2Proof/Machine/Ops.lean ====
section
/-! DEFINITION. The named operations: the stores and their canonical form (`10_state.md` rules R46 to R50), the control
of a command (loops, early endings, R10, R12), the end of a command (R210, R243 to R245, "taking an
exception" and its return R252, R254), and the RESET input (R270). -/

namespace Sys2Proof.Machine

/-! ## Stores -/

namespace Store

/-- The element at an index: the listed value, else `d`. -/
def get {α : Type} (d : α) : List (Nat × α) → Nat → α
  | [], _ => d
  | (k, v) :: r, a => if a = k then v else get d r a

/-- The store with `v` at index `a`, in canonical form: writing the value an unlisted index reads as removes
the entry. -/
def put {α : Type} [DecidableEq α] (d : α) : List (Nat × α) → Nat → α → List (Nat × α)
  | [], a, v => if v = d then [] else [(a, v)]
  | (k, w) :: r, a, v =>
    if a < k then (if v = d then (k, w) :: r else (a, v) :: (k, w) :: r)
    else if a = k then (if v = d then r else (a, v) :: r)
    else (k, w) :: put d r a v

/-- Canonical form: every listed index is at least `lo` and below `hi`, indices rise strictly, and no listed
value is `d`. -/
def wfFrom {α : Type} [DecidableEq α] (d : α) (hi : Nat) : Nat → List (Nat × α) → Bool
  | _, [] => true
  | lo, (k, v) :: r => decide (lo ≤ k) && decide (k < hi) && decide (v ≠ d) && wfFrom d hi (k + 1) r

/-- Canonical form of a store of `hi` elements. -/
def wf {α : Type} [DecidableEq α] (d : α) (hi : Nat) (m : List (Nat × α)) : Bool := wfFrom d hi 0 m

/-- The canonical store that holds what a raw list of pairs says; indices outside the store are dropped. -/
def ofList {α : Type} [DecidableEq α] (d : α) (hi : Nat) : List (Nat × α) → List (Nat × α)
  | [] => []
  | (k, v) :: r => if k < hi then put d (ofList d hi r) k v else ofList d hi r

end Store

/-- What an element that nothing has written reads as. DESIGN CHOICE: the spec leaves it unspecified (R273). -/
structure Unlisted where
  byte : BitVec 8
  word : PackWord
  node : Node
  freq : Count
  lut  : NodeIdx
deriving DecidableEq, Repr

/-- The one definition of what an unlisted element reads as: zero, and the absent index for an element that
holds a node index. DESIGN CHOICE (R273 leaves the reset contents of every store unspecified). -/
def unlisted : Unlisted where
  byte := 0#8
  word := 0#64
  node := { kind := .leaf, freq := 0#32, sym := 0#8, left := absent, right := absent, clen := 0#8, pat := 0#255 }
  freq := 0#32
  lut  := absent

/-- IN[i] -/
def State.inAt (s : State) (i : Nat) : Sym := Store.get unlisted.byte s.inp i
/-- OUT[i] -/
def State.outAt (s : State) (i : Nat) : Sym := Store.get unlisted.byte s.out i
/-- PACK[i] -/
def State.packAt (s : State) (i : Nat) : PackWord := Store.get unlisted.word s.pack i
/-- The record NODE[n] -/
def State.nodeAt (s : State) (n : NodeIdx) : Node := Store.get unlisted.node s.node n.toNat
/-- FREQ[x] -/
def State.freqAt (s : State) (x : Sym) : Count := Store.get unlisted.freq s.freq x.toNat
/-- LUT[x] -/
def State.lutAt (s : State) (x : Sym) : NodeIdx := Store.get unlisted.lut s.lut x.toNat

/-- IN[i] <- v -/
def State.putIn (s : State) (i : Nat) (v : Sym) : State :=
  { s with inp := Store.put unlisted.byte s.inp i v }
/-- OUT[i] <- v -/
def State.putOut (s : State) (i : Nat) (v : Sym) : State :=
  { s with out := Store.put unlisted.byte s.out i v }
/-- PACK[i] <- v -/
def State.putPack (s : State) (i : Nat) (v : PackWord) : State :=
  { s with pack := Store.put unlisted.word s.pack i v }
/-- NODE[n] <- r -/
def State.putNode (s : State) (n : NodeIdx) (r : Node) : State :=
  { s with node := Store.put unlisted.node s.node n.toNat r }
/-- FREQ[x] <- v -/
def State.putFreq (s : State) (x : Sym) (v : Count) : State :=
  { s with freq := Store.put unlisted.freq s.freq x.toNat v }
/-- LUT[x] <- v -/
def State.putLut (s : State) (x : Sym) (v : NodeIdx) : State :=
  { s with lut := Store.put unlisted.lut s.lut x.toNat v }

/-- Canonical form of all six stores, each within the number of elements R50 gives its space. -/
def Memory.wf (s : State) : Bool :=
  Store.wf unlisted.byte s.inCap.toNat s.inp && Store.wf unlisted.byte s.outCap.toNat s.out &&
  Store.wf unlisted.word s.packCap.toNat s.pack && Store.wf unlisted.node numNodes s.node &&
  Store.wf unlisted.freq numSyms s.freq && Store.wf unlisted.lut numSyms s.lut

/-! ## Control inside a command -/

/-- The next piece of a command; a piece that ended early ends the command (R12). -/
def Flow.andThen (x : Flow) (f : State → Flow) : Flow :=
  match x with
  | .go s => f s
  | .stop e s => .stop e s

/-- The state a piece of a command leaves, however it ends. -/
def Flow.state : Flow → State
  | .go s => s
  | .stop _ s => s

/-- `for i = a .. a + n − 1` over a body that always falls off its end (R10). -/
def loopUp : Nat → Nat → (Nat → State → State) → State → State
  | 0, _, _, s => s
  | n + 1, a, f, s => loopUp n (a + 1) f (f a s)

/-- `for i = a .. a + n − 1` over a body that may end the command (R10, R12). -/
def loopFlow : Nat → Nat → (Nat → State → Flow) → State → Flow
  | 0, _, _, s => .go s
  | n + 1, a, f, s => (f a s).andThen (loopFlow n (a + 1) f)

/-! ## The end of a command -/

/-- The order of checks at a command (R249): FAULTED first, then the command itself. -/
def accept (s : State) (run : State → Result) : Result :=
  if s.faulted then .next (report .faulted s) else run s

/-- How a command ends (R210): OK and CAUSE as its ending says, the effects of `fatal` on a fatal (R245), SEQ
back to IDLE (R252). Where the spec gives no effect there is no next state. -/
def conclude : Flow → Result
  | .go s => .next (succeed (s.enter .idle))
  | .stop .done s => .next (succeed (s.enter .idle))
  | .stop (.refuse c) s => .next (report c s)
  | .stop (.fail c) s => .next (report c (s.enter .idle))
  | .stop (.fatal f) s => .next (raiseFatal f (s.enter .idle))
  | .stop (.undef r) _ => .fault r

/-! ## The RESET input -/

/-- The RESET input (R270): flags, codes and control registers by R271 and R272, SEQ by R274, and the stores
and hidden registers at the free values `Config.resetImage` (R273, R274), the queue cut to 256 distinct indices (R52)
and the stack to 256 entries (R53). The open parameters, the
host's script and the value its last read returned are not the block's to change. -/
def applyReset (s : State) : State :=
  let m := Config.resetImage s.resets
  { State.reset with
    acc := m.acc, accCnt := m.accCnt, patReg := m.patReg, depth := m.depth, shReg := m.shReg
    bitIdx := m.bitIdx, wIdx := m.wIdx, inIdx := m.inIdx, nNode := m.nNode
    queue := m.queue.dedup.take 256, qHist := m.qHist, stack := m.stack.take 256
    inp := Store.ofList unlisted.byte s.inCap.toNat m.inp
    out := Store.ofList unlisted.byte s.outCap.toNat m.out
    pack := Store.ofList unlisted.word s.packCap.toNat m.pack
    node := Store.ofList unlisted.node numNodes m.node
    freq := Store.ofList unlisted.freq numSyms m.freq
    lut := Store.ofList unlisted.lut numSyms m.lut
    inCap := s.inCap, outCap := s.outCap, packCap := s.packCap, tie := s.tie
    script := s.script, readVal := s.readVal, resets := s.resets + 1 }

end Sys2Proof.Machine
end

