-- ==== Sys2Proof/Machine/Operands.lean ====
section
/-! DEFINITION. Operand forms. A command takes its operands from fixed places (`30_encoding.md` rule R97); inside a command
an operand is a store element indexed by a counter or by a value just read (`20_memory.md` rule R77). The host names an
element by (space, index) (R50, R60, R68). -/

namespace Sys2Proof.Machine

/-! ## Operands of the micro-operations -/

/-- `code(s)`: the record of the leaf that holds the code of a symbol, read through LUT (R166). -/
def State.codeOf (s : State) (x : Sym) : Node := s.nodeAt (s.lutAt x)

/-- `Child(p, b)` (R191): LEFT on bit 0, RIGHT on bit 1; ABSENT has no child, and neither has a leaf, whatever
its link fields hold. -/
def State.child (s : State) (p : NodeIdx) (b : Bool) : NodeIdx :=
  if p = absent then absent
  else match (s.nodeAt p).kind with
    | .leaf => absent
    | .internal => if b then (s.nodeAt p).right else (s.nodeAt p).left

/-- The pattern of the child along an edge: shift left by one and append the edge's bit (R98). -/
def childPat (pat : Pattern) (b : Bool) : Pattern := (pat <<< 1) ||| (BitVec.ofBool b).setWidth 255

/-! ## Elements the host addresses -/

/-- The register a CSR number names (R31); `0x0E` and above are out of range (R68). -/
def Csr.ofNumber : Nat → Option Csr
  | 0x00 => some .id
  | 0x01 => some .cmd
  | 0x02 => some .status
  | 0x03 => some .len
  | 0x04 => some .origLen
  | 0x05 => some .bitCnt
  | 0x06 => some .wordCnt
  | 0x07 => some .root
  | 0x08 => some .blobCtl
  | 0x09 => some .outFill
  | 0x0A => some .result
  | 0x0B => some .rem
  | 0x0C => some .outPos
  | 0x0D => some .pos
  | _ => none

/-- The width of a register (R31). -/
def Csr.width : Csr → Nat
  | .id => 32
  | .cmd => 32
  | .status => 16
  | .len => 32
  | .origLen => 32
  | .bitCnt => 40
  | .wordCnt => 34
  | .root => 9
  | .blobCtl => 1
  | .outFill => 32
  | .result => 32
  | .rem => 40
  | .outPos => 32
  | .pos => 9

/-- The field a number names (R48); number 7 does not exist. -/
def NodeField.ofNumber : Nat → Option NodeField
  | 0 => some .kind
  | 1 => some .freq
  | 2 => some .sym
  | 3 => some .left
  | 4 => some .right
  | 5 => some .clen
  | 6 => some .pat
  | _ => none

/-- The width of a field (R48). -/
def NodeField.width : NodeField → Nat
  | .kind => 1
  | .freq => 32
  | .sym => 8
  | .left => 9
  | .right => 9
  | .clen => 8
  | .pat => 255

/-- The element (space, index) names, if it is in range (R50, R68). -/
def State.element (s : State) (space index : Nat) : Option Element :=
  match space with
  | 0 => (Csr.ofNumber index).map .csr
  | 1 => if index < s.inCap.toNat then some (.inp index) else none
  | 2 => if index < s.outCap.toNat then some (.out index) else none
  | 3 => if index < s.packCap.toNat then some (.pack index) else none
  | 4 => if index / 8 < numNodes then (NodeField.ofNumber (index % 8)).map (.node (index / 8)) else none
  | 5 => if index < numSyms then some (.freq index) else none
  | 6 => if index < numSyms then some (.lut index) else none
  | _ => none

/-- The width of an element (R50). -/
def Element.width : Element → Nat
  | .csr r => r.width
  | .inp _ => 8
  | .out _ => 8
  | .pack _ => 64
  | .node _ f => f.width
  | .freq _ => 32
  | .lut _ => 9

/-- KIND as the one-bit field the host sees: 0 = LEAF, 1 = INTERNAL (R48). -/
def Kind.bit : Kind → BitVec 1
  | .leaf => 0#1
  | .internal => 1#1

/-- KIND from its bit (R48). -/
def Kind.ofBit (b : BitVec 1) : Kind := if b = 0#1 then .leaf else .internal

/-- The value of a field, widened with zeros to the widest element (R8). -/
def Node.field (r : Node) : NodeField → BitVec 255
  | .kind => (Kind.bit r.kind).setWidth 255
  | .freq => r.freq.setWidth 255
  | .sym => r.sym.setWidth 255
  | .left => r.left.setWidth 255
  | .right => r.right.setWidth 255
  | .clen => r.clen.setWidth 255
  | .pat => r.pat

/-- A record with one field replaced. -/
def Node.setField (r : Node) (f : NodeField) (v : Nat) : Node :=
  match f with
  | .kind => { r with kind := Kind.ofBit (BitVec.ofNat 1 v) }
  | .freq => { r with freq := BitVec.ofNat 32 v }
  | .sym => { r with sym := BitVec.ofNat 8 v }
  | .left => { r with left := BitVec.ofNat 9 v }
  | .right => { r with right := BitVec.ofNat 9 v }
  | .clen => { r with clen := BitVec.ofNat 8 v }
  | .pat => { r with pat := BitVec.ofNat 255 v }

/-- The constant of the ID register: "HUF" and version 1 (R32). -/
def idValue : BitVec 32 := 0x48554601#32

/-- The value of a register as a host read returns it (R31, R61): CMD reads 0 (R33), STATUS is the word of R34,
BLOBCTL is the PRESENT flag itself (R40). -/
def State.csrValue (s : State) : Csr → BitVec 255
  | .id => idValue.setWidth 255
  | .cmd => 0#255
  | .status => (statusWord s).setWidth 255
  | .len => s.len.setWidth 255
  | .origLen => s.origLen.setWidth 255
  | .bitCnt => s.bitCnt.setWidth 255
  | .wordCnt => s.wordCnt.setWidth 255
  | .root => s.root.setWidth 255
  | .blobCtl => (BitVec.ofBool s.present).setWidth 255
  | .outFill => s.outFill.setWidth 255
  | .result => s.result.setWidth 255
  | .rem => s.rem.setWidth 255
  | .outPos => s.outPos.setWidth 255
  | .pos => s.pos.setWidth 255

/-- The current value of an element, widened with zeros (R8, R61). -/
def State.value (s : State) : Element → BitVec 255
  | .csr r => s.csrValue r
  | .inp i => (s.inAt i).setWidth 255
  | .out i => (s.outAt i).setWidth 255
  | .pack i => (s.packAt i).setWidth 255
  | .node n f => Node.field (s.nodeAt (BitVec.ofNat 9 n)) f
  | .freq i => (s.freqAt (symOf i)).setWidth 255
  | .lut i => (s.lutAt (symOf i)).setWidth 255

/-- The state with a value stored in a register (R31, R63): read-only registers ignore the write (R64). The
effect of a write to CMD is the host port's (`Port.lean`); CMD itself holds no state (R33). -/
def State.storeCsr (s : State) (r : Csr) (v : Nat) : State :=
  match r with
  | .id => s
  | .cmd => s
  | .status => s
  | .len => { s with len := BitVec.ofNat 32 v }
  | .origLen => { s with origLen := BitVec.ofNat 32 v }
  | .bitCnt => { s with bitCnt := BitVec.ofNat 40 v }
  | .wordCnt => { s with wordCnt := BitVec.ofNat 34 v }
  | .root => { s with root := BitVec.ofNat 9 v }
  | .blobCtl => { s with present := BitVec.ofNat 1 v == 1#1 }
  | .outFill => { s with outFill := BitVec.ofNat 32 v }
  | .result => s
  | .rem => s
  | .outPos => s
  | .pos => s

/-- The state with a value stored in an element (R63); FREQ and LUT are read-only (R64). -/
def State.store (s : State) (e : Element) (v : Nat) : State :=
  match e with
  | .csr r => s.storeCsr r v
  | .inp i => s.putIn i (BitVec.ofNat 8 v)
  | .out i => s.putOut i (BitVec.ofNat 8 v)
  | .pack i => s.putPack i (BitVec.ofNat 64 v)
  | .node n f => s.putNode (BitVec.ofNat 9 n) (Node.setField (s.nodeAt (BitVec.ofNat 9 n)) f v)
  | .freq _ => s
  | .lut _ => s

end Sys2Proof.Machine
end

