-- ==== Sys2Proof/Machine/Build.lean ====
section
/-! DEFINITION. The tree builder: the priority queue and the micro-operations QINIT, MERGE, WRAP, ROOTSEL, together BUILD
(`41_tree_builder.md`). -/

namespace Sys2Proof.Machine

/-! ## The priority queue Q (R131, R132) -/

/-- The key of an index: NODE[n].FREQ (R131). -/
def State.key (s : State) (n : NodeIdx) : Count := (s.nodeAt n).freq

/-- The least key of the indices `n :: ns`. -/
def State.minKey (s : State) (n : NodeIdx) : List NodeIdx → Count
  | [] => s.key n
  | m :: ns => if s.key n < s.minKey m ns then s.key n else s.minKey m ns

/-- The least index of `n :: ns`. -/
def leastIdx (n : NodeIdx) : List NodeIdx → NodeIdx
  | [] => n
  | m :: ns => if n < leastIdx m ns then n else leastIdx m ns

/-- The greatest index of `n :: ns`. -/
def greatestIdx (n : NodeIdx) : List NodeIdx → NodeIdx
  | [] => n
  | m :: ns => if greatestIdx m ns < n then n else greatestIdx m ns

/-- TIE (R132): which of the minimal indices `n :: ns` is popped. With one candidate there is no choice; the free
discipline chooses by the queue's history. -/
def pick (t : Tie) (hist : List QEvent) (n : NodeIdx) : List NodeIdx → NodeIdx
  | [] => n
  | m :: ns =>
    match t with
    | .ref => leastIdx n (m :: ns)
    | .alt => greatestIdx n (m :: ns)
    | .free => (n :: m :: ns).getD (Config.tieChoice hist % (ns.length + 2)) n

/-- The indices of the queue whose key is minimal (R132). -/
def State.candidates (s : State) : List NodeIdx :=
  match s.queue with
  | [] => []
  | n :: ns => (n :: ns).filter (fun m => s.key m == s.minKey n ns)

/-- `push(Q, n)` (R131). -/
def State.push (n : NodeIdx) (s : State) : State :=
  { s with queue := s.queue ++ [n], qHist := .pushed n (s.key n) :: s.qHist }

/-- `pop(Q)` (R131, R132): an index of minimal key, chosen among equals by TIE, and the queue without it; `none`
where the queue is empty, for which R131 gives no effect. -/
def State.pop (s : State) : Option (NodeIdx × State) :=
  match s.candidates with
  | [] => none
  | c :: cs =>
    let n := pick s.tie s.qHist c cs
    some (n, { s with queue := s.queue.erase n, qHist := .popped n :: s.qHist })

/-! ## Records -/

/-- The leaf record QINIT makes (R133): CLEN = 0 marks a code not yet assigned. -/
def leafNode (x : Sym) (f : Count) : Node :=
  { kind := .leaf, freq := f, sym := x, left := absent, right := absent, clen := 0#8, pat := 0#255 }

/-- The internal record MERGE and WRAP make (R136, R137). -/
def internalNode (f : Count) (l r : NodeIdx) : Node :=
  { kind := .internal, freq := f, sym := 0#8, left := l, right := r, clen := 0#8, pat := 0#255 }

/-- The record at index NNODE is written, NNODE advances, and the index is pushed (the last three lines of R133,
R136 and R137). -/
def State.allocPush (r : Node) (s : State) : State :=
  ({ s.putNode s.nNode r with nNode := s.nNode + 1#9 }).push s.nNode

/-! ## Micro-operations -/

/-- One pass of QINIT's loop (R133). -/
def qinitSym (i : Nat) (s : State) : State :=
  if s.freqAt (symOf i) = 0#32 then s else s.allocPush (leafNode (symOf i) (s.freqAt (symOf i)))

/-- QINIT (R133): one leaf per symbol of non-zero frequency, in ascending symbol order. -/
def qinit (s : State) : State :=
  loopUp numSyms 0 qinitSym { s.enter .qinit with queue := [], qHist := [], nNode := 0#9 }

/-- MERGE (R136): the first index popped becomes LEFT, the second RIGHT, the frequency is their sum. -/
def merge (s : State) : Flow :=
  match (s.enter .merge).pop with
  | none => .stop (.undef .emptyQueue) s
  | some (a, s1) =>
    match s1.pop with
    | none => .stop (.undef .emptyQueue) s1
    | some (b, s2) => .go (s2.allocPush (internalNode (s2.key a + s2.key b) a b))

/-- WRAP (R137): the sole leaf becomes the LEFT child of a synthetic root, RIGHT is ABSENT. -/
def wrap (s : State) : Flow :=
  match (s.enter .wrap).pop with
  | none => .stop (.undef .emptyQueue) s
  | some (a, s1) => .go (s1.allocPush (internalNode (s1.key a) a absent))

/-- ROOTSEL (R135): ROOT <- pop(Q), entered with "size(Q) = 1", and "Q is empty afterwards". The one index it finds is the one
R52 speaks of (`mergeToOne`). -/
def rootsel (s : State) : Flow :=
  match (s.enter .rootsel).pop with
  | none => .stop (.undef .emptyQueue) s
  | some (a, s1) => .go { s1 with root := a }

/-- `while size(Q) > 1: MERGE` (R134); the fuel is the size of the queue, which each MERGE lowers by one. -/
def mergeLoop : Nat → State → Flow
  | 0, s => .go s
  | k + 1, s => if s.queue.length > 1 then (merge s).andThen (mergeLoop k) else .go s

/-- WRAP, "only when S = 1" (R134): the queue holds one index after QINIT. -/
def wrapIfSole (s : State) : Flow := if s.queue.length = 1 then wrap s else .go s

/-- BUILD from a queue that is not empty up to "Terminate when exactly one node remains" (R134, R135): WRAP or the MERGEs.
Here Q "holds exactly one index (ROOT)", as R52 says of the moment "when the builder ends"; `mergeToOne_leaves_root` is the
proof. DEDUCED (log 20): R52 speaks of this moment, since R135 has ROOTSEL then pop that index. -/
def mergeToOne (q : State) : Flow := (wrapIfSole q).andThen (fun t => mergeLoop t.queue.length t)

/-- BUILD (R134). With no symbol it ends early, ROOT <- ABSENT (R140), and ENCODE takes the early end for the absent
result (R211). The shape of the tree it leaves (R139) follows from `qinit`, `merge`, `wrap` and `rootsel`: `build_spec` proves it,
and the statements NodeNumbering, InternalRecordsAreSums, EveryRecordHasOneParent and CodeLengthBound say it of ENCODE. -/
def build (s : State) : Flow :=
  let q := qinit s
  if q.queue.length = 0 then .stop .done { q with root := absent }
  else (mergeToOne q).andThen rootsel

end Sys2Proof.Machine
end

