-- ==== Sys2Proof/Machine/Count.lean ====
section
/-! DEFINITION. The frequency counter: the micro-operation FCOUNT (`40_frequency_counter.md`). -/

namespace Sys2Proof.Machine

/-- One pass of FCOUNT's second loop (R121), entered with INIDX = i: FREQ[IN[i]] <- FREQ[IN[i]] + 1, and INIDX + 1 after the
read (R77). -/
def fcountByte (i : Nat) (s : State) : State :=
  { s.putFreq (s.inAt i) (s.freqAt (s.inAt i) + 1#32) with inIdx := BitVec.ofNat 32 (i + 1) }

/-- FCOUNT (R121): clear the table, set INIDX to 0 (R27), then count every input byte. -/
def fcount (s : State) : State :=
  loopUp s.len.toNat 0 fcountByte
    (loopUp numSyms 0 (fun i t => t.putFreq (symOf i) 0#32) { s.enter .fcount with inIdx := 0#32 })

end Sys2Proof.Machine
end

