-- ==== Sys2Proof/Machine/Assign.lean ====
section
/-! DEFINITION. The code assigner: the micro-operation ASSIGN (`42_code_assigner.md`). -/

namespace Sys2Proof.Machine

/-- AssignLeaf (R153): the depth check first, then the assigned-twice check, then PAT and CLEN are written. -/
def assignLeaf (n : NodeIdx) (pat : Pattern) (d : CodeLen) (s : State) : Flow :=
  if d = 0#8 then .stop (.fatal .codeLen0) s
  else if (s.nodeAt n).clen ≠ 0#8 then .stop (.fatal .codeTwice) s
  else .go (s.putNode n { s.nodeAt n with pat := pat, clen := d })

/-- The stack entry of an internal record is pushed while its subtrees are walked (R53, R155). -/
def State.pushFrame (n : NodeIdx) (pat : Pattern) (d : CodeLen) (s : State) : State :=
  { s with stack := { node := n, pat := pat, depth := d } :: s.stack }

/-- The stack entry is popped (R53). -/
def State.popFrame (s : State) : State := { s with stack := s.stack.tail }

/-- Visit(n, pat, d) (R151): PATREG and DEPTH hold the visit in progress; an absent child does nothing (R154), a leaf
is assigned, an internal record's left subtree is walked before its right one (R155). The fuel is more
than the node store has records: running out means the store holds a cycle, for which R150 defines nothing. -/
def visit : Nat → NodeIdx → Pattern → CodeLen → State → Flow
  | 0, _, _, _, s => .stop (.undef .unboundedWalk) s
  | k + 1, n, pat, d, s =>
    if n = absent then .go s
    else match (s.nodeAt n).kind with
      | .leaf => assignLeaf n pat d { s with patReg := pat, depth := d }
      | .internal =>
        ((visit k (s.nodeAt n).left (childPat pat false) (d + 1#8)
            (State.pushFrame n pat d { s with patReg := pat, depth := d })).andThen
          (visit k (s.nodeAt n).right (childPat pat true) (d + 1#8))).andThen
          (fun t => .go t.popFrame)

/-- The fuel of a walk over the node store: one more than its records. -/
def walkFuel : Nat := numNodes + 1

/-- ASSIGN (R151): Visit(ROOT, 0, 0). DESIGN CHOICE (log 19): the stack is emptied first. R53 and R151 to R155 name nothing that
empties it; R274 says only that it is set before it is read. So it holds the path to the visit in progress and no more. -/
def assign (s : State) : Flow := visit walkFuel s.root 0#255 0#8 { s.enter .assign with stack := [] }

end Sys2Proof.Machine
end

