-- ==== Sys2Proof/Machine/Pack.lean ====
section
/-! DEFINITION. The bit packer: the micro-operations FLATTEN, PACK-INIT, PACKSYM, PACKBIT, FLUSH, together PACK
(`43_bit_packer.md`). -/

namespace Sys2Proof.Machine

/-- Walk(n) of FLATTEN (R166); the fuel as in `visit`. -/
def walkLut : Nat → NodeIdx → State → Flow
  | 0, _, s => .stop (.undef .unboundedWalk) s
  | k + 1, n, s =>
    if n = absent then .go s
    else match (s.nodeAt n).kind with
      | .leaf => .go (s.putLut (s.nodeAt n).sym n)
      | .internal => (walkLut k (s.nodeAt n).left s).andThen (walkLut k (s.nodeAt n).right)

/-- FLATTEN (R166): every entry ABSENT, then one entry per leaf under ROOT. -/
def flatten (s : State) : Flow :=
  walkLut walkFuel s.root (loopUp numSyms 0 (fun i t => t.putLut (symOf i) absent) (s.enter .flatten))

/-- PACK-INIT (R168), with INIDX <- 0 before the loop over the input (R27, R168). -/
def packInit (s : State) : State :=
  { s.enter .packInit with acc := 0#64, accCnt := 0#7, wIdx := 0#34, bitCnt := 0#40, inIdx := 0#32 }

/-- The first three lines of PACKBIT (R170): the bit enters lane 63 − ACCCNT (R167), and both counts advance. -/
def shiftIn (b : Bool) (s : State) : State :=
  { s.enter .packBit with
    acc := s.acc ||| ((BitVec.ofBool b).setWidth 64 <<< (63 - s.accCnt.toNat))
    accCnt := s.accCnt + 1#7
    bitCnt := s.bitCnt + 1#40 }

/-- The capacity check and the write of a word (R170, R172): fail E_PACKCAP where WIDX = PACK_CAP, else
PACK[WIDX] <- ACC and WIDX advances. -/
def writeWord (s : State) : Flow :=
  if s.wIdx = s.packCap then .stop (.fail .packCap) s
  else .go { s.putPack s.wIdx.toNat s.acc with wIdx := s.wIdx + 1#34 }

/-- PACKBIT (R170): "A full word is written as soon as its 64th bit arrives." -/
def packBit (b : Bool) (s : State) : Flow :=
  if (shiftIn b s).accCnt = 64#7 then
    (writeWord (shiftIn b s)).andThen (fun t => .go { t with acc := 0#64, accCnt := 0#7 })
  else .go (shiftIn b s)

/-- `for k = L − 1 down to 0: PACKBIT(P[k])` (R169). -/
def packCode : Nat → Pattern → State → Flow
  | 0, _, s => .go s
  | k + 1, p, s => (packBit (p.getLsbD k) s).andThen (packCode k p)

/-- PACKSYM (R169). -/
def packSym (x : Sym) (s : State) : Flow :=
  if s.lutAt x = absent then .stop (.fatal .noCode) (s.enter .packSym)
  else packCode (s.codeOf x).clen.toNat (s.codeOf x).pat (s.enter .packSym)

/-- One pass of PACK's loop (R168), entered with INIDX = i: IN[i] is read, INIDX + 1 (R77), PACKSYM(IN[i]). -/
def packByte (i : Nat) (s : State) : Flow := packSym (s.inAt i) { s with inIdx := BitVec.ofNat 32 (i + 1) }

/-- FLUSH (R172): a partial word, if any, is written, its unused low bits zero; WORDCNT <- WIDX. -/
def flush (s : State) : Flow :=
  (if s.accCnt = 0#7 then .go (s.enter .flush) else writeWord (s.enter .flush)).andThen
    (fun t => .go { t with wordCnt := t.wIdx })

/-- PACK (R168). -/
def pack (s : State) : Flow :=
  ((flatten s).andThen (fun t => loopFlow t.len.toNat 0 packByte (packInit t))).andThen flush

end Sys2Proof.Machine
end

