-- ==== Sys2Proof/Machine/Unpack.lean ====
section
/-! DEFINITION. The bit unpacker: the micro-operations UNPACK-INIT, UNPACKBIT, UNPACK-EXHAUST, together UNPACK
(`44_bit_unpacker.md`). -/

namespace Sys2Proof.Machine

/-- UNPACK-INIT (R186). -/
def unpackInit (s : State) : State :=
  { s.enter .unpackInit with pos := s.root, rem := s.bitCnt, outPos := 0#32 }

/-- Steps (2) and (3) of UNPACKBIT (R189): REM <- REM − 1, POS <- Child(POS, b). -/
def unpackMove (b : Bool) (s : State) : State :=
  { s with rem := s.rem - 1#40, pos := s.child s.pos b }

/-- Steps (7) and (8) of UNPACKBIT (R189, R193): the symbol of the leaf goes to OUT[base + OUTPOS], OUTPOS
advances, POS returns to ROOT. -/
def emitSym (base : Nat) (s : State) : State :=
  { s.putOut (base + s.outPos.toNat) (s.nodeAt s.pos).sym with outPos := s.outPos + 1#32, pos := s.root }

/-- Steps (6) to (9) of UNPACKBIT at a leaf (R189, R193, R194). -/
def unpackLeaf (base : Nat) (s : State) : Flow :=
  if s.outPos = s.origLen then .stop (.fail .overrun) s
  else if (emitSym base s).rem = 0#40 then
    (if (emitSym base s).outPos = (emitSym base s).origLen then .stop .done (emitSym base s)
     else .stop (.fail .count) (emitSym base s))
  else .go (emitSym base s)

/-- Steps (4) and (5) of UNPACKBIT (R189, R191, R192), on the state after the move. -/
def unpackArrive (base : Nat) (s : State) : Flow :=
  if s.pos = absent then .stop (.fail .noChild) s
  else match (s.nodeAt s.pos).kind with
    | .leaf => unpackLeaf base s
    | .internal => .go s

/-- UNPACKBIT (R189): the trailing-bit check before the decrement (R190). -/
def unpackBit (b : Bool) (base : Nat) (s : State) : Flow :=
  if s.rem = 0#40 then .stop (.fail .trailing) (s.enter .unpackBit)
  else unpackArrive base (unpackMove b (s.enter .unpackBit))

/-- One pass of UNPACK's inner loop (R187): BITIDX <- i, the next bit is SHREG[63], SHREG shifts left. -/
def unpackStep (base i : Nat) (s : State) : Flow :=
  unpackBit s.shReg.msb base { s with bitIdx := BitVec.ofNat 6 i, shReg := s.shReg <<< 1 }

/-- One pass of UNPACK's outer loop (R187, R188), WIDX = w: SHREG <- PACK[w], then its 64 bits, and WIDX + 1 after the word
(R77), which an end inside the word does not reach (R26). -/
def unpackWord (base w : Nat) (s : State) : Flow :=
  (loopFlow 64 0 (unpackStep base) { s with wIdx := BitVec.ofNat 34 w, shReg := s.packAt w }).andThen
    (fun t => .go { t with wIdx := BitVec.ofNat 34 (w + 1) })

/-- UNPACK-EXHAUST (R196). -/
def unpackExhaust (s : State) : Flow :=
  if s.rem ≠ 0#40 ∨ s.pos ≠ s.root then .stop (.fail .exhaust) (s.enter .unpackExhaust)
  else if s.outPos = s.origLen then .stop .done (s.enter .unpackExhaust)
  else .stop (.fail .count) (s.enter .unpackExhaust)

/-- UNPACK(base) (R187); WIDX starts at 0, also where WORDCNT = 0. -/
def unpack (base : Nat) (s : State) : Flow :=
  (loopFlow s.wordCnt.toNat 0 (unpackWord base) { unpackInit s with wIdx := 0#34 }).andThen unpackExhaust

end Sys2Proof.Machine
end

