-- ==== Sys2Proof/Machine/Commands.lean ====
section
/-! DEFINITION. The five commands (`45_commands.md`), one meaning each. -/

namespace Sys2Proof.Machine

/-! ## ENCODE -/

/-- The phases of ENCODE in their order (R211): FCOUNT, BUILD, ASSIGN, PACK. -/
def encodePhases (s : State) : Flow := ((build (fcount s)).andThen assign).andThen pack

/-- "if PACK failed with E_PACKCAP: ROOT <- ABSENT; BITCNT <- 0; WORDCNT <- 0; ORIGLEN <- 0" (R211); on success
ORIGLEN <- LEN and PRESENT <- 1. -/
def encodeFinish : Flow → Flow
  | .go s => .go { s with origLen := s.len, present := true }
  | .stop (.fail c) s => .stop (.fail c) (clearBlob s)
  | .stop e s => .stop e s

/-- The command ENCODE once accepted (R211), its refusals in the order of R249. -/
def encodeBody (s : State) : Flow :=
  if s.present then .stop (.refuse .blobHeld) s
  else if s.inCap < s.len then .stop (.refuse .inCap) s
  else if s.len = 0#32 then .stop .done s
  else encodeFinish (encodePhases s)

/-- ENCODE (R211). -/
def execEncode (s : State) : Result := accept s (fun t => conclude (encodeBody t))

/-! ## DECODE and DECODEA -/

/-- The absent blob (R213, R215): POS <- ABSENT, REM <- 0, OUTPOS <- 0, nothing else is written. -/
def absentDecode (s : State) : State := { s with pos := absent, rem := 0#40, outPos := 0#32 }

/-- The checks DECODE and DECODEA share (R213, R215), in the order of R249, before UNPACK(base). -/
def decodeFrom (base : Nat) (s : State) : Flow :=
  if s.present = false then .stop .done (absentDecode s)
  else if s.outCap.toNat < base + s.origLen.toNat then .stop (.refuse .outCap) s
  else if s.packCap < s.wordCnt then .stop (.refuse .packCap) s
  else unpack base s

/-- DECODE (R213): the destination is OUT from index 0. -/
def execDecode (s : State) : Result := accept s (fun t => conclude (decodeFrom 0 t))

/-- "if it ended in done: OUTFILL <- OUTFILL + ORIGLEN" (R215). -/
def advanceFill : Flow → Flow
  | .stop .done s => .stop .done { s with outFill := s.outFill + s.origLen }
  | x => x

/-- The command DECODEA once accepted (R215): the destination is OUT from index OUTFILL; for the absent blob OUTFILL
does not change. -/
def decodeaBody (s : State) : Flow :=
  if s.present then advanceFill (decodeFrom s.outFill.toNat s) else decodeFrom s.outFill.toNat s

/-- DECODEA (R215). -/
def execDecodea (s : State) : Result := accept s (fun t => conclude (decodeaBody t))

/-! ## OLEN and RELEASE -/

/-- OLEN (R220): RESULT <- ORIGLEN if a blob is present, else 0. -/
def execOlen (s : State) : Result :=
  accept s (fun t => .next (succeed { t with result := if t.present then t.origLen else 0#32 }))

/-- RELEASE (R222): a present blob is dropped; with none, nothing but OK and CAUSE changes. -/
def execRelease (s : State) : Result :=
  accept s (fun t => .next (succeed (if t.present then clearBlob t else t)))

end Sys2Proof.Machine
end

