-- ==== Sys2Proof/Machine/Dispatch.lean ====
section
/-! DEFINITION. One arm per command (`30_encoding.md` rule R91). -/

namespace Sys2Proof.Machine

def exec (i : Instr) (s : State) : Host.Outcome State Fault Refusal :=
  match i with
  | .encode => Sys2Proof.Machine.execEncode s
  | .decode => Sys2Proof.Machine.execDecode s
  | .decodea => Sys2Proof.Machine.execDecodea s
  | .olen => Sys2Proof.Machine.execOlen s
  | .release => Sys2Proof.Machine.execRelease s

end Sys2Proof.Machine
end

