-- ==== Sys2Proof/Machine/Port.lean ====
section
/-! DEFINITION. The host port (`20_memory.md` rules R60 to R64, R68): what one action of the host does. -/

namespace Sys2Proof.Machine

/-- CommandWrite(w) (R210, R249): a legal word runs its command, whose own acceptance check is FAULTED; an illegal
word is refused, with E_FAULTED while FAULTED = 1 (R103) and with E_ILLCMD otherwise (R101, R102). -/
def commandWrite (w : CmdWord) (s : State) : Result :=
  match decodeWord w with
  | .ok i => exec i s
  | .error _ => accept s (fun t => .next (report .illCmd t))

/-- The value HostRead(space, index) returns (R61); 0 for an index out of range (R68). -/
def hostRead (s : State) (space index : Nat) : BitVec 255 :=
  match s.element space index with
  | some e => s.value e
  | none => 0#255

/-- A write of an in-range element (R63, R64): CMD runs a command, everything else changes its own element or, if
read-only, nothing. -/
def writeElement (e : Element) (v : Nat) (s : State) : Result :=
  if e = .csr .cmd then commandWrite (BitVec.ofNat 32 v) s else .next (s.store e v)

/-- HostWrite(space, index, value) (R63): an index out of range changes no state (R68); a value that does not fit the
element is outside the port's contract (R60) and is refused. -/
def hostWrite (space index v : Nat) (s : State) : Result :=
  match s.element space index with
  | none => .next s
  | some e => if v < 2 ^ e.width then writeElement e v s else .refused .valueTooWide

/-- What one action of the host does to the block (R60, R62, R270). -/
def act (a : HostAction) (s : State) : Result :=
  match a with
  | .read space index => .next { s with readVal := hostRead s space index }
  | .write space index v => hostWrite space index v s
  | .reset => .next (applyReset s)

/-- One step (R62, R74): the host's next action is taken off its script and takes effect whole; with none left the core
is idle and keeps all state (R262). -/
def takeAction (s : State) : Result :=
  match s.script with
  | [] => .next s
  | a :: rest => act a { s with script := rest }

/-- The host action that issues a command word: a write of CSR `0x01` (R33). -/
def cmdAction (w : Nat) : HostAction := .write 0 1 w

/-- The state whose next host action issues the word `w`, cut to `nbits` bits and to the 32 of a command word. -/
def placeWord (s : State) (nbits w : Nat) : State :=
  { s with script := cmdAction (w % 2 ^ nbits % 2 ^ 32) :: s.script }

end Sys2Proof.Machine
end

