-- ==== Sys2Proof/Machine/Step.lean ====
section
/-! DEFINITION. One step of the machine: one action of the host (`20_memory.md` rules R62, R74). -/

namespace Sys2Proof.Machine

/-- One step: see `takeAction`. -/
def step (s : State) : Host.Outcome State Fault Refusal := takeAction s

/-- The state whose very next step issues the instruction of `nbits` bits whose bits are `w`: see `placeWord`. -/
def State.withFetchWord (s : State) (nbits w : Nat) : State := placeWord s nbits w

end Sys2Proof.Machine
end

