-- ==== Sys2Proof/Safety.lean ====
section
/-! DEFINITION. The terms the claims use: the packed stream and the codes as bit strings, the input as a list, the decoder as a
function on a list of bits, the invariant every step keeps, and the conditions under which a command runs to its own end. -/

namespace Sys2Proof.Machine

/-! ## Bit strings -/

/-- Stream bit `k`: bit `63 − (k mod 64)` of `PACK[k div 64]` (R65). -/
def State.streamBit (s : State) (k : Nat) : Bool := (s.packAt (k / 64)).getLsbD (63 - k % 64)

/-- The first `n` stream bits. -/
def State.streamBits (s : State) (n : Nat) : List Bool := (List.range n).map s.streamBit

/-- The low `n` bits of a pattern as a bit string, most significant first (R9): `p[n−1]`, …, `p[0]`. -/
def patBits : Nat → Pattern → List Bool
  | 0, _ => []
  | n + 1, p => p.getLsbD n :: patBits n p

/-- The code of a leaf as a bit string, first bit first: PAT[CLEN−1], …, PAT[0] (R92). -/
def codeBits (r : Node) : List Bool := patBits r.clen.toNat r.pat

/-- The input of ENCODE: IN[0 .. LEN−1] (R35). -/
def State.input (s : State) : List Sym := (List.range s.len.toNat).map s.inAt

/-- The codes of a list of symbols one after another (R99), read through LUT and NODE (R166). -/
def streamOf (s : State) (xs : List Sym) : List Bool := xs.flatMap (fun x => codeBits (s.codeOf x))

/-- The number of bits of a list of symbols: the sum of their code lengths (R171). -/
def bitsOf (s : State) (xs : List Sym) : Nat := (xs.map (fun x => (s.codeOf x).clen.toNat)).sum

/-! ## Symbols and the tree -/

/-- The symbols of non-zero frequency in ascending order (R133). -/
def presentSyms (g : Sym → Count) : List Sym := ((List.range numSyms).map symOf).filter (fun x => g x ≠ 0#32)

/-- The distinct-symbol count S (R13), read from FREQ. -/
def State.distinct (s : State) : Nat := (presentSyms s.freqAt).length

/-- The position reached from `n` along a list of bits by `Child` (R191). -/
def State.walk (s : State) : NodeIdx → List Bool → NodeIdx
  | n, [] => n
  | n, b :: bs => s.walk (s.child n b) bs

/-- A leaf with a path to it from ROOT that has at least one edge. -/
def GoodPath (s : State) (p : NodeIdx × List Bool) : Prop :=
  p.1 ≠ absent ∧ p.2 ≠ [] ∧ s.walk s.root p.2 = p.1 ∧ (s.nodeAt p.1).kind = .leaf

/-! ## The decoder on a list of bits -/

/-- How a decode ends: its cause (NONE for success), the symbols emitted, and what REM and POS are left at. -/
structure Decoded where
  cause : Cause
  out   : List Sym
  rem   : Nat
  pos   : NodeIdx
deriving DecidableEq, Repr

/-- The checks of R189 over a list of bits, with no shifter, no word and no store: from position `pos` with `rem` bits still to
consume and the symbols `out` emitted so far; at the end of the list, the rule of R196. -/
def State.decodeBits (s : State) : List Bool → NodeIdx → Nat → List Sym → Decoded
  | [], pos, rem, out =>
    if rem ≠ 0 ∨ pos ≠ s.root then ⟨.exhaust, out, rem, pos⟩
    else if out.length = s.origLen.toNat then ⟨.none, out, 0, pos⟩
    else ⟨.count, out, 0, pos⟩
  | b :: bs, pos, rem, out =>
    if rem = 0 then ⟨.trailing, out, 0, pos⟩
    else if s.child pos b = absent then ⟨.noChild, out, rem - 1, absent⟩
    else match (s.nodeAt (s.child pos b)).kind with
      | .internal => s.decodeBits bs (s.child pos b) (rem - 1) out
      | .leaf =>
        if out.length = s.origLen.toNat then ⟨.overrun, out, rem - 1, s.child pos b⟩
        else if rem = 1 then
          (if out.length + 1 = s.origLen.toNat then ⟨.none, out ++ [(s.nodeAt (s.child pos b)).sym], 0, s.root⟩
           else ⟨.count, out ++ [(s.nodeAt (s.child pos b)).sym], 0, s.root⟩)
        else s.decodeBits bs s.root (rem - 1) (out ++ [(s.nodeAt (s.child pos b)).sym])

/-- The decode of the blob that is held: the `64 × WORDCNT` bits of the packed buffer from ROOT, BITCNT of them to be consumed
(R186, R187). -/
def State.decoded (s : State) : Decoded :=
  s.decodeBits (s.streamBits (64 * s.wordCnt.toNat)) s.root s.bitCnt.toNat []

/-! ## When a command runs to its own end -/

/-- ENCODE is neither refused nor cut short (R211, R249): not FAULTED, no blob held, 1 ≤ LEN ≤ IN_CAP; the stores are in
canonical form. -/
def EncodeReady (s : State) : Prop :=
  s.faulted = false ∧ s.present = false ∧ s.len ≠ 0#32 ∧ s.len ≤ s.inCap ∧ Memory.wf s = true

/-- DECODE (`base` 0) or DECODEA (`base` OUTFILL) starts UNPACK (R213, R215, R249): not FAULTED, a blob held, the destination
fits OUT, the buffer fits PACK; the stores are in canonical form. -/
def DecodeReady (base : Nat) (s : State) : Prop :=
  s.faulted = false ∧ s.present = true ∧ base + s.origLen.toNat ≤ s.outCap.toNat ∧ s.wordCnt ≤ s.packCap ∧
    Memory.wf s = true

/-- `t` is what a successful ENCODE of a non-empty input leaves of `s`. -/
def Encodes (s t : State) : Prop := EncodeReady s ∧ exec .encode s = .next t ∧ t.present = true

/-! ## After reset -/

/-- A state right after reset as the spec gives it: flags, codes, control registers and SEQ by R271, R272, R274; the stores, in
canonical form, and the hidden registers hold anything (R273, R274), and so do the open parameters and what is the model's own. -/
def AtReset (s : State) : Prop :=
  Memory.wf s = true ∧
  s = { State.reset with
        inp := s.inp, out := s.out, pack := s.pack, node := s.node, freq := s.freq, lut := s.lut, acc := s.acc
        accCnt := s.accCnt, patReg := s.patReg, depth := s.depth, shReg := s.shReg, bitIdx := s.bitIdx, wIdx := s.wIdx
        inIdx := s.inIdx, nNode := s.nNode, queue := s.queue, qHist := s.qHist, stack := s.stack, inCap := s.inCap
        outCap := s.outCap, packCap := s.packCap, tie := s.tie, script := s.script, readVal := s.readVal
        resets := s.resets }

/-! ## The host -/

/-- The elements a host write stores to: the RW registers of R31 and the RW spaces of R50. -/
def Element.writable : Element → Bool
  | .csr .id => false
  | .csr .cmd => false
  | .csr .status => false
  | .csr .len => true
  | .csr .origLen => true
  | .csr .bitCnt => true
  | .csr .wordCnt => true
  | .csr .root => true
  | .csr .blobCtl => true
  | .csr .outFill => true
  | .csr .result => false
  | .csr .rem => false
  | .csr .outPos => false
  | .csr .pos => false
  | .inp _ => true
  | .out _ => true
  | .pack _ => true
  | .node _ _ => true
  | .freq _ => false
  | .lut _ => false

/-- The state after some number of steps. -/
inductive Reaches (s : State) : State → Prop where
  | start : Reaches s s
  | more {t u : State} : Reaches s t → step t = .next u → Reaches s u

/-! ## The invariant -/

/-- What every step keeps: the stores are in canonical form; SEQ is IDLE between commands (R28); FAULTED and FCODE are 0 and
the causes 11 and 12 are never seen (R246); OK = 1 only with CAUSE = 0 (R30). -/
structure Inv (s : State) : Prop where
  memory  : Memory.wf s = true
  idle    : s.seq = .idle
  sound   : s.faulted = false
  noFatal : s.fcode = .none
  causes  : s.cause ≠ .faulted ∧ s.cause ≠ .fatal
  okCause : s.ok = true → s.cause = .none

end Sys2Proof.Machine
end

