-- ==== Sys2Proof/Certificates/Slice0/Obligations.lean ====
section
/-! DEFINITION. The statements for the provers. `exec i s` is the meaning of a command, `commandWrite w s` the write of a word
to CMD, `step` one action of the host. An index of a store reads through `inAt`, `outAt`, `packAt`, `nodeAt`, `freqAt`,
`lutAt`. A statement about ENCODE holds for every queue discipline: the discipline stands in `s.tie`, and one of its values is
an unknown function of the queue's history. -/

open Sys2Proof Sys2Proof.Machine

/-! ## The command word -/

/-- The words of R91 written out: opcode in bits [7:0], zero above. A few words that are no command. -/
def Obligations.WrittenWordsDecode : Prop :=
  decodeWord 0b00000000000000000000000000000001#32 = .ok .encode ∧
  decodeWord 0b00000000000000000000000000000010#32 = .ok .decode ∧
  decodeWord 0b00000000000000000000000000000011#32 = .ok .decodea ∧
  decodeWord 0b00000000000000000000000000000100#32 = .ok .olen ∧
  decodeWord 0b00000000000000000000000000000101#32 = .ok .release ∧
  decodeWord 0b00000000000000000000000000000000#32 = .error .illegalOpcode ∧
  decodeWord 0b00000000000000000000000000000110#32 = .error .illegalOpcode ∧
  decodeWord 0b00000000000000000000000100000001#32 = .error .reservedBits ∧
  decodeWord 0b10000000000000000000000000000010#32 = .error .reservedBits

/-- R91, R100: every 32-bit word is exactly one of the five commands or is no command; a word is a command only with bits
[31:8] zero and bits [7:0] its opcode. -/
def Obligations.CommandMapComplete : Prop :=
  ∀ w : CmdWord,
    (decodeWord w = .ok .encode ↔ w.extractLsb' 8 24 = 0#24 ∧ w.extractLsb' 0 8 = 1#8) ∧
    (decodeWord w = .ok .decode ↔ w.extractLsb' 8 24 = 0#24 ∧ w.extractLsb' 0 8 = 2#8) ∧
    (decodeWord w = .ok .decodea ↔ w.extractLsb' 8 24 = 0#24 ∧ w.extractLsb' 0 8 = 3#8) ∧
    (decodeWord w = .ok .olen ↔ w.extractLsb' 8 24 = 0#24 ∧ w.extractLsb' 0 8 = 4#8) ∧
    (decodeWord w = .ok .release ↔ w.extractLsb' 8 24 = 0#24 ∧ w.extractLsb' 0 8 = 5#8) ∧
    ((∀ i, decodeWord w ≠ .ok i) ↔
      w.extractLsb' 8 24 ≠ 0#24 ∨ (w.extractLsb' 0 8).toNat < 1 ∨ 5 < (w.extractLsb' 0 8).toNat)

/-- Decode and encode agree, both ways: the word of every well-formed command decodes to it, and a word that decodes to a
command is the word of that command. -/
def Obligations.DecodeEncodeAgree : Prop :=
  ∀ i : Instr, i.wf = true →
    CmdWord.wf (encode i) = true ∧ decodeWord (encode i) = .ok i ∧ decodeTableWord 32 (encode i).toNat = some i ∧
    ∀ w : CmdWord, decodeWord w = .ok i → w = encode i

/-! ## One step -/

/-- A step whose next host action writes a command's word to CMD runs that command, on the state without the action; so does
the step after `withFetchWord` on the word the table decoder reads. R33, R62 and R210 give that a CMD write runs the command
whole. That the host's next action stands in the list `script` is the model's choice (log entry 5), and so is the second clause:
how `withFetchWord` places a word and how `decodeTableWord` takes it (log entry 6). -/
def Obligations.StepRunsDecodedCommand : Prop :=
  (∀ (s : State) (w : CmdWord) (i : Instr) (rest : List HostAction), decodeWord w = .ok i →
    s.script = .write 0 1 w.toNat :: rest → step s = exec i { s with script := rest }) ∧
  (∀ (s : State) (w : Nat) (i : Instr), decodeTableWord 32 w = some i → step (s.withFetchWord 32 w) = exec i s)

/-- R62, R262 as the model takes them: one step is one host action, taken off the host's list; with none left the core keeps
all state. The list is the model's own (log entries 5 and 7). -/
def Obligations.StepTakesOneAction : Prop :=
  ∀ s : State,
    (s.script = [] → step s = .next s) ∧
    (∀ space index rest, s.script = .read space index :: rest →
      step s = .next { s with script := rest, readVal := hostRead { s with script := rest } space index }) ∧
    (∀ space index v rest, s.script = .write space index v :: rest →
      step s = hostWrite space index v { s with script := rest }) ∧
    (∀ rest, s.script = .reset :: rest → step s = .next (applyReset { s with script := rest }))

/-! ## Reset -/

/-- R272: the registers after reset, as the host reads them, whatever the stores and hidden registers hold; the blob registers have
the values RELEASE gives. -/
def Obligations.ResetRegisters : Prop :=
  AtReset State.reset ∧
  ∀ s : State, AtReset s →
    hostRead s 0 0x00 = 0x48554601#255 ∧ hostRead s 0 0x01 = 0#255 ∧ hostRead s 0 0x02 = 0x0000#255 ∧
    hostRead s 0 0x03 = 0#255 ∧ hostRead s 0 0x04 = 0#255 ∧ hostRead s 0 0x05 = 0#255 ∧
    hostRead s 0 0x06 = 0#255 ∧ hostRead s 0 0x07 = 511#255 ∧ hostRead s 0 0x08 = 0#255 ∧
    hostRead s 0 0x09 = 0#255 ∧ hostRead s 0 0x0A = 0#255 ∧ hostRead s 0 0x0B = 0#255 ∧
    hostRead s 0 0x0C = 0#255 ∧ hostRead s 0 0x0D = 511#255 ∧ s.seq = .idle ∧ clearBlob s = s

/-- R271: the flags and codes after reset, so that STATUS reads 0; and no command, and no illegal word, in any state, leaves
STATUS 0: OK = 0 comes with CAUSE ≠ 0, and OK = 1 with CAUSE = 0. -/
def Obligations.StatusZeroOnlyAfterReset : Prop :=
  (∀ s : State, AtReset s → s.present = false ∧ s.ok = false ∧ s.faulted = false ∧ s.cause = .none ∧
    s.fcode = .none ∧ statusWord s = 0x0000#16) ∧
  ∀ (s t : State) (w : CmdWord), commandWrite w s = .next t →
    (t.ok = true ↔ t.cause = .none) ∧ statusWord t ≠ 0x0000#16

/-- R270 to R274: the RESET input leads, whatever the state, FAULTED too, to a state right after reset. That the host's list, the
last value read and the open parameters stay is the model's choice (log entries 3, 5 and 7). -/
def Obligations.ResetInputRestoresRegisters : Prop :=
  ∀ (s : State) (rest : List HostAction), s.script = .reset :: rest →
    ∃ t, step s = .next t ∧ AtReset t ∧ t.script = rest ∧ t.readVal = s.readVal ∧ t.inCap = s.inCap ∧
      t.outCap = s.outCap ∧ t.packCap = s.packCap ∧ t.tie = s.tie

/-- R275: the first commands after reset, whatever the stores and the hidden registers hold. OLEN gives 0; DECODE and DECODEA
emit nothing; RELEASE and ENCODE (LEN = 0) change only OK. None reads or writes a store. -/
def Obligations.FirstCommandsAfterReset : Prop :=
  ∀ s : State, AtReset s →
    exec .olen s = .next { s with ok := true, result := 0#32 } ∧
    exec .decode s = .next { s with ok := true, outPos := 0#32 } ∧
    exec .decodea s = .next { s with ok := true, outPos := 0#32 } ∧
    exec .release s = .next { s with ok := true } ∧
    exec .encode s = .next { s with ok := true }

/-! ## The host port -/

/-- R61: a read of an element in range returns its current value and changes no state (the model keeps the value returned in its
own field `readVal`); CMD reads 0. Which element a pair (space, index) names, and its value, are written out for the fourteen
registers (R31), the seven fields of a record (R48: KIND is 0 for LEAF, 1 for INTERNAL) and the other spaces (R50). -/
def Obligations.HostReadChangesNothing : Prop :=
  (∀ (s : State) (space index : Nat) (rest : List HostAction), s.script = .read space index :: rest →
    ∃ v, step s = .next { s with script := rest, readVal := v } ∧
      v = hostRead { s with script := rest } space index ∧
      (∀ e, s.element space index = some e → v = s.value e) ∧
      (s.element space index = some (.csr .cmd) → v = 0#255)) ∧
  (∀ s : State,
    hostRead s 0 0x00 = 0x48554601#255 ∧ hostRead s 0 0x01 = 0#255 ∧
    hostRead s 0 0x02 = (statusWord s).setWidth 255 ∧ hostRead s 0 0x03 = s.len.setWidth 255 ∧
    hostRead s 0 0x04 = s.origLen.setWidth 255 ∧ hostRead s 0 0x05 = s.bitCnt.setWidth 255 ∧
    hostRead s 0 0x06 = s.wordCnt.setWidth 255 ∧ hostRead s 0 0x07 = s.root.setWidth 255 ∧
    hostRead s 0 0x08 = (if s.present then 1#255 else 0#255) ∧ hostRead s 0 0x09 = s.outFill.setWidth 255 ∧
    hostRead s 0 0x0A = s.result.setWidth 255 ∧ hostRead s 0 0x0B = s.rem.setWidth 255 ∧
    hostRead s 0 0x0C = s.outPos.setWidth 255 ∧ hostRead s 0 0x0D = s.pos.setWidth 255) ∧
  (∀ (s : State) (n : Nat), n < 511 →
    hostRead s 4 (8 * n) = (if (s.nodeAt (BitVec.ofNat 9 n)).kind = .leaf then 0#255 else 1#255) ∧
    hostRead s 4 (8 * n + 1) = (s.nodeAt (BitVec.ofNat 9 n)).freq.setWidth 255 ∧
    hostRead s 4 (8 * n + 2) = (s.nodeAt (BitVec.ofNat 9 n)).sym.setWidth 255 ∧
    hostRead s 4 (8 * n + 3) = (s.nodeAt (BitVec.ofNat 9 n)).left.setWidth 255 ∧
    hostRead s 4 (8 * n + 4) = (s.nodeAt (BitVec.ofNat 9 n)).right.setWidth 255 ∧
    hostRead s 4 (8 * n + 5) = (s.nodeAt (BitVec.ofNat 9 n)).clen.setWidth 255 ∧
    hostRead s 4 (8 * n + 6) = (s.nodeAt (BitVec.ofNat 9 n)).pat) ∧
  (∀ (s : State) (i : Nat),
    (i < s.inCap.toNat → hostRead s 1 i = (s.inAt i).setWidth 255) ∧
    (i < s.outCap.toNat → hostRead s 2 i = (s.outAt i).setWidth 255) ∧
    (i < s.packCap.toNat → hostRead s 3 i = (s.packAt i).setWidth 255) ∧
    (i < 256 → hostRead s 5 i = (s.freqAt (BitVec.ofNat 8 i)).setWidth 255 ∧
      hostRead s 6 i = (s.lutAt (BitVec.ofNat 8 i)).setWidth 255))

/-- R63: a write of an element in range that is RW is read back, changes no other element of any space, and no hidden
register; a write of BLOBCTL changes PRESENT, which STATUS[0] mirrors; a write of CSR 0x01 runs a command. -/
def Obligations.HostWriteChangesOneElement : Prop :=
  (∀ (s : State) (space index v : Nat) (e : Element), Memory.wf s = true → s.element space index = some e →
    e.writable = true → v < 2 ^ e.width →
    ∃ t, hostWrite space index v s = .next t ∧ (hostRead t space index).toNat = v ∧
      t = { s with present := t.present, len := t.len, origLen := t.origLen, bitCnt := t.bitCnt, wordCnt := t.wordCnt
                   root := t.root, outFill := t.outFill, inp := t.inp, out := t.out, pack := t.pack, node := t.node } ∧
      (∀ space' index' e', s.element space' index' = some e' → e' ≠ e → (e = .csr .blobCtl → e' ≠ .csr .status) →
        hostRead t space' index' = hostRead s space' index') ∧
      (e = .csr .blobCtl → t.present = decide (v = 1) ∧ (statusWord t).getLsbD 0 = decide (v = 1) ∧
        ∀ k, 1 ≤ k → (statusWord t).getLsbD k = (statusWord s).getLsbD k)) ∧
  (∀ (s : State) (w : CmdWord), hostWrite 0 1 w.toNat s = commandWrite w s)

/-- R64: a write of a read-only element changes no state; a read of CMD returns 0. -/
def Obligations.ReadOnlyElementsIgnoreWrites : Prop :=
  ∀ (s : State) (space index v : Nat) (e : Element), s.element space index = some e →
    (e ∈ [.csr .id, .csr .status, .csr .result, .csr .rem, .csr .outPos, .csr .pos] ∨ (∃ i, e = .freq i) ∨
      (∃ i, e = .lut i)) →
    v < 2 ^ e.width → hostWrite space index v s = .next s ∧ hostRead s 0 1 = 0#255

/-- R68: which indices are out of range; such a read returns 0 and such a write changes no state. -/
def Obligations.OutOfRangeAccess : Prop :=
  ∀ (s : State) (space index : Nat),
    (s.element space index = none ↔
      7 ≤ space ∨ (space = 0 ∧ 0x0E ≤ index) ∨ (space = 1 ∧ s.inCap.toNat ≤ index) ∨
      (space = 2 ∧ s.outCap.toNat ≤ index) ∨ (space = 3 ∧ s.packCap.toNat ≤ index) ∨
      (space = 4 ∧ (4088 ≤ index ∨ index % 8 = 7)) ∨ (space = 5 ∧ 256 ≤ index) ∨ (space = 6 ∧ 256 ≤ index)) ∧
    (s.element space index = none → hostRead s space index = 0#255 ∧ ∀ v, hostWrite space index v s = .next s)

/-- R34, R240, R245: the fields of the STATUS word, and the number of every cause and of every fatal code. -/
def Obligations.StatusFields : Prop :=
  (Cause.code .none = 0#4 ∧ Cause.code .trailing = 1#4 ∧ Cause.code .noChild = 2#4 ∧ Cause.code .count = 3#4 ∧
    Cause.code .exhaust = 4#4 ∧ Cause.code .overrun = 5#4 ∧ Cause.code .outCap = 6#4 ∧ Cause.code .inCap = 7#4 ∧
    Cause.code .packCap = 8#4 ∧ Cause.code .blobHeld = 9#4 ∧ Cause.code .illCmd = 10#4 ∧ Cause.code .faulted = 11#4 ∧
    Cause.code .fatal = 12#4) ∧
  (FCode.code .none = 0#4 ∧ FCode.code .codeTwice = 1#4 ∧ FCode.code .codeLen0 = 2#4 ∧ FCode.code .noCode = 3#4) ∧
  ∀ s : State, (statusWord s).getLsbD 0 = s.present ∧ (statusWord s).getLsbD 1 = s.ok ∧
    (statusWord s).getLsbD 2 = s.faulted ∧ (statusWord s).extractLsb' 3 5 = 0#5 ∧
    (statusWord s).extractLsb' 8 4 = s.cause.code ∧ (statusWord s).extractLsb' 12 4 = s.fcode.code ∧
    hostRead s 0 2 = (statusWord s).setWidth 255 ∧ ∀ v, v < 2 ^ 16 → hostWrite 0 2 v s = .next s

/-- The model's refusal of a value that does not fit the element addressed, which R60 puts outside the port's contract (log entry
8): it is made exactly then. -/
def Obligations.TooWideValueRefused : Prop :=
  ∀ (s : State) (space index v : Nat) (e : Element), s.element space index = some e → 2 ^ e.width ≤ v →
    hostWrite space index v s = .refused .valueTooWide

/-! ## Acceptance of a command -/

/-- R101, R102: a word that is no command is refused with cause 10, and nothing else changes. -/
def Obligations.IllegalWordRefused : Prop :=
  ∀ (s : State) (w : CmdWord), s.faulted = false →
    (w.extractLsb' 8 24 ≠ 0#24 ∨ (w.extractLsb' 0 8).toNat < 1 ∨ 5 < (w.extractLsb' 0 8).toNat) →
    commandWrite w s = .next { s with ok := false, cause := .illCmd }

/-- R103: no word but the five commands has a meaning, so there are no hints and no custom space; no cause above 12 and no fatal
code above 3; STATUS[7:3] is 0; NODE field 7 is out of range; while FAULTED = 1 every word is refused with cause 11, legal or
not. -/
def Obligations.ReservedValuesAndFaultedRefusal : Prop :=
  (∀ (s : State) (w : CmdWord), s.faulted = false → (∀ i, w ≠ encode i) →
    commandWrite w s = .next { s with ok := false, cause := .illCmd }) ∧
  (∀ c : Cause, c.code.toNat ≤ 12) ∧ (∀ f : FCode, f.code.toNat ≤ 3) ∧
  (∀ s : State, (statusWord s).extractLsb' 3 5 = 0#5) ∧
  (∀ (s : State) (n : Nat), s.element 4 (8 * n + 7) = none) ∧
  (∀ (s : State) (w : CmdWord), s.faulted = true → commandWrite w s = .next { s with ok := false, cause := .faulted })

/-- R249: the order of checks at a CMD write, first match wins. Every refusal leaves the state as it was but for OK and
CAUSE. -/
def Obligations.OrderOfAcceptanceChecks : Prop :=
  ∀ s : State,
    (s.faulted = true → ∀ w, commandWrite w s = .next { s with ok := false, cause := .faulted }) ∧
    (s.faulted = false →
      (∀ w, (∀ i, decodeWord w ≠ .ok i) → commandWrite w s = .next { s with ok := false, cause := .illCmd }) ∧
      (s.present = true → exec .encode s = .next { s with ok := false, cause := .blobHeld }) ∧
      (s.present = false → s.inCap < s.len → exec .encode s = .next { s with ok := false, cause := .inCap }) ∧
      (s.present = false → s.len = 0#32 → exec .encode s = .next { s with ok := true, cause := .none, seq := .idle }) ∧
      (∀ i ∈ [Instr.decode, .decodea], s.present = false → exec i s = .next
        { s with pos := absent, rem := 0#40, outPos := 0#32, ok := true, cause := .none, seq := .idle }) ∧
      (s.present = true →
        (s.outCap < s.origLen → exec .decode s = .next { s with ok := false, cause := .outCap }) ∧
        (s.origLen ≤ s.outCap → s.packCap < s.wordCnt →
          exec .decode s = .next { s with ok := false, cause := .packCap }) ∧
        (s.outCap.toNat < s.outFill.toNat + s.origLen.toNat →
          exec .decodea s = .next { s with ok := false, cause := .outCap }) ∧
        (s.outFill.toNat + s.origLen.toNat ≤ s.outCap.toNat → s.packCap < s.wordCnt →
          exec .decodea s = .next { s with ok := false, cause := .packCap })))

/-! ## OLEN and RELEASE -/

/-- R220: OLEN, the word 4, gives RESULT <- ORIGLEN or 0, OK <- 1, CAUSE <- 0, and changes nothing else; after a successful ENCODE
it gives the length of the input. -/
def Obligations.OlenResult : Prop :=
  decodeWord 0x00000004#32 = .ok .olen ∧
  (∀ s : State, s.faulted = false →
    (s.present = true → exec .olen s = .next { s with result := s.origLen, ok := true, cause := .none }) ∧
    (s.present = false → exec .olen s = .next { s with result := 0#32, ok := true, cause := .none })) ∧
  (∀ s t : State, Encodes s t → exec .olen t = .next { t with result := s.len })

/-- R222: RELEASE, the word 5, clears PRESENT and the four blob registers; with PRESENT = 0 nothing but OK and CAUSE changes. The stores NODE
and PACK keep their contents. -/
def Obligations.ReleaseResult : Prop :=
  decodeWord 0x00000005#32 = .ok .release ∧
  ∀ s : State, s.faulted = false →
    (s.present = true → exec .release s = .next
      { s with present := false, origLen := 0#32, bitCnt := 0#40, wordCnt := 0#34, root := absent, ok := true
               cause := .none }) ∧
    (s.present = false → exec .release s = .next { s with ok := true, cause := .none })

/-- R223: after RELEASE a second RELEASE changes nothing, DECODE and DECODEA see the absent blob and write no OUT byte, OLEN
gives 0. -/
def Obligations.AfterRelease : Prop :=
  ∀ s t : State, s.faulted = false → exec .release s = .next t →
    exec .release t = .next t ∧
    exec .olen t = .next { t with result := 0#32 } ∧
    (∀ i ∈ [Instr.decode, .decodea], ∃ u, exec i t = .next u ∧ u.ok = true ∧ u.out = t.out ∧ u.outPos = 0#32 ∧
      u.outFill = t.outFill)

/-! ## ENCODE: the phases -/

/-- R132: `pop` takes out of a queue that is not empty an index of minimal key, whatever the discipline; the reference discipline
takes the one that is least by (key, index). Nothing but the queue and its history changes. -/
def Obligations.PopTakesMinimal : Prop :=
  ∀ s : State, s.queue ≠ [] →
    ∃ n t, s.pop = some (n, t) ∧ n ∈ s.queue ∧ (∀ m ∈ s.queue, s.key n ≤ s.key m) ∧
      t = { s with queue := s.queue.erase n, qHist := t.qHist } ∧
      (s.tie = .ref → ∀ m ∈ s.queue, s.key n < s.key m ∨ (s.key n = s.key m ∧ n ≤ m)) ∧
      (s.tie = .alt → ∀ m ∈ s.queue, s.key n < s.key m ∨ (s.key n = s.key m ∧ m ≤ n))

/-- R136: MERGE on a queue of at least two indices makes record NNODE the parent of the first index popped (LEFT) and the second
(RIGHT), of no greater frequency than any index left, and pushes it. `a` is what the first pop answers, `b` what the second
answers on the queue the first left; where keys are equal the discipline decides which is which. -/
def Obligations.MergeJoinsTwoLeast : Prop :=
  ∀ s : State, 2 ≤ s.queue.length → s.nNode.toNat < numNodes → Memory.wf s = true →
    ∃ a s1 b s2 t, (s.enter .merge).pop = some (a, s1) ∧ s1.pop = some (b, s2) ∧ merge s = .go t ∧
      a ∈ s.queue ∧ b ∈ s.queue.erase a ∧ s.key a ≤ s.key b ∧
      (∀ m ∈ (s.queue.erase a).erase b, s.key b ≤ s.key m) ∧
      t.nodeAt s.nNode = ⟨.internal, s.key a + s.key b, 0#8, a, b, 0#8, 0#255⟩ ∧
      (∀ n, n ≠ s.nNode → t.nodeAt n = s.nodeAt n) ∧ t.nNode = s.nNode + 1#9 ∧
      t.queue.Perm (s.nNode :: (s.queue.erase a).erase b) ∧
      t = { s with node := t.node, nNode := t.nNode, queue := t.queue, qHist := t.qHist, seq := t.seq }

/-- R121: after FCOUNT, and after ENCODE, FREQ[x] is the number of indices i below LEN with IN[i] = x, whatever FREQ held
before; FCOUNT changes no other store and no register the host can read. -/
def Obligations.FcountCounts : Prop :=
  (∀ s : State, Memory.wf s = true →
    (∀ x, ((fcount s).freqAt x).toNat = ((List.range s.len.toNat).filter (fun i => s.inAt i = x)).length) ∧
    fcount s = { s with freq := (fcount s).freq, inIdx := (fcount s).inIdx, seq := (fcount s).seq }) ∧
  (∀ s t : State, EncodeReady s → exec .encode s = .next t →
    ∀ x, (t.freqAt x).toNat = ((List.range s.len.toNat).filter (fun i => s.inAt i = x)).length)

/-- R122: after ENCODE no entry of FREQ exceeds LEN and the 256 entries sum to LEN exactly: no increment wrapped. -/
def Obligations.FrequenciesSumToLen : Prop :=
  ∀ s t : State, EncodeReady s → exec .encode s = .next t →
    (∀ x, (t.freqAt x).toNat ≤ s.len.toNat) ∧
    ((List.range 256).map (fun i => (t.freqAt (symOf i)).toNat)).sum = s.len.toNat

/-- R138: the numbering after BUILD, with S the number of symbols of non-zero frequency. Leaves are records 0 .. S−1 in ascending
symbol order; for S ≥ 2 NNODE = 2S−1 and ROOT = 2S−2, records S .. 2S−2 are internal; for S = 1 record 1 is the root and
NNODE = 2; every child index is lower than the record's own; records NNODE .. 510 keep their contents. -/
def Obligations.NodeNumbering : Prop :=
  ∀ s t : State, Encodes s t →
    (∀ (k : Nat) (hk : k < t.distinct), (t.nodeAt (BitVec.ofNat 9 k)).kind = .leaf ∧
      (t.nodeAt (BitVec.ofNat 9 k)).sym = (presentSyms t.freqAt)[k]'hk ∧
      (t.nodeAt (BitVec.ofNat 9 k)).freq = t.freqAt ((presentSyms t.freqAt)[k]'hk)) ∧
    (∀ j k (hj : j < t.distinct) (hk : k < t.distinct), j < k →
      (presentSyms t.freqAt)[j]'hj < (presentSyms t.freqAt)[k]'hk) ∧
    (2 ≤ t.distinct → t.nNode.toNat + 1 = 2 * t.distinct ∧ t.root.toNat + 2 = 2 * t.distinct) ∧
    (t.distinct = 1 → t.nNode = 2#9 ∧ t.root = 1#9) ∧
    1 ≤ t.distinct ∧ t.nNode.toNat ≤ 511 ∧
    (∀ n : NodeIdx, t.distinct ≤ n.toNat → n.toNat < t.nNode.toNat → (t.nodeAt n).kind = .internal ∧
      (t.nodeAt n).left.toNat < n.toNat ∧ ((t.nodeAt n).right.toNat < n.toNat ∨ (t.nodeAt n).right = absent)) ∧
    (∀ n : NodeIdx, t.nNode.toNat ≤ n.toNat → t.nodeAt n = s.nodeAt n)

/-- R136, R137, R139 (a), (c): in a tree of two or more symbols every internal record has two children, LEFT of no greater
frequency than RIGHT, and its frequency is exactly their sum; with one symbol the synthetic root has the leaf as LEFT child, no
RIGHT child, and the leaf's frequency; the root's frequency is LEN in both. -/
def Obligations.InternalRecordsAreSums : Prop :=
  ∀ s t : State, Encodes s t →
    (2 ≤ t.distinct → ∀ n : NodeIdx, t.distinct ≤ n.toNat → n.toNat < t.nNode.toNat →
      (t.nodeAt n).left ≠ absent ∧ (t.nodeAt n).right ≠ absent ∧
      t.key (t.nodeAt n).left ≤ t.key (t.nodeAt n).right ∧
      (t.key n).toNat = (t.key (t.nodeAt n).left).toNat + (t.key (t.nodeAt n).right).toNat) ∧
    (t.distinct = 1 → t.nodeAt t.root = ⟨.internal, t.key 0#9, 0#8, 0#9, absent, 0#8, 0#255⟩ ∧
      (t.nodeAt 0#9).kind = .leaf ∧ (t.key 0#9).toNat = s.len.toNat) ∧
    (t.key t.root).toNat = s.len.toNat

/-- R139 (b), R49: every allocated record other than ROOT is named by exactly one LEFT or RIGHT of exactly one allocated internal
record; ROOT is named by none. -/
def Obligations.EveryRecordHasOneParent : Prop :=
  ∀ s t : State, Encodes s t →
    let named (n p : NodeIdx) (b : Bool) : Prop :=
      p.toNat < t.nNode.toNat ∧ (t.nodeAt p).kind = .internal ∧ t.child p b = n
    (∀ n : NodeIdx, n.toNat < t.nNode.toNat → n ≠ t.root →
      ∃ p b, named n p b ∧ ∀ p' b', named n p' b' → p' = p ∧ b' = b) ∧
    (∀ p b, ¬ named t.root p b)

/-- R166: after ENCODE the entry of LUT of a symbol of non-zero frequency is its leaf record, and every other entry is ABSENT. -/
def Obligations.LookupTable : Prop :=
  ∀ s t : State, Encodes s t →
    (∀ n : NodeIdx, n.toNat < t.distinct → t.lutAt (t.nodeAt n).sym = n) ∧
    (∀ x, t.lutAt x ≠ absent ↔ t.freqAt x ≠ 0#32)

/-- R156: after ENCODE the code of every leaf is its path from ROOT, first edge in bit CLEN−1, left = 0, right = 1, with at least
one edge, at most 255 and no bit set above; a sole leaf has the one-bit code 0; internal records carry no code; of two
different leaves neither has a code that is a prefix of the other's. -/
def Obligations.CodesArePaths : Prop :=
  ∀ s t : State, Encodes s t →
    (∀ n : NodeIdx, n.toNat < t.distinct → 1 ≤ (t.nodeAt n).clen.toNat ∧
      t.walk t.root (codeBits (t.nodeAt n)) = n ∧
      ∀ k, (t.nodeAt n).clen.toNat ≤ k → (t.nodeAt n).pat.getLsbD k = false) ∧
    (t.distinct = 1 → (t.nodeAt 0#9).clen = 1#8 ∧ (t.nodeAt 0#9).pat = 0#255) ∧
    (∀ n : NodeIdx, t.distinct ≤ n.toNat → n.toNat < t.nNode.toNat →
      (t.nodeAt n).clen = 0#8 ∧ (t.nodeAt n).pat = 0#255 ∧ (t.nodeAt n).sym = 0#8) ∧
    (∀ m n : NodeIdx, m.toNat < t.distinct → n.toNat < t.distinct → m ≠ n →
      ¬ codeBits (t.nodeAt m) <+: codeBits (t.nodeAt n)) ∧
    t.faulted = false

/-- R139 (e), R157: the length of a code is at most max(1, S − 1), so at most 255. -/
def Obligations.CodeLengthBound : Prop :=
  ∀ s t : State, Encodes s t → ∀ x, t.freqAt x ≠ 0#32 →
    (t.codeOf x).clen.toNat ≤ max 1 (t.distinct - 1) ∧ (t.codeOf x).clen.toNat ≤ 255

/-- R233: for symbols x ≠ y both present, with codes of lengths Lx ≤ Ly, PAT(y) >> (Ly − Lx) ≠ PAT(x); in particular two
present symbols never have the same code. -/
def Obligations.CodesArePrefixFree : Prop :=
  ∀ s t : State, Encodes s t → ∀ x y : Sym, x ∈ s.input → y ∈ s.input → x ≠ y →
    (t.codeOf x).clen ≤ (t.codeOf y).clen →
    (t.codeOf y).pat >>> ((t.codeOf y).clen.toNat - (t.codeOf x).clen.toNat) ≠ (t.codeOf x).pat

/-- R236 as a general law, which the spec marks as its own inference: a symbol of strictly higher frequency has a code no longer
than one of lower frequency, for every queue discipline. -/
def Obligations.HigherFrequencyNoLongerCode : Prop :=
  ∀ s t : State, Encodes s t → ∀ x y : Sym, t.freqAt y ≠ 0#32 → t.freqAt y < t.freqAt x →
    (t.codeOf x).clen ≤ (t.codeOf y).clen

/-- R99: the encoded stream is the concatenation of the codes of the input bytes in order, first bit first; stream bit k is bit
63 − (k mod 64) of PACK[k div 64]; its length is BITCNT, and the last word is padded with zeros. -/
def Obligations.StreamIsTheCodesInOrder : Prop :=
  ∀ s t : State, Encodes s t →
    t.streamBits t.bitCnt.toNat = streamOf t s.input ∧ (streamOf t s.input).length = t.bitCnt.toNat ∧
    (∀ k, t.bitCnt.toNat ≤ k → k < 64 * t.wordCnt.toNat → t.streamBit k = false)

/-- R171, R234: BITCNT is the sum over the input of the code lengths, equally the sum over the symbols of FREQ × CLEN, at least
LEN; WORDCNT is BITCNT / 64 rounded up. -/
def Obligations.BitAccounting : Prop :=
  ∀ s t : State, Encodes s t →
    t.bitCnt.toNat = bitsOf t s.input ∧
    t.bitCnt.toNat =
      ((List.range 256).map (fun i => (t.freqAt (symOf i)).toNat * (t.codeOf (symOf i)).clen.toNat)).sum ∧
    s.len.toNat ≤ t.bitCnt.toNat ∧ 1 ≤ s.len.toNat ∧ t.wordCnt.toNat = (t.bitCnt.toNat + 63) / 64 ∧
    (∀ k, t.bitCnt.toNat ≤ k → k < 64 * t.wordCnt.toNat → t.streamBit k = false)

/-! ## ENCODE: the command -/

/-- R211, R172, R174, R229: ENCODE of an input of length 1 to IN_CAP always ends: in a held blob exactly when the packed stream fits
PACK, else with cause 8 and the blob registers cleared. The number of bits is read from the codes it made. -/
def Obligations.EncodeSucceedsExactlyWhenItFits : Prop :=
  ∀ s : State, EncodeReady s → ∃ t, exec .encode s = .next t ∧
    (bitsOf t s.input ≤ 64 * s.packCap.toNat →
      t.present = true ∧ t.ok = true ∧ t.cause = .none ∧ t.origLen = s.len ∧ t.bitCnt.toNat = bitsOf t s.input ∧
      t.wordCnt.toNat = (bitsOf t s.input + 63) / 64) ∧
    (64 * s.packCap.toNat < bitsOf t s.input →
      t.present = false ∧ t.ok = false ∧ t.cause = .packCap ∧ t.origLen = 0#32 ∧ t.bitCnt = 0#40 ∧ t.wordCnt = 0#34 ∧
      t.root = absent)

/-- R174 (b), R229: where 64 × PACK_CAP ≥ 255 × LEN, ENCODE of an input of length 1 to IN_CAP succeeds: a completion under
conditions on the state alone. -/
def Obligations.EncodeSucceedsInAmplePack : Prop :=
  ∀ s : State, EncodeReady s → 255 * s.len.toNat ≤ 64 * s.packCap.toNat →
    ∃ t, exec .encode s = .next t ∧ t.present = true ∧ t.ok = true ∧ t.cause = .none ∧ t.origLen = s.len

/-- R212 (c), (e), R48, R172: what ENCODE leaves unchanged. Never IN, OUT, LEN, OUTFILL, RESULT, POS, REM, OUTPOS, FAULTED or
FCODE; nothing but OK, CAUSE and SEQ where it does not reach its phases; where it does, the NODE records from NNODE on, and on
success the PACK words from WORDCNT on. -/
def Obligations.EncodeFrame : Prop :=
  ∀ s t : State, Memory.wf s = true → exec .encode s = .next t →
    t = { s with present := t.present, ok := t.ok, cause := t.cause, origLen := t.origLen, bitCnt := t.bitCnt
                 wordCnt := t.wordCnt, root := t.root, acc := t.acc, accCnt := t.accCnt, patReg := t.patReg
                 depth := t.depth, wIdx := t.wIdx, inIdx := t.inIdx, nNode := t.nNode, seq := t.seq, queue := t.queue
                 qHist := t.qHist, stack := t.stack, pack := t.pack, node := t.node, freq := t.freq, lut := t.lut } ∧
    (¬ EncodeReady s → t = { s with ok := t.ok, cause := t.cause, seq := t.seq }) ∧
    (EncodeReady s → (∀ n : NodeIdx, t.nNode.toNat ≤ n.toNat → t.nodeAt n = s.nodeAt n) ∧
      (t.present = true → ∀ i, t.wordCnt.toNat ≤ i → t.packAt i = s.packAt i))

/-- R232: an input of one byte value repeated k ≥ 1 times: two records, the one-bit code 0, BITCNT = k, WORDCNT = k / 64 rounded
up, all stream bits 0, and the round trip; and after every successful ENCODE every leaf has CLEN ≥ 1. -/
def Obligations.SingleSymbolInput : Prop :=
  (∀ (s : State) (x : Sym), EncodeReady s → (∀ i, i < s.len.toNat → s.inAt i = x) →
    (s.len.toNat + 63) / 64 ≤ s.packCap.toNat →
    ∃ t, exec .encode s = .next t ∧ t.ok = true ∧ t.present = true ∧ t.nNode = 2#9 ∧ (t.codeOf x).clen = 1#8 ∧
      (t.codeOf x).pat = 0#255 ∧ t.bitCnt.toNat = s.len.toNat ∧ t.wordCnt.toNat = (s.len.toNat + 63) / 64 ∧
      (∀ k, k < 64 * t.wordCnt.toNat → t.streamBit k = false) ∧
      (s.len ≤ s.outCap → ∃ u, exec .decode t = .next u ∧ u.ok = true ∧ ∀ i, i < s.len.toNat → u.outAt i = x)) ∧
  (∀ s t : State, Encodes s t → ∀ n : NodeIdx, n.toNat < t.distinct → 1 ≤ (t.nodeAt n).clen.toNat)

/-- R235: a second RELEASE leaves the state of the first; and two successful ENCODEs of the same input under the same queue
discipline leave the same blob, records, words, counts and table, whatever the two machines held before. -/
def Obligations.NoLeaksBetweenBlobs : Prop :=
  (∀ s t : State, s.faulted = false → exec .release s = .next t → exec .release t = .next t) ∧
  (∀ s s' t t' : State, Encodes s t → Encodes s' t' → s.tie = s'.tie → s.input = s'.input →
    t.origLen = t'.origLen ∧ t.bitCnt = t'.bitCnt ∧ t.wordCnt = t'.wordCnt ∧ t.root = t'.root ∧ t.nNode = t'.nNode ∧
    (∀ n : NodeIdx, n.toNat < t.nNode.toNat → t.nodeAt n = t'.nodeAt n) ∧
    (∀ i, i < t.wordCnt.toNat → t.packAt i = t'.packAt i) ∧ t.freqAt = t'.freqAt ∧ t.lutAt = t'.lutAt)

/-! ## DECODE and DECODEA -/

/-- R213, R189: everything DECODE, the word 2, does when it is accepted. Absent blob: POS, REM, OUTPOS take their absent values and OUT is
untouched. Destination or buffer too large: refused. Otherwise it ends as the checks of R189 over the `64 × WORDCNT` bits of the
buffer say: CAUSE, REM, POS, the symbols emitted at OUT[0 ..], and nothing else changes but hidden registers. -/
def Obligations.DecodeDoesWhatTheBitsSay : Prop :=
  decodeWord 0x00000002#32 = .ok .decode ∧
  ∀ s : State, s.faulted = false → Memory.wf s = true →
    (s.present = false → exec .decode s = .next
      { s with pos := absent, rem := 0#40, outPos := 0#32, ok := true, cause := .none, seq := .idle }) ∧
    (s.present = true → s.outCap < s.origLen → exec .decode s = .next { s with ok := false, cause := .outCap }) ∧
    (s.present = true → s.origLen ≤ s.outCap → s.packCap < s.wordCnt →
      exec .decode s = .next { s with ok := false, cause := .packCap }) ∧
    (DecodeReady 0 s → ∃ t, exec .decode s = .next t ∧
      t = { s with ok := decide (s.decoded.cause = .none), cause := s.decoded.cause
                   rem := BitVec.ofNat 40 s.decoded.rem, outPos := BitVec.ofNat 32 s.decoded.out.length
                   pos := s.decoded.pos, seq := .idle, out := t.out, shReg := t.shReg, bitIdx := t.bitIdx
                   wIdx := t.wIdx } ∧
      ∀ j, t.outAt j = if j < s.decoded.out.length then s.decoded.out.getD j 0#8 else s.outAt j)

/-- R215: DECODEA, the word 3, does as DECODE with OUT from index OUTFILL, the capacity sum taken without wrap, and on success OUTFILL advances
by ORIGLEN; for the absent blob and on failure OUTFILL is unchanged. -/
def Obligations.DecodeaAppends : Prop :=
  decodeWord 0x00000003#32 = .ok .decodea ∧
  ∀ s : State, s.faulted = false → Memory.wf s = true →
    (s.present = false → exec .decodea s = .next
      { s with pos := absent, rem := 0#40, outPos := 0#32, ok := true, cause := .none, seq := .idle }) ∧
    (s.present = true → s.outCap.toNat < s.outFill.toNat + s.origLen.toNat →
      exec .decodea s = .next { s with ok := false, cause := .outCap }) ∧
    (s.present = true → s.outFill.toNat + s.origLen.toNat ≤ s.outCap.toNat → s.packCap < s.wordCnt →
      exec .decodea s = .next { s with ok := false, cause := .packCap }) ∧
    (DecodeReady s.outFill.toNat s → ∃ t, exec .decodea s = .next t ∧
      t = { s with ok := decide (s.decoded.cause = .none), cause := s.decoded.cause
                   rem := BitVec.ofNat 40 s.decoded.rem, outPos := BitVec.ofNat 32 s.decoded.out.length
                   pos := s.decoded.pos, seq := .idle, out := t.out, shReg := t.shReg, bitIdx := t.bitIdx
                   wIdx := t.wIdx, outFill := t.outFill } ∧
      t.outFill.toNat = s.outFill.toNat + (if s.decoded.cause = .none then s.origLen.toNat else 0) ∧
      ∀ j, t.outAt j = if s.outFill.toNat ≤ j ∧ j < s.outFill.toNat + s.decoded.out.length
        then s.decoded.out.getD (j - s.outFill.toNat) 0#8 else s.outAt j)

/-- R197: where a decode stopped. The last row of the rule's table is stated without its OUTPOS = 0, which a foreign tree with a
link back to ROOT does not meet. -/
def Obligations.RegistersWhenDecodeEnds : Prop :=
  ∀ s t : State, (DecodeReady 0 s ∧ exec .decode s = .next t ∨
      DecodeReady s.outFill.toNat s ∧ exec .decodea s = .next t) →
    t.cause ∈ [Cause.none, .trailing, .noChild, .count, .exhaust, .overrun] ∧ t.rem ≤ s.bitCnt ∧
    (t.cause = .none → t.rem = 0#40 ∧ t.pos = s.root ∧ t.outPos = s.origLen) ∧
    (t.cause = .count → t.rem = 0#40 ∧ t.pos = s.root ∧ t.outPos < s.origLen) ∧
    (t.cause = .trailing → t.rem = 0#40 ∧ ((s.bitCnt = 0#40 ∧ t.pos = s.root) ∨
      (s.bitCnt ≠ 0#40 ∧ t.pos ≠ absent ∧ (s.nodeAt t.pos).kind = .internal))) ∧
    (t.cause = .noChild → t.rem < s.bitCnt ∧ t.pos = absent) ∧
    (t.cause = .overrun → t.rem < s.bitCnt ∧ t.pos ≠ absent ∧ (s.nodeAt t.pos).kind = .leaf ∧ t.outPos = s.origLen) ∧
    (t.cause = .exhaust → t.rem.toNat + 64 * s.wordCnt.toNat = s.bitCnt.toNat ∧ (t.rem ≠ 0#40 ∨ t.pos ≠ s.root))

/-- R198 for any blob, one made by ENCODE or not: where the stream is the concatenation of paths from ROOT to leaves, BITCNT its length,
ORIGLEN the number of paths, DECODE succeeds and OUT holds the leaves' symbols in order. -/
def Obligations.DecodeOfPathsSucceeds : Prop :=
  ∀ (s : State) (ps : List (NodeIdx × List Bool)), DecodeReady 0 s → ps ≠ [] → (∀ p ∈ ps, GoodPath s p) →
    ps.length = s.origLen.toNat → s.bitCnt.toNat ≤ 64 * s.wordCnt.toNat →
    s.streamBits s.bitCnt.toNat = ps.flatMap Prod.snd →
    ∃ t, exec .decode s = .next t ∧ t.ok = true ∧ t.cause = .none ∧ t.outPos = s.origLen ∧ t.rem = 0#40 ∧
      t.pos = s.root ∧ (∀ (i : Nat) (h : i < ps.length), t.outAt i = (s.nodeAt (ps[i]'h).1).sym) ∧
      ∀ j, ps.length ≤ j → t.outAt j = s.outAt j

/-- R200 (a), (c), (e): corner cases of a blob the host wrote. BITCNT = 0 with a word in the buffer fails with cause 1 and writes
nothing; ROOT absent or a leaf fails at the first bit with cause 2; a buffer shorter than BITCNT fails with cause 4 unless cause
2 or 5 came first. -/
def Obligations.DecodeCornerCases : Prop :=
  ∀ s : State, DecodeReady 0 s → s.wordCnt ≠ 0#34 → ∃ t, exec .decode s = .next t ∧
    (s.bitCnt = 0#40 → t.ok = false ∧ t.cause = .trailing ∧ t.outPos = 0#32 ∧ t.out = s.out) ∧
    (s.bitCnt ≠ 0#40 → (s.root = absent ∨ (s.nodeAt s.root).kind = .leaf) →
      t.ok = false ∧ t.cause = .noChild ∧ t.outPos = 0#32 ∧ t.out = s.out) ∧
    (64 * s.wordCnt.toNat < s.bitCnt.toNat → t.ok = false ∧ t.cause ∈ [Cause.exhaust, .noChild, .overrun])

/-- R238: whatever PACK, NODE and the blob registers hold, DECODE writes no OUT index outside 0 .. ORIGLEN−1 and DECODEA none
outside OUTFILL .. OUTFILL + ORIGLEN − 1, neither writes another store or raises a fatal, both end; and a bit of the buffer at or
above BITCNT changes nothing of the result. -/
def Obligations.CorruptionNeverOverruns : Prop :=
  ∀ s : State, s.faulted = false → Memory.wf s = true → ∀ i ∈ [Instr.decode, .decodea],
    ∃ t, exec i s = .next t ∧
      (∀ j, (if i = .decodea then s.outFill.toNat else 0) + s.origLen.toNat ≤ j → t.outAt j = s.outAt j) ∧
      (∀ j, i = .decodea → j < s.outFill.toNat → t.outAt j = s.outAt j) ∧
      t.inp = s.inp ∧ t.pack = s.pack ∧ t.node = s.node ∧ t.freq = s.freq ∧ t.lut = s.lut ∧
      t.faulted = false ∧ t.fcode = s.fcode ∧ t.cause ≠ .fatal ∧
      ∀ s' : State, Memory.wf s' = true → s' = { s with pack := s'.pack } →
        (∀ k, k < s.bitCnt.toNat → s'.streamBit k = s.streamBit k) →
        ∃ t', exec i s' = .next t' ∧ t' = { t with pack := s'.pack, shReg := t'.shReg }

/-- R214 (c): DECODE may be repeated with the same result: a second DECODE leaves the state of the first, but for hidden
registers. -/
def Obligations.DecodeMayBeRepeated : Prop :=
  ∀ s t : State, DecodeReady 0 s → exec .decode s = .next t →
    ∃ u, exec .decode t = .next u ∧ u = { t with shReg := u.shReg, bitIdx := u.bitIdx, wIdx := u.wIdx }

/-- R216 (a), (e): with OUTFILL = 0 DECODEA writes what DECODE writes, and on success sets OUTFILL to ORIGLEN; DECODE never
changes OUTFILL. -/
def Obligations.DecodeaFromZeroIsDecode : Prop :=
  ∀ s t : State, s.faulted = false → exec .decode s = .next t →
    t.outFill = s.outFill ∧
    (s.outFill = 0#32 → exec .decodea s = .next
      { t with outFill := if s.present = true ∧ t.ok = true then s.origLen else 0#32 })

/-- R214 (e), R239, R277: DECODE, DECODEA, OLEN and RELEASE read neither IN, FREQ, LUT, LEN nor the queue discipline. -/
def Obligations.OtherCommandsIgnoreTheInput : Prop :=
  ∀ i ∈ [Instr.decode, .decodea, .olen, .release], ∀ (s t : State) (inp : List Host.Cell) (freq : List (Nat × Count))
    (lut : List (Nat × NodeIdx)) (len : Count) (tie : Tie), exec i s = .next t →
    exec i { s with inp := inp, freq := freq, lut := lut, len := len, tie := tie } =
      .next { t with inp := inp, freq := freq, lut := lut, len := len, tie := tie }

/-! ## The round trip -/

/-- R230: after ENCODE of any non-empty input that fits, DECODE ends with OK = 1 and OUT[0 .. LEN−1] is the input, DECODEA ends with
OK = 1 and the input stands at OUT[OUTFILL ..], and OLEN gives LEN. -/
def Obligations.RoundTrip : Prop :=
  ∀ s : State, EncodeReady s → ∃ t, exec .encode s = .next t ∧
    (bitsOf t s.input ≤ 64 * s.packCap.toNat → t.ok = true ∧
      (s.len ≤ s.outCap → ∃ u, exec .decode t = .next u ∧ u.ok = true ∧
        ∀ i, i < s.len.toNat → u.outAt i = s.inAt i) ∧
      (s.outFill.toNat + s.len.toNat ≤ s.outCap.toNat → ∃ u, exec .decodea t = .next u ∧ u.ok = true ∧
        u.outFill.toNat = s.outFill.toNat + s.len.toNat ∧
        ∀ i, i < s.len.toNat → u.outAt (s.outFill.toNat + i) = s.inAt i) ∧
      (∃ u, exec .olen t = .next u ∧ u.ok = true ∧ u.result = s.len))

/-- R231: with LEN = 0 and PRESENT = 0, ENCODE ends with OK = 1 and no blob; DECODE then ends with OK = 1, OUTPOS = 0 and no OUT byte
written; OLEN gives 0; RELEASE changes nothing. -/
def Obligations.EmptyInputIsTheAbsentBlob : Prop :=
  ∀ s : State, s.faulted = false → s.present = false → s.len = 0#32 →
    ∃ t, exec .encode s = .next t ∧ t.ok = true ∧ t.present = false ∧
      (∃ u, exec .decode t = .next u ∧ u.ok = true ∧ u.outPos = 0#32 ∧ u.out = s.out) ∧
      (∃ u, exec .olen t = .next u ∧ u.result = 0#32) ∧ exec .release t = .next t

/-! ## The whole machine -/

/-- R276: every command is defined in every state, whatever its registers and stores hold: it answers a next state (no fault, no
refusal), with the stores again in canonical form. -/
def Obligations.EveryCommandAnswers : Prop :=
  ∀ (i : Instr) (s : State), Memory.wf s = true → ∃ t, exec i s = .next t ∧ Memory.wf t = true

/-- R95: of the five commands only ENCODE, started with PRESENT = 0, and RELEASE, started with PRESENT = 1, write the blob. -/
def Obligations.OnlyEncodeAndReleaseWriteTheBlob : Prop :=
  ∀ (i : Instr) (s t : State), exec i s = .next t →
    (i ≠ .encode ∨ s.present = true) → (i ≠ .release ∨ s.present = false) →
    t.present = s.present ∧ t.origLen = s.origLen ∧ t.bitCnt = s.bitCnt ∧ t.wordCnt = s.wordCnt ∧ t.root = s.root ∧
      t.pack = s.pack ∧ t.node = s.node

/-- R227: the blob's lifecycle. From ABSENT a successful ENCODE with LEN ≥ 1 or a host write of 1 to BLOBCTL leads to HELD, and
nothing else does; from HELD a RELEASE, a host write of 0 to BLOBCTL or reset leads to ABSENT, and nothing else does. -/
def Obligations.BlobLifecycle : Prop :=
  ∀ s t : State, Inv s → step s = .next t →
    (s.present = false → (t.present = true ↔
      (∃ rest, s.script = .write 0 1 1 :: rest ∧ t.ok = true ∧ s.len ≠ 0#32) ∨
      (∃ rest, s.script = .write 0 8 1 :: rest))) ∧
    (s.present = true → (t.present = false ↔
      (∃ rest, s.script = .write 0 1 5 :: rest) ∨ (∃ rest, s.script = .write 0 8 0 :: rest) ∨
      (∃ rest, s.script = .reset :: rest)))

/-- R255: in any state with FAULTED = 1, every action of the host but RESET leaves FAULTED and FCODE as they are, and RESET clears
both. -/
def Obligations.OnlyResetLeavesFaulted : Prop :=
  ∀ (s t : State) (a : HostAction) (rest : List HostAction), s.faulted = true → s.script = a :: rest →
    step s = .next t →
    (a ≠ .reset → t.faulted = true ∧ t.fcode = s.fcode) ∧ (a = .reset → t.faulted = false ∧ t.fcode = .none)

/-- The open parameters are constant along every run: no step changes a capacity or the queue discipline. -/
def Obligations.ParametersAreConstant : Prop :=
  ∀ s t : State, step s = .next t →
    t.inCap = s.inCap ∧ t.outCap = s.outCap ∧ t.packCap = s.packCap ∧ t.tie = s.tie

/-- The invariant holds after reset, whatever the stores and hidden registers hold. -/
def Obligations.ResetMeetsInvariant : Prop := AtReset State.reset ∧ ∀ s : State, AtReset s → Inv s

/-- Every step keeps the invariant: stores in canonical form, SEQ idle, FAULTED and FCODE zero, causes 11 and 12 never seen,
OK = 1 only with CAUSE = 0. -/
def Obligations.StepKeepsInvariant : Prop :=
  ∀ s t : State, Inv s → step s = .next t → Inv t

/-- R246: from reset, with any contents of the stores, any queue discipline and any capacities, no sequence of host accesses and
commands raises a fatal: FAULTED = 0 always, and neither E_FAULTED nor E_FATAL is ever seen. -/
def Obligations.NoFatalIsReachable : Prop :=
  ∀ s t : State, AtReset s → Reaches s t →
    t.faulted = false ∧ t.fcode = .none ∧ t.cause ≠ .faulted ∧ t.cause ≠ .fatal

/-- R245, R153, R169, R210: raising a fatal, on any state. A command that ends in `fatal f` ends with FAULTED = 1, FCODE = f, OK = 0,
CAUSE = 12 and the blob slot cleared, all else as the writes before it left it; ENCODE does not turn a fatal into anything else.
AssignLeaf checks the depth first, then whether the leaf has a code, and only then writes PAT and CLEN of that record; PACKSYM
raises F_NOCODE for an absent table entry. From then on every word is refused, while host reads and writes work. -/
def Obligations.RaisingAFatal : Prop :=
  (∀ (f : FCode) (s : State), encodeFinish (.stop (.fatal f) s) = .stop (.fatal f) s ∧
    conclude (.stop (.fatal f) s) = .next
      { s with faulted := true, fcode := f, ok := false, cause := .fatal, present := false, origLen := 0#32
               bitCnt := 0#40, wordCnt := 0#34, root := absent, seq := .idle }) ∧
  (∀ (n : NodeIdx) (pat : Pattern) (d : CodeLen) (s : State),
    (d = 0#8 → assignLeaf n pat d s = .stop (.fatal .codeLen0) s) ∧
    (d ≠ 0#8 → (s.nodeAt n).clen ≠ 0#8 → assignLeaf n pat d s = .stop (.fatal .codeTwice) s) ∧
    (d ≠ 0#8 → (s.nodeAt n).clen = 0#8 → Memory.wf s = true → ∃ t, assignLeaf n pat d s = .go t ∧
      t.nodeAt n = { s.nodeAt n with pat := pat, clen := d } ∧ (∀ m, m ≠ n → t.nodeAt m = s.nodeAt m) ∧
      t = { s with node := t.node })) ∧
  (∀ (x : Sym) (s : State), s.lutAt x = absent → packSym x s = .stop (.fatal .noCode) { s with seq := .packSym }) ∧
  (∀ (s : State) (w : CmdWord), s.faulted = true → commandWrite w s = .next { s with ok := false, cause := .faulted }) ∧
  (∀ (s : State) (space index v : Nat) (b : Bool), (space ≠ 0 ∨ index ≠ 1) →
    hostRead { s with faulted := b } space index = (if space = 0 ∧ index = 2
      then (statusWord { s with faulted := b }).setWidth 255 else hostRead s space index) ∧
    ∀ t, hostWrite space index v s = .next t →
      hostWrite space index v { s with faulted := b } = .next { t with faulted := b })
end

