-- ==== Sys2Proof/Laws/State.lean ====
section
/-! SUPPORT. One lemma per field per update of the state, each true by definition, so that no later proof unfolds a
record update. -/

namespace Sys2Proof.Machine

/-! ### `succeed` -/

@[simp] theorem succeed_present (s : State) : (succeed s).present = s.present := rfl
@[simp] theorem succeed_ok (s : State) : (succeed s).ok = true := rfl
@[simp] theorem succeed_faulted (s : State) : (succeed s).faulted = s.faulted := rfl
@[simp] theorem succeed_cause (s : State) : (succeed s).cause = .none := rfl
@[simp] theorem succeed_fcode (s : State) : (succeed s).fcode = s.fcode := rfl
@[simp] theorem succeed_len (s : State) : (succeed s).len = s.len := rfl
@[simp] theorem succeed_origLen (s : State) : (succeed s).origLen = s.origLen := rfl
@[simp] theorem succeed_bitCnt (s : State) : (succeed s).bitCnt = s.bitCnt := rfl
@[simp] theorem succeed_wordCnt (s : State) : (succeed s).wordCnt = s.wordCnt := rfl
@[simp] theorem succeed_root (s : State) : (succeed s).root = s.root := rfl
@[simp] theorem succeed_outFill (s : State) : (succeed s).outFill = s.outFill := rfl
@[simp] theorem succeed_result (s : State) : (succeed s).result = s.result := rfl
@[simp] theorem succeed_rem (s : State) : (succeed s).rem = s.rem := rfl
@[simp] theorem succeed_outPos (s : State) : (succeed s).outPos = s.outPos := rfl
@[simp] theorem succeed_pos (s : State) : (succeed s).pos = s.pos := rfl
@[simp] theorem succeed_acc (s : State) : (succeed s).acc = s.acc := rfl
@[simp] theorem succeed_accCnt (s : State) : (succeed s).accCnt = s.accCnt := rfl
@[simp] theorem succeed_patReg (s : State) : (succeed s).patReg = s.patReg := rfl
@[simp] theorem succeed_depth (s : State) : (succeed s).depth = s.depth := rfl
@[simp] theorem succeed_shReg (s : State) : (succeed s).shReg = s.shReg := rfl
@[simp] theorem succeed_bitIdx (s : State) : (succeed s).bitIdx = s.bitIdx := rfl
@[simp] theorem succeed_wIdx (s : State) : (succeed s).wIdx = s.wIdx := rfl
@[simp] theorem succeed_inIdx (s : State) : (succeed s).inIdx = s.inIdx := rfl
@[simp] theorem succeed_nNode (s : State) : (succeed s).nNode = s.nNode := rfl
@[simp] theorem succeed_seq (s : State) : (succeed s).seq = s.seq := rfl
@[simp] theorem succeed_queue (s : State) : (succeed s).queue = s.queue := rfl
@[simp] theorem succeed_qHist (s : State) : (succeed s).qHist = s.qHist := rfl
@[simp] theorem succeed_stack (s : State) : (succeed s).stack = s.stack := rfl
@[simp] theorem succeed_inp (s : State) : (succeed s).inp = s.inp := rfl
@[simp] theorem succeed_out (s : State) : (succeed s).out = s.out := rfl
@[simp] theorem succeed_pack (s : State) : (succeed s).pack = s.pack := rfl
@[simp] theorem succeed_node (s : State) : (succeed s).node = s.node := rfl
@[simp] theorem succeed_freq (s : State) : (succeed s).freq = s.freq := rfl
@[simp] theorem succeed_lut (s : State) : (succeed s).lut = s.lut := rfl
@[simp] theorem succeed_inCap (s : State) : (succeed s).inCap = s.inCap := rfl
@[simp] theorem succeed_outCap (s : State) : (succeed s).outCap = s.outCap := rfl
@[simp] theorem succeed_packCap (s : State) : (succeed s).packCap = s.packCap := rfl
@[simp] theorem succeed_tie (s : State) : (succeed s).tie = s.tie := rfl
@[simp] theorem succeed_script (s : State) : (succeed s).script = s.script := rfl
@[simp] theorem succeed_readVal (s : State) : (succeed s).readVal = s.readVal := rfl
@[simp] theorem succeed_resets (s : State) : (succeed s).resets = s.resets := rfl

/-! ### `report` -/

@[simp] theorem report_present (c : Cause) (s : State) : (report c s).present = s.present := rfl
@[simp] theorem report_ok (c : Cause) (s : State) : (report c s).ok = false := rfl
@[simp] theorem report_faulted (c : Cause) (s : State) : (report c s).faulted = s.faulted := rfl
@[simp] theorem report_cause (c : Cause) (s : State) : (report c s).cause = c := rfl
@[simp] theorem report_fcode (c : Cause) (s : State) : (report c s).fcode = s.fcode := rfl
@[simp] theorem report_len (c : Cause) (s : State) : (report c s).len = s.len := rfl
@[simp] theorem report_origLen (c : Cause) (s : State) : (report c s).origLen = s.origLen := rfl
@[simp] theorem report_bitCnt (c : Cause) (s : State) : (report c s).bitCnt = s.bitCnt := rfl
@[simp] theorem report_wordCnt (c : Cause) (s : State) : (report c s).wordCnt = s.wordCnt := rfl
@[simp] theorem report_root (c : Cause) (s : State) : (report c s).root = s.root := rfl
@[simp] theorem report_outFill (c : Cause) (s : State) : (report c s).outFill = s.outFill := rfl
@[simp] theorem report_result (c : Cause) (s : State) : (report c s).result = s.result := rfl
@[simp] theorem report_rem (c : Cause) (s : State) : (report c s).rem = s.rem := rfl
@[simp] theorem report_outPos (c : Cause) (s : State) : (report c s).outPos = s.outPos := rfl
@[simp] theorem report_pos (c : Cause) (s : State) : (report c s).pos = s.pos := rfl
@[simp] theorem report_acc (c : Cause) (s : State) : (report c s).acc = s.acc := rfl
@[simp] theorem report_accCnt (c : Cause) (s : State) : (report c s).accCnt = s.accCnt := rfl
@[simp] theorem report_patReg (c : Cause) (s : State) : (report c s).patReg = s.patReg := rfl
@[simp] theorem report_depth (c : Cause) (s : State) : (report c s).depth = s.depth := rfl
@[simp] theorem report_shReg (c : Cause) (s : State) : (report c s).shReg = s.shReg := rfl
@[simp] theorem report_bitIdx (c : Cause) (s : State) : (report c s).bitIdx = s.bitIdx := rfl
@[simp] theorem report_wIdx (c : Cause) (s : State) : (report c s).wIdx = s.wIdx := rfl
@[simp] theorem report_inIdx (c : Cause) (s : State) : (report c s).inIdx = s.inIdx := rfl
@[simp] theorem report_nNode (c : Cause) (s : State) : (report c s).nNode = s.nNode := rfl
@[simp] theorem report_seq (c : Cause) (s : State) : (report c s).seq = s.seq := rfl
@[simp] theorem report_queue (c : Cause) (s : State) : (report c s).queue = s.queue := rfl
@[simp] theorem report_qHist (c : Cause) (s : State) : (report c s).qHist = s.qHist := rfl
@[simp] theorem report_stack (c : Cause) (s : State) : (report c s).stack = s.stack := rfl
@[simp] theorem report_inp (c : Cause) (s : State) : (report c s).inp = s.inp := rfl
@[simp] theorem report_out (c : Cause) (s : State) : (report c s).out = s.out := rfl
@[simp] theorem report_pack (c : Cause) (s : State) : (report c s).pack = s.pack := rfl
@[simp] theorem report_node (c : Cause) (s : State) : (report c s).node = s.node := rfl
@[simp] theorem report_freq (c : Cause) (s : State) : (report c s).freq = s.freq := rfl
@[simp] theorem report_lut (c : Cause) (s : State) : (report c s).lut = s.lut := rfl
@[simp] theorem report_inCap (c : Cause) (s : State) : (report c s).inCap = s.inCap := rfl
@[simp] theorem report_outCap (c : Cause) (s : State) : (report c s).outCap = s.outCap := rfl
@[simp] theorem report_packCap (c : Cause) (s : State) : (report c s).packCap = s.packCap := rfl
@[simp] theorem report_tie (c : Cause) (s : State) : (report c s).tie = s.tie := rfl
@[simp] theorem report_script (c : Cause) (s : State) : (report c s).script = s.script := rfl
@[simp] theorem report_readVal (c : Cause) (s : State) : (report c s).readVal = s.readVal := rfl
@[simp] theorem report_resets (c : Cause) (s : State) : (report c s).resets = s.resets := rfl

/-! ### `clearBlob` -/

@[simp] theorem clearBlob_present (s : State) : (clearBlob s).present = false := rfl
@[simp] theorem clearBlob_ok (s : State) : (clearBlob s).ok = s.ok := rfl
@[simp] theorem clearBlob_faulted (s : State) : (clearBlob s).faulted = s.faulted := rfl
@[simp] theorem clearBlob_cause (s : State) : (clearBlob s).cause = s.cause := rfl
@[simp] theorem clearBlob_fcode (s : State) : (clearBlob s).fcode = s.fcode := rfl
@[simp] theorem clearBlob_len (s : State) : (clearBlob s).len = s.len := rfl
@[simp] theorem clearBlob_origLen (s : State) : (clearBlob s).origLen = 0#32 := rfl
@[simp] theorem clearBlob_bitCnt (s : State) : (clearBlob s).bitCnt = 0#40 := rfl
@[simp] theorem clearBlob_wordCnt (s : State) : (clearBlob s).wordCnt = 0#34 := rfl
@[simp] theorem clearBlob_root (s : State) : (clearBlob s).root = absent := rfl
@[simp] theorem clearBlob_outFill (s : State) : (clearBlob s).outFill = s.outFill := rfl
@[simp] theorem clearBlob_result (s : State) : (clearBlob s).result = s.result := rfl
@[simp] theorem clearBlob_rem (s : State) : (clearBlob s).rem = s.rem := rfl
@[simp] theorem clearBlob_outPos (s : State) : (clearBlob s).outPos = s.outPos := rfl
@[simp] theorem clearBlob_pos (s : State) : (clearBlob s).pos = s.pos := rfl
@[simp] theorem clearBlob_acc (s : State) : (clearBlob s).acc = s.acc := rfl
@[simp] theorem clearBlob_accCnt (s : State) : (clearBlob s).accCnt = s.accCnt := rfl
@[simp] theorem clearBlob_patReg (s : State) : (clearBlob s).patReg = s.patReg := rfl
@[simp] theorem clearBlob_depth (s : State) : (clearBlob s).depth = s.depth := rfl
@[simp] theorem clearBlob_shReg (s : State) : (clearBlob s).shReg = s.shReg := rfl
@[simp] theorem clearBlob_bitIdx (s : State) : (clearBlob s).bitIdx = s.bitIdx := rfl
@[simp] theorem clearBlob_wIdx (s : State) : (clearBlob s).wIdx = s.wIdx := rfl
@[simp] theorem clearBlob_inIdx (s : State) : (clearBlob s).inIdx = s.inIdx := rfl
@[simp] theorem clearBlob_nNode (s : State) : (clearBlob s).nNode = s.nNode := rfl
@[simp] theorem clearBlob_seq (s : State) : (clearBlob s).seq = s.seq := rfl
@[simp] theorem clearBlob_queue (s : State) : (clearBlob s).queue = s.queue := rfl
@[simp] theorem clearBlob_qHist (s : State) : (clearBlob s).qHist = s.qHist := rfl
@[simp] theorem clearBlob_stack (s : State) : (clearBlob s).stack = s.stack := rfl
@[simp] theorem clearBlob_inp (s : State) : (clearBlob s).inp = s.inp := rfl
@[simp] theorem clearBlob_out (s : State) : (clearBlob s).out = s.out := rfl
@[simp] theorem clearBlob_pack (s : State) : (clearBlob s).pack = s.pack := rfl
@[simp] theorem clearBlob_node (s : State) : (clearBlob s).node = s.node := rfl
@[simp] theorem clearBlob_freq (s : State) : (clearBlob s).freq = s.freq := rfl
@[simp] theorem clearBlob_lut (s : State) : (clearBlob s).lut = s.lut := rfl
@[simp] theorem clearBlob_inCap (s : State) : (clearBlob s).inCap = s.inCap := rfl
@[simp] theorem clearBlob_outCap (s : State) : (clearBlob s).outCap = s.outCap := rfl
@[simp] theorem clearBlob_packCap (s : State) : (clearBlob s).packCap = s.packCap := rfl
@[simp] theorem clearBlob_tie (s : State) : (clearBlob s).tie = s.tie := rfl
@[simp] theorem clearBlob_script (s : State) : (clearBlob s).script = s.script := rfl
@[simp] theorem clearBlob_readVal (s : State) : (clearBlob s).readVal = s.readVal := rfl
@[simp] theorem clearBlob_resets (s : State) : (clearBlob s).resets = s.resets := rfl

/-! ### `raiseFatal` -/

@[simp] theorem raiseFatal_present (f : FCode) (s : State) : (raiseFatal f s).present = false := rfl
@[simp] theorem raiseFatal_ok (f : FCode) (s : State) : (raiseFatal f s).ok = false := rfl
@[simp] theorem raiseFatal_faulted (f : FCode) (s : State) : (raiseFatal f s).faulted = true := rfl
@[simp] theorem raiseFatal_cause (f : FCode) (s : State) : (raiseFatal f s).cause = .fatal := rfl
@[simp] theorem raiseFatal_fcode (f : FCode) (s : State) : (raiseFatal f s).fcode = f := rfl
@[simp] theorem raiseFatal_len (f : FCode) (s : State) : (raiseFatal f s).len = s.len := rfl
@[simp] theorem raiseFatal_origLen (f : FCode) (s : State) : (raiseFatal f s).origLen = 0#32 := rfl
@[simp] theorem raiseFatal_bitCnt (f : FCode) (s : State) : (raiseFatal f s).bitCnt = 0#40 := rfl
@[simp] theorem raiseFatal_wordCnt (f : FCode) (s : State) : (raiseFatal f s).wordCnt = 0#34 := rfl
@[simp] theorem raiseFatal_root (f : FCode) (s : State) : (raiseFatal f s).root = absent := rfl
@[simp] theorem raiseFatal_outFill (f : FCode) (s : State) : (raiseFatal f s).outFill = s.outFill := rfl
@[simp] theorem raiseFatal_result (f : FCode) (s : State) : (raiseFatal f s).result = s.result := rfl
@[simp] theorem raiseFatal_rem (f : FCode) (s : State) : (raiseFatal f s).rem = s.rem := rfl
@[simp] theorem raiseFatal_outPos (f : FCode) (s : State) : (raiseFatal f s).outPos = s.outPos := rfl
@[simp] theorem raiseFatal_pos (f : FCode) (s : State) : (raiseFatal f s).pos = s.pos := rfl
@[simp] theorem raiseFatal_acc (f : FCode) (s : State) : (raiseFatal f s).acc = s.acc := rfl
@[simp] theorem raiseFatal_accCnt (f : FCode) (s : State) : (raiseFatal f s).accCnt = s.accCnt := rfl
@[simp] theorem raiseFatal_patReg (f : FCode) (s : State) : (raiseFatal f s).patReg = s.patReg := rfl
@[simp] theorem raiseFatal_depth (f : FCode) (s : State) : (raiseFatal f s).depth = s.depth := rfl
@[simp] theorem raiseFatal_shReg (f : FCode) (s : State) : (raiseFatal f s).shReg = s.shReg := rfl
@[simp] theorem raiseFatal_bitIdx (f : FCode) (s : State) : (raiseFatal f s).bitIdx = s.bitIdx := rfl
@[simp] theorem raiseFatal_wIdx (f : FCode) (s : State) : (raiseFatal f s).wIdx = s.wIdx := rfl
@[simp] theorem raiseFatal_inIdx (f : FCode) (s : State) : (raiseFatal f s).inIdx = s.inIdx := rfl
@[simp] theorem raiseFatal_nNode (f : FCode) (s : State) : (raiseFatal f s).nNode = s.nNode := rfl
@[simp] theorem raiseFatal_seq (f : FCode) (s : State) : (raiseFatal f s).seq = s.seq := rfl
@[simp] theorem raiseFatal_queue (f : FCode) (s : State) : (raiseFatal f s).queue = s.queue := rfl
@[simp] theorem raiseFatal_qHist (f : FCode) (s : State) : (raiseFatal f s).qHist = s.qHist := rfl
@[simp] theorem raiseFatal_stack (f : FCode) (s : State) : (raiseFatal f s).stack = s.stack := rfl
@[simp] theorem raiseFatal_inp (f : FCode) (s : State) : (raiseFatal f s).inp = s.inp := rfl
@[simp] theorem raiseFatal_out (f : FCode) (s : State) : (raiseFatal f s).out = s.out := rfl
@[simp] theorem raiseFatal_pack (f : FCode) (s : State) : (raiseFatal f s).pack = s.pack := rfl
@[simp] theorem raiseFatal_node (f : FCode) (s : State) : (raiseFatal f s).node = s.node := rfl
@[simp] theorem raiseFatal_freq (f : FCode) (s : State) : (raiseFatal f s).freq = s.freq := rfl
@[simp] theorem raiseFatal_lut (f : FCode) (s : State) : (raiseFatal f s).lut = s.lut := rfl
@[simp] theorem raiseFatal_inCap (f : FCode) (s : State) : (raiseFatal f s).inCap = s.inCap := rfl
@[simp] theorem raiseFatal_outCap (f : FCode) (s : State) : (raiseFatal f s).outCap = s.outCap := rfl
@[simp] theorem raiseFatal_packCap (f : FCode) (s : State) : (raiseFatal f s).packCap = s.packCap := rfl
@[simp] theorem raiseFatal_tie (f : FCode) (s : State) : (raiseFatal f s).tie = s.tie := rfl
@[simp] theorem raiseFatal_script (f : FCode) (s : State) : (raiseFatal f s).script = s.script := rfl
@[simp] theorem raiseFatal_readVal (f : FCode) (s : State) : (raiseFatal f s).readVal = s.readVal := rfl
@[simp] theorem raiseFatal_resets (f : FCode) (s : State) : (raiseFatal f s).resets = s.resets := rfl

/-! ### `enter` -/

@[simp] theorem enter_present (m : Seq) (s : State) : (s.enter m).present = s.present := rfl
@[simp] theorem enter_ok (m : Seq) (s : State) : (s.enter m).ok = s.ok := rfl
@[simp] theorem enter_faulted (m : Seq) (s : State) : (s.enter m).faulted = s.faulted := rfl
@[simp] theorem enter_cause (m : Seq) (s : State) : (s.enter m).cause = s.cause := rfl
@[simp] theorem enter_fcode (m : Seq) (s : State) : (s.enter m).fcode = s.fcode := rfl
@[simp] theorem enter_len (m : Seq) (s : State) : (s.enter m).len = s.len := rfl
@[simp] theorem enter_origLen (m : Seq) (s : State) : (s.enter m).origLen = s.origLen := rfl
@[simp] theorem enter_bitCnt (m : Seq) (s : State) : (s.enter m).bitCnt = s.bitCnt := rfl
@[simp] theorem enter_wordCnt (m : Seq) (s : State) : (s.enter m).wordCnt = s.wordCnt := rfl
@[simp] theorem enter_root (m : Seq) (s : State) : (s.enter m).root = s.root := rfl
@[simp] theorem enter_outFill (m : Seq) (s : State) : (s.enter m).outFill = s.outFill := rfl
@[simp] theorem enter_result (m : Seq) (s : State) : (s.enter m).result = s.result := rfl
@[simp] theorem enter_rem (m : Seq) (s : State) : (s.enter m).rem = s.rem := rfl
@[simp] theorem enter_outPos (m : Seq) (s : State) : (s.enter m).outPos = s.outPos := rfl
@[simp] theorem enter_pos (m : Seq) (s : State) : (s.enter m).pos = s.pos := rfl
@[simp] theorem enter_acc (m : Seq) (s : State) : (s.enter m).acc = s.acc := rfl
@[simp] theorem enter_accCnt (m : Seq) (s : State) : (s.enter m).accCnt = s.accCnt := rfl
@[simp] theorem enter_patReg (m : Seq) (s : State) : (s.enter m).patReg = s.patReg := rfl
@[simp] theorem enter_depth (m : Seq) (s : State) : (s.enter m).depth = s.depth := rfl
@[simp] theorem enter_shReg (m : Seq) (s : State) : (s.enter m).shReg = s.shReg := rfl
@[simp] theorem enter_bitIdx (m : Seq) (s : State) : (s.enter m).bitIdx = s.bitIdx := rfl
@[simp] theorem enter_wIdx (m : Seq) (s : State) : (s.enter m).wIdx = s.wIdx := rfl
@[simp] theorem enter_inIdx (m : Seq) (s : State) : (s.enter m).inIdx = s.inIdx := rfl
@[simp] theorem enter_nNode (m : Seq) (s : State) : (s.enter m).nNode = s.nNode := rfl
@[simp] theorem enter_seq (m : Seq) (s : State) : (s.enter m).seq = m := rfl
@[simp] theorem enter_queue (m : Seq) (s : State) : (s.enter m).queue = s.queue := rfl
@[simp] theorem enter_qHist (m : Seq) (s : State) : (s.enter m).qHist = s.qHist := rfl
@[simp] theorem enter_stack (m : Seq) (s : State) : (s.enter m).stack = s.stack := rfl
@[simp] theorem enter_inp (m : Seq) (s : State) : (s.enter m).inp = s.inp := rfl
@[simp] theorem enter_out (m : Seq) (s : State) : (s.enter m).out = s.out := rfl
@[simp] theorem enter_pack (m : Seq) (s : State) : (s.enter m).pack = s.pack := rfl
@[simp] theorem enter_node (m : Seq) (s : State) : (s.enter m).node = s.node := rfl
@[simp] theorem enter_freq (m : Seq) (s : State) : (s.enter m).freq = s.freq := rfl
@[simp] theorem enter_lut (m : Seq) (s : State) : (s.enter m).lut = s.lut := rfl
@[simp] theorem enter_inCap (m : Seq) (s : State) : (s.enter m).inCap = s.inCap := rfl
@[simp] theorem enter_outCap (m : Seq) (s : State) : (s.enter m).outCap = s.outCap := rfl
@[simp] theorem enter_packCap (m : Seq) (s : State) : (s.enter m).packCap = s.packCap := rfl
@[simp] theorem enter_tie (m : Seq) (s : State) : (s.enter m).tie = s.tie := rfl
@[simp] theorem enter_script (m : Seq) (s : State) : (s.enter m).script = s.script := rfl
@[simp] theorem enter_readVal (m : Seq) (s : State) : (s.enter m).readVal = s.readVal := rfl
@[simp] theorem enter_resets (m : Seq) (s : State) : (s.enter m).resets = s.resets := rfl

/-! ### `putIn` -/

@[simp] theorem putIn_present (s : State) (i : Nat) (v : Sym) : (s.putIn i v).present = s.present := rfl
@[simp] theorem putIn_ok (s : State) (i : Nat) (v : Sym) : (s.putIn i v).ok = s.ok := rfl
@[simp] theorem putIn_faulted (s : State) (i : Nat) (v : Sym) : (s.putIn i v).faulted = s.faulted := rfl
@[simp] theorem putIn_cause (s : State) (i : Nat) (v : Sym) : (s.putIn i v).cause = s.cause := rfl
@[simp] theorem putIn_fcode (s : State) (i : Nat) (v : Sym) : (s.putIn i v).fcode = s.fcode := rfl
@[simp] theorem putIn_len (s : State) (i : Nat) (v : Sym) : (s.putIn i v).len = s.len := rfl
@[simp] theorem putIn_origLen (s : State) (i : Nat) (v : Sym) : (s.putIn i v).origLen = s.origLen := rfl
@[simp] theorem putIn_bitCnt (s : State) (i : Nat) (v : Sym) : (s.putIn i v).bitCnt = s.bitCnt := rfl
@[simp] theorem putIn_wordCnt (s : State) (i : Nat) (v : Sym) : (s.putIn i v).wordCnt = s.wordCnt := rfl
@[simp] theorem putIn_root (s : State) (i : Nat) (v : Sym) : (s.putIn i v).root = s.root := rfl
@[simp] theorem putIn_outFill (s : State) (i : Nat) (v : Sym) : (s.putIn i v).outFill = s.outFill := rfl
@[simp] theorem putIn_result (s : State) (i : Nat) (v : Sym) : (s.putIn i v).result = s.result := rfl
@[simp] theorem putIn_rem (s : State) (i : Nat) (v : Sym) : (s.putIn i v).rem = s.rem := rfl
@[simp] theorem putIn_outPos (s : State) (i : Nat) (v : Sym) : (s.putIn i v).outPos = s.outPos := rfl
@[simp] theorem putIn_pos (s : State) (i : Nat) (v : Sym) : (s.putIn i v).pos = s.pos := rfl
@[simp] theorem putIn_acc (s : State) (i : Nat) (v : Sym) : (s.putIn i v).acc = s.acc := rfl
@[simp] theorem putIn_accCnt (s : State) (i : Nat) (v : Sym) : (s.putIn i v).accCnt = s.accCnt := rfl
@[simp] theorem putIn_patReg (s : State) (i : Nat) (v : Sym) : (s.putIn i v).patReg = s.patReg := rfl
@[simp] theorem putIn_depth (s : State) (i : Nat) (v : Sym) : (s.putIn i v).depth = s.depth := rfl
@[simp] theorem putIn_shReg (s : State) (i : Nat) (v : Sym) : (s.putIn i v).shReg = s.shReg := rfl
@[simp] theorem putIn_bitIdx (s : State) (i : Nat) (v : Sym) : (s.putIn i v).bitIdx = s.bitIdx := rfl
@[simp] theorem putIn_wIdx (s : State) (i : Nat) (v : Sym) : (s.putIn i v).wIdx = s.wIdx := rfl
@[simp] theorem putIn_inIdx (s : State) (i : Nat) (v : Sym) : (s.putIn i v).inIdx = s.inIdx := rfl
@[simp] theorem putIn_nNode (s : State) (i : Nat) (v : Sym) : (s.putIn i v).nNode = s.nNode := rfl
@[simp] theorem putIn_seq (s : State) (i : Nat) (v : Sym) : (s.putIn i v).seq = s.seq := rfl
@[simp] theorem putIn_queue (s : State) (i : Nat) (v : Sym) : (s.putIn i v).queue = s.queue := rfl
@[simp] theorem putIn_qHist (s : State) (i : Nat) (v : Sym) : (s.putIn i v).qHist = s.qHist := rfl
@[simp] theorem putIn_stack (s : State) (i : Nat) (v : Sym) : (s.putIn i v).stack = s.stack := rfl
@[simp] theorem putIn_inp (s : State) (i : Nat) (v : Sym) : (s.putIn i v).inp = Store.put unlisted.byte s.inp i v := rfl
@[simp] theorem putIn_out (s : State) (i : Nat) (v : Sym) : (s.putIn i v).out = s.out := rfl
@[simp] theorem putIn_pack (s : State) (i : Nat) (v : Sym) : (s.putIn i v).pack = s.pack := rfl
@[simp] theorem putIn_node (s : State) (i : Nat) (v : Sym) : (s.putIn i v).node = s.node := rfl
@[simp] theorem putIn_freq (s : State) (i : Nat) (v : Sym) : (s.putIn i v).freq = s.freq := rfl
@[simp] theorem putIn_lut (s : State) (i : Nat) (v : Sym) : (s.putIn i v).lut = s.lut := rfl
@[simp] theorem putIn_inCap (s : State) (i : Nat) (v : Sym) : (s.putIn i v).inCap = s.inCap := rfl
@[simp] theorem putIn_outCap (s : State) (i : Nat) (v : Sym) : (s.putIn i v).outCap = s.outCap := rfl
@[simp] theorem putIn_packCap (s : State) (i : Nat) (v : Sym) : (s.putIn i v).packCap = s.packCap := rfl
@[simp] theorem putIn_tie (s : State) (i : Nat) (v : Sym) : (s.putIn i v).tie = s.tie := rfl
@[simp] theorem putIn_script (s : State) (i : Nat) (v : Sym) : (s.putIn i v).script = s.script := rfl
@[simp] theorem putIn_readVal (s : State) (i : Nat) (v : Sym) : (s.putIn i v).readVal = s.readVal := rfl
@[simp] theorem putIn_resets (s : State) (i : Nat) (v : Sym) : (s.putIn i v).resets = s.resets := rfl

/-! ### `putOut` -/

@[simp] theorem putOut_present (s : State) (i : Nat) (v : Sym) : (s.putOut i v).present = s.present := rfl
@[simp] theorem putOut_ok (s : State) (i : Nat) (v : Sym) : (s.putOut i v).ok = s.ok := rfl
@[simp] theorem putOut_faulted (s : State) (i : Nat) (v : Sym) : (s.putOut i v).faulted = s.faulted := rfl
@[simp] theorem putOut_cause (s : State) (i : Nat) (v : Sym) : (s.putOut i v).cause = s.cause := rfl
@[simp] theorem putOut_fcode (s : State) (i : Nat) (v : Sym) : (s.putOut i v).fcode = s.fcode := rfl
@[simp] theorem putOut_len (s : State) (i : Nat) (v : Sym) : (s.putOut i v).len = s.len := rfl
@[simp] theorem putOut_origLen (s : State) (i : Nat) (v : Sym) : (s.putOut i v).origLen = s.origLen := rfl
@[simp] theorem putOut_bitCnt (s : State) (i : Nat) (v : Sym) : (s.putOut i v).bitCnt = s.bitCnt := rfl
@[simp] theorem putOut_wordCnt (s : State) (i : Nat) (v : Sym) : (s.putOut i v).wordCnt = s.wordCnt := rfl
@[simp] theorem putOut_root (s : State) (i : Nat) (v : Sym) : (s.putOut i v).root = s.root := rfl
@[simp] theorem putOut_outFill (s : State) (i : Nat) (v : Sym) : (s.putOut i v).outFill = s.outFill := rfl
@[simp] theorem putOut_result (s : State) (i : Nat) (v : Sym) : (s.putOut i v).result = s.result := rfl
@[simp] theorem putOut_rem (s : State) (i : Nat) (v : Sym) : (s.putOut i v).rem = s.rem := rfl
@[simp] theorem putOut_outPos (s : State) (i : Nat) (v : Sym) : (s.putOut i v).outPos = s.outPos := rfl
@[simp] theorem putOut_pos (s : State) (i : Nat) (v : Sym) : (s.putOut i v).pos = s.pos := rfl
@[simp] theorem putOut_acc (s : State) (i : Nat) (v : Sym) : (s.putOut i v).acc = s.acc := rfl
@[simp] theorem putOut_accCnt (s : State) (i : Nat) (v : Sym) : (s.putOut i v).accCnt = s.accCnt := rfl
@[simp] theorem putOut_patReg (s : State) (i : Nat) (v : Sym) : (s.putOut i v).patReg = s.patReg := rfl
@[simp] theorem putOut_depth (s : State) (i : Nat) (v : Sym) : (s.putOut i v).depth = s.depth := rfl
@[simp] theorem putOut_shReg (s : State) (i : Nat) (v : Sym) : (s.putOut i v).shReg = s.shReg := rfl
@[simp] theorem putOut_bitIdx (s : State) (i : Nat) (v : Sym) : (s.putOut i v).bitIdx = s.bitIdx := rfl
@[simp] theorem putOut_wIdx (s : State) (i : Nat) (v : Sym) : (s.putOut i v).wIdx = s.wIdx := rfl
@[simp] theorem putOut_inIdx (s : State) (i : Nat) (v : Sym) : (s.putOut i v).inIdx = s.inIdx := rfl
@[simp] theorem putOut_nNode (s : State) (i : Nat) (v : Sym) : (s.putOut i v).nNode = s.nNode := rfl
@[simp] theorem putOut_seq (s : State) (i : Nat) (v : Sym) : (s.putOut i v).seq = s.seq := rfl
@[simp] theorem putOut_queue (s : State) (i : Nat) (v : Sym) : (s.putOut i v).queue = s.queue := rfl
@[simp] theorem putOut_qHist (s : State) (i : Nat) (v : Sym) : (s.putOut i v).qHist = s.qHist := rfl
@[simp] theorem putOut_stack (s : State) (i : Nat) (v : Sym) : (s.putOut i v).stack = s.stack := rfl
@[simp] theorem putOut_inp (s : State) (i : Nat) (v : Sym) : (s.putOut i v).inp = s.inp := rfl
@[simp] theorem putOut_out (s : State) (i : Nat) (v : Sym) : (s.putOut i v).out = Store.put unlisted.byte s.out i v := rfl
@[simp] theorem putOut_pack (s : State) (i : Nat) (v : Sym) : (s.putOut i v).pack = s.pack := rfl
@[simp] theorem putOut_node (s : State) (i : Nat) (v : Sym) : (s.putOut i v).node = s.node := rfl
@[simp] theorem putOut_freq (s : State) (i : Nat) (v : Sym) : (s.putOut i v).freq = s.freq := rfl
@[simp] theorem putOut_lut (s : State) (i : Nat) (v : Sym) : (s.putOut i v).lut = s.lut := rfl
@[simp] theorem putOut_inCap (s : State) (i : Nat) (v : Sym) : (s.putOut i v).inCap = s.inCap := rfl
@[simp] theorem putOut_outCap (s : State) (i : Nat) (v : Sym) : (s.putOut i v).outCap = s.outCap := rfl
@[simp] theorem putOut_packCap (s : State) (i : Nat) (v : Sym) : (s.putOut i v).packCap = s.packCap := rfl
@[simp] theorem putOut_tie (s : State) (i : Nat) (v : Sym) : (s.putOut i v).tie = s.tie := rfl
@[simp] theorem putOut_script (s : State) (i : Nat) (v : Sym) : (s.putOut i v).script = s.script := rfl
@[simp] theorem putOut_readVal (s : State) (i : Nat) (v : Sym) : (s.putOut i v).readVal = s.readVal := rfl
@[simp] theorem putOut_resets (s : State) (i : Nat) (v : Sym) : (s.putOut i v).resets = s.resets := rfl

/-! ### `putPack` -/

@[simp] theorem putPack_present (s : State) (i : Nat) (v : PackWord) : (s.putPack i v).present = s.present := rfl
@[simp] theorem putPack_ok (s : State) (i : Nat) (v : PackWord) : (s.putPack i v).ok = s.ok := rfl
@[simp] theorem putPack_faulted (s : State) (i : Nat) (v : PackWord) : (s.putPack i v).faulted = s.faulted := rfl
@[simp] theorem putPack_cause (s : State) (i : Nat) (v : PackWord) : (s.putPack i v).cause = s.cause := rfl
@[simp] theorem putPack_fcode (s : State) (i : Nat) (v : PackWord) : (s.putPack i v).fcode = s.fcode := rfl
@[simp] theorem putPack_len (s : State) (i : Nat) (v : PackWord) : (s.putPack i v).len = s.len := rfl
@[simp] theorem putPack_origLen (s : State) (i : Nat) (v : PackWord) : (s.putPack i v).origLen = s.origLen := rfl
@[simp] theorem putPack_bitCnt (s : State) (i : Nat) (v : PackWord) : (s.putPack i v).bitCnt = s.bitCnt := rfl
@[simp] theorem putPack_wordCnt (s : State) (i : Nat) (v : PackWord) : (s.putPack i v).wordCnt = s.wordCnt := rfl
@[simp] theorem putPack_root (s : State) (i : Nat) (v : PackWord) : (s.putPack i v).root = s.root := rfl
@[simp] theorem putPack_outFill (s : State) (i : Nat) (v : PackWord) : (s.putPack i v).outFill = s.outFill := rfl
@[simp] theorem putPack_result (s : State) (i : Nat) (v : PackWord) : (s.putPack i v).result = s.result := rfl
@[simp] theorem putPack_rem (s : State) (i : Nat) (v : PackWord) : (s.putPack i v).rem = s.rem := rfl
@[simp] theorem putPack_outPos (s : State) (i : Nat) (v : PackWord) : (s.putPack i v).outPos = s.outPos := rfl
@[simp] theorem putPack_pos (s : State) (i : Nat) (v : PackWord) : (s.putPack i v).pos = s.pos := rfl
@[simp] theorem putPack_acc (s : State) (i : Nat) (v : PackWord) : (s.putPack i v).acc = s.acc := rfl
@[simp] theorem putPack_accCnt (s : State) (i : Nat) (v : PackWord) : (s.putPack i v).accCnt = s.accCnt := rfl
@[simp] theorem putPack_patReg (s : State) (i : Nat) (v : PackWord) : (s.putPack i v).patReg = s.patReg := rfl
@[simp] theorem putPack_depth (s : State) (i : Nat) (v : PackWord) : (s.putPack i v).depth = s.depth := rfl
@[simp] theorem putPack_shReg (s : State) (i : Nat) (v : PackWord) : (s.putPack i v).shReg = s.shReg := rfl
@[simp] theorem putPack_bitIdx (s : State) (i : Nat) (v : PackWord) : (s.putPack i v).bitIdx = s.bitIdx := rfl
@[simp] theorem putPack_wIdx (s : State) (i : Nat) (v : PackWord) : (s.putPack i v).wIdx = s.wIdx := rfl
@[simp] theorem putPack_inIdx (s : State) (i : Nat) (v : PackWord) : (s.putPack i v).inIdx = s.inIdx := rfl
@[simp] theorem putPack_nNode (s : State) (i : Nat) (v : PackWord) : (s.putPack i v).nNode = s.nNode := rfl
@[simp] theorem putPack_seq (s : State) (i : Nat) (v : PackWord) : (s.putPack i v).seq = s.seq := rfl
@[simp] theorem putPack_queue (s : State) (i : Nat) (v : PackWord) : (s.putPack i v).queue = s.queue := rfl
@[simp] theorem putPack_qHist (s : State) (i : Nat) (v : PackWord) : (s.putPack i v).qHist = s.qHist := rfl
@[simp] theorem putPack_stack (s : State) (i : Nat) (v : PackWord) : (s.putPack i v).stack = s.stack := rfl
@[simp] theorem putPack_inp (s : State) (i : Nat) (v : PackWord) : (s.putPack i v).inp = s.inp := rfl
@[simp] theorem putPack_out (s : State) (i : Nat) (v : PackWord) : (s.putPack i v).out = s.out := rfl
@[simp] theorem putPack_pack (s : State) (i : Nat) (v : PackWord) : (s.putPack i v).pack = Store.put unlisted.word s.pack i v := rfl
@[simp] theorem putPack_node (s : State) (i : Nat) (v : PackWord) : (s.putPack i v).node = s.node := rfl
@[simp] theorem putPack_freq (s : State) (i : Nat) (v : PackWord) : (s.putPack i v).freq = s.freq := rfl
@[simp] theorem putPack_lut (s : State) (i : Nat) (v : PackWord) : (s.putPack i v).lut = s.lut := rfl
@[simp] theorem putPack_inCap (s : State) (i : Nat) (v : PackWord) : (s.putPack i v).inCap = s.inCap := rfl
@[simp] theorem putPack_outCap (s : State) (i : Nat) (v : PackWord) : (s.putPack i v).outCap = s.outCap := rfl
@[simp] theorem putPack_packCap (s : State) (i : Nat) (v : PackWord) : (s.putPack i v).packCap = s.packCap := rfl
@[simp] theorem putPack_tie (s : State) (i : Nat) (v : PackWord) : (s.putPack i v).tie = s.tie := rfl
@[simp] theorem putPack_script (s : State) (i : Nat) (v : PackWord) : (s.putPack i v).script = s.script := rfl
@[simp] theorem putPack_readVal (s : State) (i : Nat) (v : PackWord) : (s.putPack i v).readVal = s.readVal := rfl
@[simp] theorem putPack_resets (s : State) (i : Nat) (v : PackWord) : (s.putPack i v).resets = s.resets := rfl

/-! ### `putNode` -/

@[simp] theorem putNode_present (s : State) (n : NodeIdx) (r : Node) : (s.putNode n r).present = s.present := rfl
@[simp] theorem putNode_ok (s : State) (n : NodeIdx) (r : Node) : (s.putNode n r).ok = s.ok := rfl
@[simp] theorem putNode_faulted (s : State) (n : NodeIdx) (r : Node) : (s.putNode n r).faulted = s.faulted := rfl
@[simp] theorem putNode_cause (s : State) (n : NodeIdx) (r : Node) : (s.putNode n r).cause = s.cause := rfl
@[simp] theorem putNode_fcode (s : State) (n : NodeIdx) (r : Node) : (s.putNode n r).fcode = s.fcode := rfl
@[simp] theorem putNode_len (s : State) (n : NodeIdx) (r : Node) : (s.putNode n r).len = s.len := rfl
@[simp] theorem putNode_origLen (s : State) (n : NodeIdx) (r : Node) : (s.putNode n r).origLen = s.origLen := rfl
@[simp] theorem putNode_bitCnt (s : State) (n : NodeIdx) (r : Node) : (s.putNode n r).bitCnt = s.bitCnt := rfl
@[simp] theorem putNode_wordCnt (s : State) (n : NodeIdx) (r : Node) : (s.putNode n r).wordCnt = s.wordCnt := rfl
@[simp] theorem putNode_root (s : State) (n : NodeIdx) (r : Node) : (s.putNode n r).root = s.root := rfl
@[simp] theorem putNode_outFill (s : State) (n : NodeIdx) (r : Node) : (s.putNode n r).outFill = s.outFill := rfl
@[simp] theorem putNode_result (s : State) (n : NodeIdx) (r : Node) : (s.putNode n r).result = s.result := rfl
@[simp] theorem putNode_rem (s : State) (n : NodeIdx) (r : Node) : (s.putNode n r).rem = s.rem := rfl
@[simp] theorem putNode_outPos (s : State) (n : NodeIdx) (r : Node) : (s.putNode n r).outPos = s.outPos := rfl
@[simp] theorem putNode_pos (s : State) (n : NodeIdx) (r : Node) : (s.putNode n r).pos = s.pos := rfl
@[simp] theorem putNode_acc (s : State) (n : NodeIdx) (r : Node) : (s.putNode n r).acc = s.acc := rfl
@[simp] theorem putNode_accCnt (s : State) (n : NodeIdx) (r : Node) : (s.putNode n r).accCnt = s.accCnt := rfl
@[simp] theorem putNode_patReg (s : State) (n : NodeIdx) (r : Node) : (s.putNode n r).patReg = s.patReg := rfl
@[simp] theorem putNode_depth (s : State) (n : NodeIdx) (r : Node) : (s.putNode n r).depth = s.depth := rfl
@[simp] theorem putNode_shReg (s : State) (n : NodeIdx) (r : Node) : (s.putNode n r).shReg = s.shReg := rfl
@[simp] theorem putNode_bitIdx (s : State) (n : NodeIdx) (r : Node) : (s.putNode n r).bitIdx = s.bitIdx := rfl
@[simp] theorem putNode_wIdx (s : State) (n : NodeIdx) (r : Node) : (s.putNode n r).wIdx = s.wIdx := rfl
@[simp] theorem putNode_inIdx (s : State) (n : NodeIdx) (r : Node) : (s.putNode n r).inIdx = s.inIdx := rfl
@[simp] theorem putNode_nNode (s : State) (n : NodeIdx) (r : Node) : (s.putNode n r).nNode = s.nNode := rfl
@[simp] theorem putNode_seq (s : State) (n : NodeIdx) (r : Node) : (s.putNode n r).seq = s.seq := rfl
@[simp] theorem putNode_queue (s : State) (n : NodeIdx) (r : Node) : (s.putNode n r).queue = s.queue := rfl
@[simp] theorem putNode_qHist (s : State) (n : NodeIdx) (r : Node) : (s.putNode n r).qHist = s.qHist := rfl
@[simp] theorem putNode_stack (s : State) (n : NodeIdx) (r : Node) : (s.putNode n r).stack = s.stack := rfl
@[simp] theorem putNode_inp (s : State) (n : NodeIdx) (r : Node) : (s.putNode n r).inp = s.inp := rfl
@[simp] theorem putNode_out (s : State) (n : NodeIdx) (r : Node) : (s.putNode n r).out = s.out := rfl
@[simp] theorem putNode_pack (s : State) (n : NodeIdx) (r : Node) : (s.putNode n r).pack = s.pack := rfl
@[simp] theorem putNode_node (s : State) (n : NodeIdx) (r : Node) : (s.putNode n r).node = Store.put unlisted.node s.node n.toNat r := rfl
@[simp] theorem putNode_freq (s : State) (n : NodeIdx) (r : Node) : (s.putNode n r).freq = s.freq := rfl
@[simp] theorem putNode_lut (s : State) (n : NodeIdx) (r : Node) : (s.putNode n r).lut = s.lut := rfl
@[simp] theorem putNode_inCap (s : State) (n : NodeIdx) (r : Node) : (s.putNode n r).inCap = s.inCap := rfl
@[simp] theorem putNode_outCap (s : State) (n : NodeIdx) (r : Node) : (s.putNode n r).outCap = s.outCap := rfl
@[simp] theorem putNode_packCap (s : State) (n : NodeIdx) (r : Node) : (s.putNode n r).packCap = s.packCap := rfl
@[simp] theorem putNode_tie (s : State) (n : NodeIdx) (r : Node) : (s.putNode n r).tie = s.tie := rfl
@[simp] theorem putNode_script (s : State) (n : NodeIdx) (r : Node) : (s.putNode n r).script = s.script := rfl
@[simp] theorem putNode_readVal (s : State) (n : NodeIdx) (r : Node) : (s.putNode n r).readVal = s.readVal := rfl
@[simp] theorem putNode_resets (s : State) (n : NodeIdx) (r : Node) : (s.putNode n r).resets = s.resets := rfl

/-! ### `putFreq` -/

@[simp] theorem putFreq_present (s : State) (x : Sym) (v : Count) : (s.putFreq x v).present = s.present := rfl
@[simp] theorem putFreq_ok (s : State) (x : Sym) (v : Count) : (s.putFreq x v).ok = s.ok := rfl
@[simp] theorem putFreq_faulted (s : State) (x : Sym) (v : Count) : (s.putFreq x v).faulted = s.faulted := rfl
@[simp] theorem putFreq_cause (s : State) (x : Sym) (v : Count) : (s.putFreq x v).cause = s.cause := rfl
@[simp] theorem putFreq_fcode (s : State) (x : Sym) (v : Count) : (s.putFreq x v).fcode = s.fcode := rfl
@[simp] theorem putFreq_len (s : State) (x : Sym) (v : Count) : (s.putFreq x v).len = s.len := rfl
@[simp] theorem putFreq_origLen (s : State) (x : Sym) (v : Count) : (s.putFreq x v).origLen = s.origLen := rfl
@[simp] theorem putFreq_bitCnt (s : State) (x : Sym) (v : Count) : (s.putFreq x v).bitCnt = s.bitCnt := rfl
@[simp] theorem putFreq_wordCnt (s : State) (x : Sym) (v : Count) : (s.putFreq x v).wordCnt = s.wordCnt := rfl
@[simp] theorem putFreq_root (s : State) (x : Sym) (v : Count) : (s.putFreq x v).root = s.root := rfl
@[simp] theorem putFreq_outFill (s : State) (x : Sym) (v : Count) : (s.putFreq x v).outFill = s.outFill := rfl
@[simp] theorem putFreq_result (s : State) (x : Sym) (v : Count) : (s.putFreq x v).result = s.result := rfl
@[simp] theorem putFreq_rem (s : State) (x : Sym) (v : Count) : (s.putFreq x v).rem = s.rem := rfl
@[simp] theorem putFreq_outPos (s : State) (x : Sym) (v : Count) : (s.putFreq x v).outPos = s.outPos := rfl
@[simp] theorem putFreq_pos (s : State) (x : Sym) (v : Count) : (s.putFreq x v).pos = s.pos := rfl
@[simp] theorem putFreq_acc (s : State) (x : Sym) (v : Count) : (s.putFreq x v).acc = s.acc := rfl
@[simp] theorem putFreq_accCnt (s : State) (x : Sym) (v : Count) : (s.putFreq x v).accCnt = s.accCnt := rfl
@[simp] theorem putFreq_patReg (s : State) (x : Sym) (v : Count) : (s.putFreq x v).patReg = s.patReg := rfl
@[simp] theorem putFreq_depth (s : State) (x : Sym) (v : Count) : (s.putFreq x v).depth = s.depth := rfl
@[simp] theorem putFreq_shReg (s : State) (x : Sym) (v : Count) : (s.putFreq x v).shReg = s.shReg := rfl
@[simp] theorem putFreq_bitIdx (s : State) (x : Sym) (v : Count) : (s.putFreq x v).bitIdx = s.bitIdx := rfl
@[simp] theorem putFreq_wIdx (s : State) (x : Sym) (v : Count) : (s.putFreq x v).wIdx = s.wIdx := rfl
@[simp] theorem putFreq_inIdx (s : State) (x : Sym) (v : Count) : (s.putFreq x v).inIdx = s.inIdx := rfl
@[simp] theorem putFreq_nNode (s : State) (x : Sym) (v : Count) : (s.putFreq x v).nNode = s.nNode := rfl
@[simp] theorem putFreq_seq (s : State) (x : Sym) (v : Count) : (s.putFreq x v).seq = s.seq := rfl
@[simp] theorem putFreq_queue (s : State) (x : Sym) (v : Count) : (s.putFreq x v).queue = s.queue := rfl
@[simp] theorem putFreq_qHist (s : State) (x : Sym) (v : Count) : (s.putFreq x v).qHist = s.qHist := rfl
@[simp] theorem putFreq_stack (s : State) (x : Sym) (v : Count) : (s.putFreq x v).stack = s.stack := rfl
@[simp] theorem putFreq_inp (s : State) (x : Sym) (v : Count) : (s.putFreq x v).inp = s.inp := rfl
@[simp] theorem putFreq_out (s : State) (x : Sym) (v : Count) : (s.putFreq x v).out = s.out := rfl
@[simp] theorem putFreq_pack (s : State) (x : Sym) (v : Count) : (s.putFreq x v).pack = s.pack := rfl
@[simp] theorem putFreq_node (s : State) (x : Sym) (v : Count) : (s.putFreq x v).node = s.node := rfl
@[simp] theorem putFreq_freq (s : State) (x : Sym) (v : Count) : (s.putFreq x v).freq = Store.put unlisted.freq s.freq x.toNat v := rfl
@[simp] theorem putFreq_lut (s : State) (x : Sym) (v : Count) : (s.putFreq x v).lut = s.lut := rfl
@[simp] theorem putFreq_inCap (s : State) (x : Sym) (v : Count) : (s.putFreq x v).inCap = s.inCap := rfl
@[simp] theorem putFreq_outCap (s : State) (x : Sym) (v : Count) : (s.putFreq x v).outCap = s.outCap := rfl
@[simp] theorem putFreq_packCap (s : State) (x : Sym) (v : Count) : (s.putFreq x v).packCap = s.packCap := rfl
@[simp] theorem putFreq_tie (s : State) (x : Sym) (v : Count) : (s.putFreq x v).tie = s.tie := rfl
@[simp] theorem putFreq_script (s : State) (x : Sym) (v : Count) : (s.putFreq x v).script = s.script := rfl
@[simp] theorem putFreq_readVal (s : State) (x : Sym) (v : Count) : (s.putFreq x v).readVal = s.readVal := rfl
@[simp] theorem putFreq_resets (s : State) (x : Sym) (v : Count) : (s.putFreq x v).resets = s.resets := rfl

/-! ### `putLut` -/

@[simp] theorem putLut_present (s : State) (x : Sym) (v : NodeIdx) : (s.putLut x v).present = s.present := rfl
@[simp] theorem putLut_ok (s : State) (x : Sym) (v : NodeIdx) : (s.putLut x v).ok = s.ok := rfl
@[simp] theorem putLut_faulted (s : State) (x : Sym) (v : NodeIdx) : (s.putLut x v).faulted = s.faulted := rfl
@[simp] theorem putLut_cause (s : State) (x : Sym) (v : NodeIdx) : (s.putLut x v).cause = s.cause := rfl
@[simp] theorem putLut_fcode (s : State) (x : Sym) (v : NodeIdx) : (s.putLut x v).fcode = s.fcode := rfl
@[simp] theorem putLut_len (s : State) (x : Sym) (v : NodeIdx) : (s.putLut x v).len = s.len := rfl
@[simp] theorem putLut_origLen (s : State) (x : Sym) (v : NodeIdx) : (s.putLut x v).origLen = s.origLen := rfl
@[simp] theorem putLut_bitCnt (s : State) (x : Sym) (v : NodeIdx) : (s.putLut x v).bitCnt = s.bitCnt := rfl
@[simp] theorem putLut_wordCnt (s : State) (x : Sym) (v : NodeIdx) : (s.putLut x v).wordCnt = s.wordCnt := rfl
@[simp] theorem putLut_root (s : State) (x : Sym) (v : NodeIdx) : (s.putLut x v).root = s.root := rfl
@[simp] theorem putLut_outFill (s : State) (x : Sym) (v : NodeIdx) : (s.putLut x v).outFill = s.outFill := rfl
@[simp] theorem putLut_result (s : State) (x : Sym) (v : NodeIdx) : (s.putLut x v).result = s.result := rfl
@[simp] theorem putLut_rem (s : State) (x : Sym) (v : NodeIdx) : (s.putLut x v).rem = s.rem := rfl
@[simp] theorem putLut_outPos (s : State) (x : Sym) (v : NodeIdx) : (s.putLut x v).outPos = s.outPos := rfl
@[simp] theorem putLut_pos (s : State) (x : Sym) (v : NodeIdx) : (s.putLut x v).pos = s.pos := rfl
@[simp] theorem putLut_acc (s : State) (x : Sym) (v : NodeIdx) : (s.putLut x v).acc = s.acc := rfl
@[simp] theorem putLut_accCnt (s : State) (x : Sym) (v : NodeIdx) : (s.putLut x v).accCnt = s.accCnt := rfl
@[simp] theorem putLut_patReg (s : State) (x : Sym) (v : NodeIdx) : (s.putLut x v).patReg = s.patReg := rfl
@[simp] theorem putLut_depth (s : State) (x : Sym) (v : NodeIdx) : (s.putLut x v).depth = s.depth := rfl
@[simp] theorem putLut_shReg (s : State) (x : Sym) (v : NodeIdx) : (s.putLut x v).shReg = s.shReg := rfl
@[simp] theorem putLut_bitIdx (s : State) (x : Sym) (v : NodeIdx) : (s.putLut x v).bitIdx = s.bitIdx := rfl
@[simp] theorem putLut_wIdx (s : State) (x : Sym) (v : NodeIdx) : (s.putLut x v).wIdx = s.wIdx := rfl
@[simp] theorem putLut_inIdx (s : State) (x : Sym) (v : NodeIdx) : (s.putLut x v).inIdx = s.inIdx := rfl
@[simp] theorem putLut_nNode (s : State) (x : Sym) (v : NodeIdx) : (s.putLut x v).nNode = s.nNode := rfl
@[simp] theorem putLut_seq (s : State) (x : Sym) (v : NodeIdx) : (s.putLut x v).seq = s.seq := rfl
@[simp] theorem putLut_queue (s : State) (x : Sym) (v : NodeIdx) : (s.putLut x v).queue = s.queue := rfl
@[simp] theorem putLut_qHist (s : State) (x : Sym) (v : NodeIdx) : (s.putLut x v).qHist = s.qHist := rfl
@[simp] theorem putLut_stack (s : State) (x : Sym) (v : NodeIdx) : (s.putLut x v).stack = s.stack := rfl
@[simp] theorem putLut_inp (s : State) (x : Sym) (v : NodeIdx) : (s.putLut x v).inp = s.inp := rfl
@[simp] theorem putLut_out (s : State) (x : Sym) (v : NodeIdx) : (s.putLut x v).out = s.out := rfl
@[simp] theorem putLut_pack (s : State) (x : Sym) (v : NodeIdx) : (s.putLut x v).pack = s.pack := rfl
@[simp] theorem putLut_node (s : State) (x : Sym) (v : NodeIdx) : (s.putLut x v).node = s.node := rfl
@[simp] theorem putLut_freq (s : State) (x : Sym) (v : NodeIdx) : (s.putLut x v).freq = s.freq := rfl
@[simp] theorem putLut_lut (s : State) (x : Sym) (v : NodeIdx) : (s.putLut x v).lut = Store.put unlisted.lut s.lut x.toNat v := rfl
@[simp] theorem putLut_inCap (s : State) (x : Sym) (v : NodeIdx) : (s.putLut x v).inCap = s.inCap := rfl
@[simp] theorem putLut_outCap (s : State) (x : Sym) (v : NodeIdx) : (s.putLut x v).outCap = s.outCap := rfl
@[simp] theorem putLut_packCap (s : State) (x : Sym) (v : NodeIdx) : (s.putLut x v).packCap = s.packCap := rfl
@[simp] theorem putLut_tie (s : State) (x : Sym) (v : NodeIdx) : (s.putLut x v).tie = s.tie := rfl
@[simp] theorem putLut_script (s : State) (x : Sym) (v : NodeIdx) : (s.putLut x v).script = s.script := rfl
@[simp] theorem putLut_readVal (s : State) (x : Sym) (v : NodeIdx) : (s.putLut x v).readVal = s.readVal := rfl
@[simp] theorem putLut_resets (s : State) (x : Sym) (v : NodeIdx) : (s.putLut x v).resets = s.resets := rfl

end Sys2Proof.Machine
end

