-- ==== Sys2Proof/Laws/Flow.lean ====
section
/-! SUPPORT. The control of a command: sequencing, loops, and what a piece of a command leaves, said as a pair of
conditions on its two kinds of ending. -/

namespace Sys2Proof.Machine

@[simp] theorem Flow.andThen_go (s : State) (f : State → Flow) : (Flow.go s).andThen f = f s := rfl
@[simp] theorem Flow.andThen_stop (e : Ending) (s : State) (f : State → Flow) :
    (Flow.stop e s).andThen f = .stop e s := rfl
@[simp] theorem Flow.state_go (s : State) : (Flow.go s).state = s := rfl
@[simp] theorem Flow.state_stop (e : Ending) (s : State) : (Flow.stop e s).state = s := rfl

theorem Flow.andThen_assoc (x : Flow) (f g : State → Flow) :
    (x.andThen f).andThen g = x.andThen (fun s => (f s).andThen g) := by
  cases x <;> rfl

@[simp] theorem loopUp_zero (a : Nat) (f : Nat → State → State) (s : State) : loopUp 0 a f s = s := rfl
theorem loopUp_succ (n a : Nat) (f : Nat → State → State) (s : State) :
    loopUp (n + 1) a f s = loopUp n (a + 1) f (f a s) := rfl
@[simp] theorem loopFlow_zero (a : Nat) (f : Nat → State → Flow) (s : State) : loopFlow 0 a f s = .go s := rfl
theorem loopFlow_succ (n a : Nat) (f : Nat → State → Flow) (s : State) :
    loopFlow (n + 1) a f s = (f a s).andThen (loopFlow n (a + 1) f) := rfl

/-- A piece of a command leaves `P` where it falls off its end and `Q e` where it ends early with `e`. -/
def Flow.Sat (x : Flow) (P : State → Prop) (Q : Ending → State → Prop) : Prop :=
  match x with
  | .go s => P s
  | .stop e s => Q e s

@[simp] theorem Flow.sat_go (s : State) (P : State → Prop) (Q : Ending → State → Prop) :
    (Flow.go s).Sat P Q = P s := rfl
@[simp] theorem Flow.sat_stop (e : Ending) (s : State) (P : State → Prop) (Q : Ending → State → Prop) :
    (Flow.stop e s).Sat P Q = Q e s := rfl

theorem Flow.Sat.mono {x : Flow} {P P' : State → Prop} {Q Q' : Ending → State → Prop} (h : x.Sat P Q)
    (hP : ∀ s, P s → P' s) (hQ : ∀ e s, Q e s → Q' e s) : x.Sat P' Q' := by
  cases x with
  | go s => exact hP s h
  | stop e s => exact hQ e s h

theorem Flow.Sat.andThen {x : Flow} {f : State → Flow} {P R : State → Prop} {Q : Ending → State → Prop}
    (h : x.Sat P Q) (hf : ∀ s, P s → (f s).Sat R Q) : (x.andThen f).Sat R Q := by
  cases x with
  | go s => exact hf s h
  | stop e s => exact h

/-- The loop rule: an invariant indexed by the loop counter. -/
theorem sat_loopFlow {f : Nat → State → Flow} {Q : Ending → State → Prop} (P : Nat → State → Prop) (n a : Nat)
    (step : ∀ i s, a ≤ i → i < a + n → P i s → (f i s).Sat (P (i + 1)) Q) (s : State) (h : P a s) :
    (loopFlow n a f s).Sat (P (a + n)) Q := by
  induction n generalizing a s with
  | zero => simpa using h
  | succ n ih =>
    rw [loopFlow_succ]
    refine Flow.Sat.andThen (step a s (Nat.le_refl a) (by omega) h) fun t ht => ?_
    have := ih (a + 1) (fun i s h1 h2 => step i s (by omega) (by omega)) t ht
    rwa [show a + 1 + n = a + (n + 1) by omega] at this

/-- The loop rule for a body that always falls off its end. -/
theorem loopUp_inv {f : Nat → State → State} (P : Nat → State → Prop) (n a : Nat)
    (step : ∀ i s, a ≤ i → i < a + n → P i s → P (i + 1) (f i s)) (s : State) (h : P a s) :
    P (a + n) (loopUp n a f s) := by
  induction n generalizing a s with
  | zero => simpa using h
  | succ n ih =>
    have := ih (a + 1) (fun i s h1 h2 => step i s (by omega) (by omega)) _ (step a s (Nat.le_refl a) (by omega) h)
    rwa [show a + 1 + n = a + (n + 1) by omega] at this

/-! ## The acceptance check and the end of a command -/

theorem accept_of_ready {s : State} (h : s.faulted = false) (run : State → Result) : accept s run = run s := by
  simp [accept, h]

theorem accept_of_faulted {s : State} (h : s.faulted = true) (run : State → Result) :
    accept s run = .next (report .faulted s) := by
  simp [accept, h]

@[simp] theorem conclude_go (s : State) : conclude (.go s) = .next (succeed (s.enter .idle)) := rfl
@[simp] theorem conclude_done (s : State) : conclude (.stop .done s) = .next (succeed (s.enter .idle)) := rfl
@[simp] theorem conclude_refuse (c : Cause) (s : State) :
    conclude (.stop (.refuse c) s) = .next (report c s) := rfl
@[simp] theorem conclude_fail (c : Cause) (s : State) :
    conclude (.stop (.fail c) s) = .next (report c (s.enter .idle)) := rfl
@[simp] theorem conclude_fatal (f : FCode) (s : State) :
    conclude (.stop (.fatal f) s) = .next (raiseFatal f (s.enter .idle)) := rfl
@[simp] theorem conclude_undef (r : Fault) (s : State) : conclude (.stop (.undef r) s) = .fault r := rfl

end Sys2Proof.Machine
end

