-- ==== Sys2Proof/Laws/Store.lean ====
section
/-! SUPPORT. The laws of a store: read after write, canonical form kept, equality of canonical stores. -/

namespace Sys2Proof.Machine.Store

variable {α : Type} [DecidableEq α] {d : α} {hi lo : Nat} {m : List (Nat × α)}

@[simp] theorem wfFrom_nil : wfFrom d hi lo [] = true := rfl

theorem wfFrom_cons {k : Nat} {v : α} {r : List (Nat × α)} :
    wfFrom d hi lo ((k, v) :: r) = true ↔ lo ≤ k ∧ k < hi ∧ v ≠ d ∧ wfFrom d hi (k + 1) r = true := by
  simp [wfFrom, and_assoc]

/-- A lower bound may be lowered. -/
theorem wfFrom_mono {lo' : Nat} (h : wfFrom d hi lo m = true) (hl : lo' ≤ lo) : wfFrom d hi lo' m = true := by
  cases m with
  | nil => rfl
  | cons p r =>
    obtain ⟨k, v⟩ := p
    rw [wfFrom_cons] at *
    exact ⟨by omega, h.2⟩

/-- Below the lower bound nothing is listed. -/
theorem get_of_lt (h : wfFrom d hi lo m = true) {b : Nat} (hb : b < lo) : get d m b = d := by
  induction m generalizing lo with
  | nil => rfl
  | cons p r ih =>
    obtain ⟨k, v⟩ := p
    rw [wfFrom_cons] at h
    rw [get, if_neg (by omega)]
    exact ih h.2.2.2 (by omega)

/-- At and above the upper bound nothing is listed. -/
theorem get_of_ge (h : wfFrom d hi lo m = true) {b : Nat} (hb : hi ≤ b) : get d m b = d := by
  induction m generalizing lo with
  | nil => rfl
  | cons p r ih =>
    obtain ⟨k, v⟩ := p
    rw [wfFrom_cons] at h
    rw [get, if_neg (by omega)]
    exact ih h.2.2.2

/-- Read after write, at the same index and at another. -/
theorem get_put (h : wfFrom d hi lo m = true) (a : Nat) (v : α) (b : Nat) :
    get d (put d m a v) b = if b = a then v else get d m b := by
  induction m generalizing lo with
  | nil => by_cases hv : v = d <;> simp [put, get, hv]
  | cons p r ih =>
    obtain ⟨k, w⟩ := p
    rw [wfFrom_cons] at h
    have hlow : ∀ c, c ≤ k → get d r c = d := fun c hc => get_of_lt h.2.2.2 (by omega)
    simp only [put]
    split
    · split
      · by_cases hb : b = a
        · rw [if_pos hb, get, if_neg (by omega), hlow b (by omega)]; exact Eq.symm ‹v = d›
        · rw [if_neg hb]
      · simp [get]
    · split
      · rename_i _ hak
        split
        · by_cases hb : b = a
          · rw [if_pos hb, hlow b (by omega)]; exact Eq.symm ‹v = d›
          · rw [if_neg hb, get, if_neg (by omega)]
        · by_cases hb : b = a
          · simp [get, hb]
          · rw [if_neg hb, get, get, if_neg hb, if_neg (by omega)]
      · have := ih h.2.2.2
        by_cases hk : b = k
        · subst hk; simp [get, show b ≠ a by omega]
        · simp [get, hk, this]

/-- A write inside the bounds keeps the canonical form. -/
theorem wfFrom_put (h : wfFrom d hi lo m = true) {a : Nat} (v : α) (hl : lo ≤ a) (hh : a < hi) :
    wfFrom d hi lo (put d m a v) = true := by
  induction m generalizing lo with
  | nil => by_cases hv : v = d <;> simp [put, wfFrom, hv, hl, hh]
  | cons p r ih =>
    obtain ⟨k, w⟩ := p
    have hc := wfFrom_cons.1 h
    simp only [put]
    split
    · split
      · exact h
      · rename_i hak hv
        rw [wfFrom_cons, wfFrom_cons]
        exact ⟨hl, hh, hv, by omega, hc.2.1, hc.2.2.1, hc.2.2.2⟩
    · split
      · split
        · exact wfFrom_mono hc.2.2.2 (by omega)
        · rename_i hv
          subst_vars
          rw [wfFrom_cons]
          exact ⟨hl, hh, hv, hc.2.2.2⟩
      · rw [wfFrom_cons]
        exact ⟨hc.1, hc.2.1, hc.2.2.1, ih hc.2.2.2 (by omega)⟩

/-- Canonical stores that read the same everywhere are equal. -/
theorem ext_of_get {m' : List (Nat × α)} (h : wfFrom d hi lo m = true) (h' : wfFrom d hi lo m' = true)
    (e : ∀ a, get d m a = get d m' a) : m = m' := by
  induction m generalizing lo m' with
  | nil =>
    cases m' with
    | nil => rfl
    | cons q r' =>
      obtain ⟨k', w'⟩ := q
      have hc' := wfFrom_cons.1 h'
      have := e k'
      simp only [get, if_pos] at this
      exact absurd this.symm hc'.2.2.1
  | cons p r ih =>
    obtain ⟨k, w⟩ := p
    have hc := wfFrom_cons.1 h
    cases m' with
    | nil =>
      have := e k
      simp only [get, if_pos] at this
      exact absurd this hc.2.2.1
    | cons q r' =>
      obtain ⟨k', w'⟩ := q
      have hc' := wfFrom_cons.1 h'
      have hk : k = k' := by
        rcases Nat.lt_trichotomy k k' with hlt | heq | hgt
        · have := e k
          simp only [get, if_pos, if_neg (show k ≠ k' by omega)] at this
          rw [get_of_lt hc'.2.2.2 (by omega)] at this
          exact absurd this hc.2.2.1
        · exact heq
        · have := e k'
          simp only [get, if_pos, if_neg (show k' ≠ k by omega)] at this
          rw [get_of_lt hc.2.2.2 (by omega)] at this
          exact absurd this.symm hc'.2.2.1
      subst hk
      have hw : w = w' := by simpa [get] using e k
      subst hw
      congr 1
      refine ih hc.2.2.2 hc'.2.2.2 fun a => ?_
      by_cases ha : a = k
      · subst ha
        rw [get_of_lt hc.2.2.2 (by omega), get_of_lt hc'.2.2.2 (by omega)]
      · simpa [get, ha] using e a

theorem wf_put (h : wf d hi m = true) {a : Nat} (v : α) (hh : a < hi) : wf d hi (put d m a v) = true :=
  wfFrom_put h v (Nat.zero_le a) hh

/-- Writing what is already there changes nothing. -/
theorem put_get (h : wf d hi m = true) {a : Nat} (hh : a < hi) : put d m a (get d m a) = m :=
  ext_of_get (wf_put h _ hh) h fun b => by
    rw [get_put h]
    split
    · rename_i hb; rw [hb]
    · rfl

/-- A later write to the same index decides. -/
theorem put_put (h : wf d hi m = true) {a : Nat} (v w : α) (hh : a < hi) :
    put d (put d m a v) a w = put d m a w :=
  ext_of_get (wf_put (wf_put h _ hh) _ hh) (wf_put h _ hh) fun b => by
    rw [get_put (wf_put h _ hh), get_put h, get_put h]
    split <;> rfl

/-- The store made from a raw list is canonical. -/
theorem wf_ofList (l : List (Nat × α)) : wf d hi (ofList d hi l) = true := by
  induction l with
  | nil => rfl
  | cons p r ih =>
    obtain ⟨k, v⟩ := p
    rw [ofList]
    split
    · rename_i hk; exact wf_put ih v hk
    · exact ih

/-- A canonical store that reads as unlisted everywhere lists nothing. -/
theorem eq_nil_of_get (h : wf d hi m = true) (e : ∀ a, a < hi → get d m a = d) : m = [] :=
  ext_of_get h rfl fun a => by
    by_cases ha : a < hi
    · exact e a ha
    · exact get_of_ge h (by omega)

end Sys2Proof.Machine.Store
end

