-- ==== Sys2Proof/Laws/Count.lean ====
section
/-! SUPPORT. The frequency counter: FCOUNT leaves in FREQ the number of occurrences of every symbol in the input, and changes
nothing else but INIDX and SEQ. -/

namespace Sys2Proof.Machine

theorem symOf_toNat {i : Nat} (h : i < numSyms) : (symOf i).toNat = i := by
  simp only [symOf, BitVec.toNat_ofNat]
  exact Nat.mod_eq_of_lt h

theorem symOf_toNat_self (x : Sym) : symOf x.toNat = x := by simp [symOf]

theorem freqAt_putFreq {s : State} (h : Store.wf unlisted.freq numSyms s.freq = true) (x : Sym) (v : Count) (y : Sym) :
    (s.putFreq x v).freqAt y = if y = x then v else s.freqAt y := by
  unfold State.freqAt
  rw [putFreq_freq, Store.get_put h]
  simp only [BitVec.toNat_inj]

theorem wf_putFreq {s : State} (h : Store.wf unlisted.freq numSyms s.freq = true) (x : Sym) (v : Count) :
    Store.wf unlisted.freq numSyms (s.putFreq x v).freq = true :=
  Store.wf_put h v x.isLt

/-- The first loop of FCOUNT (R121). -/
theorem clearFreq_eq (s : State) (h : Store.wf unlisted.freq numSyms s.freq = true) :
    loopUp numSyms 0 (fun i t => t.putFreq (symOf i) 0#32) s = { s with freq := [] } := by
  have hf := loopUp_inv (f := fun i t => t.putFreq (symOf i) 0#32)
    (fun i t => t = { s with freq := t.freq } ∧ Store.wf unlisted.freq numSyms t.freq = true ∧
      ∀ a, a < i → Store.get unlisted.freq t.freq a = unlisted.freq) numSyms 0
    (fun i t _ hi ⟨he, hw, hg⟩ => by
      refine ⟨?_, ?_, fun a ha => ?_⟩
      · rw [he]; rfl
      · exact wf_putFreq hw _ _
      · rw [putFreq_freq, Store.get_put hw, symOf_toNat (by omega)]
        split
        · rfl
        · exact hg a (by omega)) s ⟨rfl, h, fun a ha => absurd ha (by omega)⟩
  have hn := Store.eq_nil_of_get hf.2.1 (fun a ha => hf.2.2 a (by omega))
  refine hf.1.trans ?_
  rw [hn]

/-- What FCOUNT does (R121): FREQ[x] is the number of input bytes equal to x; only FREQ, INIDX and SEQ change. -/
theorem fcount_spec (s : State) (h : Store.wf unlisted.freq numSyms s.freq = true) :
    fcount s = { s with freq := (fcount s).freq, inIdx := (fcount s).inIdx, seq := .fcount } ∧
    Store.wf unlisted.freq numSyms (fcount s).freq = true ∧
    ∀ x, ((fcount s).freqAt x).toNat = s.input.count x := by
  have hlen : s.len.toNat < 2 ^ 32 := s.len.isLt
  have key := loopUp_inv (f := fcountByte)
    (fun i t => t = { s with freq := t.freq, inIdx := t.inIdx, seq := .fcount } ∧
      Store.wf unlisted.freq numSyms t.freq = true ∧
      ∀ x, (t.freqAt x).toNat = ((List.range i).map s.inAt).count x) s.len.toNat 0
    (fun i t _ hi ⟨he, hw, hc⟩ => by
      have hin : t.inAt i = s.inAt i := by unfold State.inAt; rw [he]
      refine ⟨?_, ?_, fun x => ?_⟩
      · unfold fcountByte
        rw [he]
        rfl
      · exact wf_putFreq hw _ _
      · have hx : ((fcountByte i t).freqAt x) = (t.putFreq (t.inAt i) (t.freqAt (t.inAt i) + 1#32)).freqAt x := rfl
        rw [hx, freqAt_putFreq hw, hin, List.range_succ, List.map_append, List.count_append]
        have hle : ((List.range i).map s.inAt).count (s.inAt i) ≤ i := by
          refine (List.count_le_length).trans ?_
          simp
        split
        · rename_i hxe
          subst hxe
          have := hc (s.inAt i)
          simp only [BitVec.toNat_add, this, BitVec.toNat_ofNat, List.map_cons, List.map_nil,
            List.count_singleton_self]
          omega
        · rename_i hxe
          rw [hc x]
          simp only [List.map_cons, List.map_nil]
          rw [List.count_singleton]
          have : (s.inAt i == x) = false := by
            rw [beq_eq_false_iff_ne]
            exact fun h => hxe h.symm
          simp [this])
    (loopUp numSyms 0 (fun i t => t.putFreq (symOf i) 0#32) { s.enter .fcount with inIdx := 0#32 })
    (by
      rw [clearFreq_eq _ (by simpa using h)]
      exact ⟨rfl, rfl, fun x => rfl⟩)
  rw [Nat.zero_add] at key
  exact key

/-- All symbols. -/
def allSyms : List Sym := (List.range numSyms).map symOf

theorem mem_allSyms (x : Sym) : x ∈ allSyms :=
  List.mem_map.2 ⟨x.toNat, List.mem_range.2 x.isLt, symOf_toNat_self x⟩

theorem nodup_allSyms : allSyms.Nodup := by
  refine List.Nodup.map_on ?_ List.nodup_range
  intro a ha b hb h
  rw [← symOf_toNat (List.mem_range.1 ha), ← symOf_toNat (List.mem_range.1 hb), h]

/-- The counts of all symbols sum to the length (R122). -/
theorem sum_count (l : List Sym) : (allSyms.map (fun x => l.count x)).sum = l.length := by
  induction l with
  | nil => simp
  | cons a l ih =>
    have h1 : (allSyms.map (fun x => if a == x then 1 else 0)).sum = 1 := by
      have : ∀ xs : List Sym, xs.Nodup → a ∈ xs → (xs.map (fun x => if a == x then 1 else 0)).sum = 1 := by
        intro xs
        induction xs with
        | nil => intro _ h; cases h
        | cons x xs ihx =>
          intro hn hm
          obtain ⟨hx, hn'⟩ := List.nodup_cons.1 hn
          rw [List.map_cons, List.sum_cons]
          by_cases hax : a = x
          · subst hax
            have hz : (xs.map (fun x => if a == x then 1 else 0)).sum = 0 := by
              rw [List.sum_eq_zero_iff]
              intro m hm'
              obtain ⟨y, hy, rfl⟩ := List.mem_map.1 hm'
              rw [if_neg]
              rw [beq_iff_eq]
              rintro rfl
              exact hx hy
            rw [hz]
            simp
          · rw [ihx hn' ((List.mem_cons.1 hm).resolve_left hax), if_neg (by simpa using hax)]
      exact this allSyms nodup_allSyms (mem_allSyms a)
    have h2 : ∀ xs : List Sym, (xs.map (fun x => (a :: l).count x)).sum =
        (xs.map (fun x => l.count x)).sum + (xs.map (fun x => if a == x then 1 else 0)).sum := by
      intro xs
      induction xs with
      | nil => rfl
      | cons x xs ihx =>
        rw [List.map_cons, List.sum_cons, ihx, List.count_cons, List.map_cons, List.sum_cons, List.map_cons,
          List.sum_cons]
        omega
    rw [h2, ih, h1, List.length_cons]

/-- Dropping the terms that are zero keeps a sum. -/
theorem sum_filter (g : Sym → Count) (xs : List Sym) :
    ((xs.filter (fun x => g x ≠ 0#32)).map (fun x => (g x).toNat)).sum = (xs.map (fun x => (g x).toNat)).sum := by
  induction xs with
  | nil => rfl
  | cons x xs ih =>
    by_cases h : g x = 0#32
    · rw [List.filter_cons_of_neg (by simpa using h), ih, List.map_cons, List.sum_cons, h]
      simp
    · rw [List.filter_cons_of_pos (by simpa using h), List.map_cons, List.sum_cons, ih, List.map_cons, List.sum_cons]

@[simp] theorem length_input (s : State) : s.input.length = s.len.toNat := by simp [State.input]

end Sys2Proof.Machine
end

