-- ==== Sys2Proof/Laws/Queue.lean ====
section
/-! SUPPORT. The priority queue: `pop` answers an index of the queue whose key is minimal, whatever TIE is, and takes exactly that
index out. -/

namespace Sys2Proof.Machine

theorem minKey_le (s : State) (n : NodeIdx) (ns : List NodeIdx) : ∀ m ∈ n :: ns, s.minKey n ns ≤ s.key m := by
  induction ns generalizing n with
  | nil => intro m hm; simp at hm; subst hm; exact BitVec.le_refl _
  | cons a as ih =>
    intro m hm
    rw [State.minKey]
    rcases List.mem_cons.1 hm with rfl | hm'
    · split
      · exact BitVec.le_refl _
      · rename_i h; exact BitVec.not_lt.1 h
    · have := ih a m hm'
      split
      · rename_i h
        rw [BitVec.le_def] at *
        rw [BitVec.lt_def] at h
        omega
      · exact this

theorem minKey_attained (s : State) (n : NodeIdx) (ns : List NodeIdx) : ∃ m ∈ n :: ns, s.key m = s.minKey n ns := by
  induction ns generalizing n with
  | nil => exact ⟨n, by simp, rfl⟩
  | cons a as ih =>
    rw [State.minKey]
    split
    · exact ⟨n, by simp, rfl⟩
    · obtain ⟨m, hm, he⟩ := ih a
      exact ⟨m, List.mem_cons_of_mem _ hm, he⟩

theorem leastIdx_mem (n : NodeIdx) (ns : List NodeIdx) : leastIdx n ns ∈ n :: ns := by
  induction ns generalizing n with
  | nil => simp [leastIdx]
  | cons a as ih =>
    rw [leastIdx]
    split
    · simp
    · exact List.mem_cons_of_mem _ (ih a)

theorem greatestIdx_mem (n : NodeIdx) (ns : List NodeIdx) : greatestIdx n ns ∈ n :: ns := by
  induction ns generalizing n with
  | nil => simp [greatestIdx]
  | cons a as ih =>
    rw [greatestIdx]
    split
    · simp
    · exact List.mem_cons_of_mem _ (ih a)

/-- TIE chooses among the candidates (R132). -/
theorem pick_mem (t : Tie) (hist : List QEvent) (n : NodeIdx) (ns : List NodeIdx) : pick t hist n ns ∈ n :: ns := by
  cases ns with
  | nil => simp [pick]
  | cons a as =>
    cases t with
    | ref => exact leastIdx_mem n (a :: as)
    | alt => exact greatestIdx_mem n (a :: as)
    | free =>
      have hl : Config.tieChoice hist % (as.length + 2) < (n :: a :: as).length := by
        simp only [List.length_cons]
        exact Nat.mod_lt _ (by omega)
      simp only [pick]
      rw [List.getD_eq_getElem _ _ hl]
      exact List.getElem_mem hl

/-- The candidates are the members of minimal key (R132). -/
theorem mem_candidates (s : State) (n : NodeIdx) :
    n ∈ s.candidates ↔ n ∈ s.queue ∧ ∀ m ∈ s.queue, s.key n ≤ s.key m := by
  unfold State.candidates
  cases hq : s.queue with
  | nil => simp
  | cons q qs =>
    simp only [List.mem_filter, beq_iff_eq]
    constructor
    · rintro ⟨hm, he⟩
      exact ⟨hm, fun m hm' => by rw [he]; exact minKey_le s q qs m hm'⟩
    · rintro ⟨hm, hle⟩
      refine ⟨hm, ?_⟩
      obtain ⟨m, hm', he⟩ := minKey_attained s q qs
      have h1 := hle m hm'
      have h2 := minKey_le s q qs n hm
      rw [he] at h1
      rw [BitVec.le_def] at h1 h2
      exact BitVec.eq_of_toNat_eq (by omega)

theorem candidates_ne_nil {s : State} (h : s.queue ≠ []) : s.candidates ≠ [] := by
  cases hq : s.queue with
  | nil => exact absurd hq h
  | cons q qs =>
    obtain ⟨m, hm, he⟩ := minKey_attained s q qs
    have : m ∈ s.candidates := by
      rw [mem_candidates, hq]
      exact ⟨hm, fun m' hm' => by rw [he]; exact minKey_le s q qs m' hm'⟩
    exact List.ne_nil_of_mem this

/-- The state after the index `n` is taken out of the queue. -/
def State.popped (s : State) (n : NodeIdx) : State :=
  { s with queue := s.queue.erase n, qHist := .popped n :: s.qHist }

/-- Everything `pop` can do on a queue that is not empty (R131, R132). -/
theorem pop_spec (s : State) (h : s.queue ≠ []) :
    ∃ n, s.pop = some (n, s.popped n) ∧ n ∈ s.queue ∧ ∀ m ∈ s.queue, s.key n ≤ s.key m := by
  unfold State.pop
  cases hc : s.candidates with
  | nil => exact absurd hc (candidates_ne_nil h)
  | cons c cs =>
    have hm := pick_mem s.tie s.qHist c cs
    rw [← hc, mem_candidates] at hm
    exact ⟨_, rfl, hm⟩

theorem pop_eq_none (s : State) (h : s.queue = []) : s.pop = none := by
  simp [State.pop, State.candidates, h]

/-- `pop` reads only the queue, its history, TIE and the keys. -/
theorem pop_some {s t : State} {n : NodeIdx} (h : s.pop = some (n, t)) :
    t = s.popped n ∧ n ∈ s.queue ∧ ∀ m ∈ s.queue, s.key n ≤ s.key m := by
  have hq : s.queue ≠ [] := fun hq => by rw [pop_eq_none s hq] at h; cases h
  obtain ⟨m, hm, hin, hle⟩ := pop_spec s hq
  rw [hm] at h
  cases h
  exact ⟨rfl, hin, hle⟩

end Sys2Proof.Machine
end

