-- ==== Sys2Proof/Laws/Tree.lean ====
section
/-! SUPPORT. The code tree as an inductive object, what it means that the node store holds it, and its paths. -/

namespace Sys2Proof.Machine

/-- A code tree: every constructor names the index of its record. -/
inductive Tree where
  | leaf (n : NodeIdx)
  /-- the synthetic root of a one-symbol tree (R137) -/
  | wrap (n : NodeIdx) (l : Tree)
  | node (n : NodeIdx) (l r : Tree)
deriving DecidableEq, Repr

namespace Tree

/-- The index of the root record. -/
def root : Tree → NodeIdx
  | leaf n => n
  | wrap n _ => n
  | node n _ _ => n

/-- The indices of all records. -/
def idxs : Tree → List NodeIdx
  | leaf n => [n]
  | wrap n l => n :: l.idxs
  | node n l r => n :: (l.idxs ++ r.idxs)

/-- The indices of the leaf records, left to right. -/
def leaves : Tree → List NodeIdx
  | leaf n => [n]
  | wrap _ l => l.leaves
  | node _ l r => l.leaves ++ r.leaves

/-- The depth of the deepest leaf. -/
def height : Tree → Nat
  | leaf _ => 0
  | wrap _ l => l.height + 1
  | node _ l r => max l.height r.height + 1

/-- Every internal record has two children. -/
def Full : Tree → Prop
  | leaf _ => True
  | wrap _ _ => False
  | node _ l r => l.Full ∧ r.Full

/-- The records `f` hold the tree. -/
def Rep (f : NodeIdx → Node) : Tree → Prop
  | leaf n => n ≠ absent ∧ (f n).kind = .leaf
  | wrap n l => n ≠ absent ∧ (f n).kind = .internal ∧ (f n).left = l.root ∧ (f n).right = absent ∧ l.Rep f
  | node n l r => n ≠ absent ∧ (f n).kind = .internal ∧ (f n).left = l.root ∧ (f n).right = r.root ∧
      l.Rep f ∧ r.Rep f

/-- Every leaf with its path from the root, left = 0, right = 1 (R92). -/
def paths : Tree → List (NodeIdx × List Bool)
  | leaf n => [(n, [])]
  | wrap _ l => l.paths.map (fun p => (p.1, false :: p.2))
  | node _ l r => l.paths.map (fun p => (p.1, false :: p.2)) ++ r.paths.map (fun p => (p.1, true :: p.2))

theorem root_mem_idxs (T : Tree) : T.root ∈ T.idxs := by cases T <;> simp [root, idxs]

theorem leaves_subset_idxs (T : Tree) : ∀ n ∈ T.leaves, n ∈ T.idxs := by
  induction T with
  | leaf n => simp [leaves, idxs]
  | wrap n l ih => intro k hk; exact List.mem_cons_of_mem _ (ih k hk)
  | node n l r ihl ihr =>
    intro k hk
    rw [leaves, List.mem_append] at hk
    rw [idxs, List.mem_cons, List.mem_append]
    exact .inr (hk.imp (ihl k) (ihr k))

theorem leaves_ne_nil (T : Tree) : T.leaves ≠ [] := by
  induction T with
  | leaf n => simp [leaves]
  | wrap n l ih => exact ih
  | node n l r ihl ihr => simp [leaves, ihl]

theorem paths_fst (T : Tree) : T.paths.map Prod.fst = T.leaves := by
  induction T with
  | leaf n => rfl
  | wrap n l ih => simp [paths, leaves, ← ih, Function.comp_def]
  | node n l r ihl ihr => simp [paths, leaves, ← ihl, ← ihr, Function.comp_def]

/-- In a tree whose internal records have two children, the depth is below the number of leaves (R157). -/
theorem height_lt_leaves {T : Tree} (h : T.Full) : T.height < T.leaves.length := by
  induction T with
  | leaf n => simp [height, leaves]
  | wrap n l ih => exact h.elim
  | node n l r ihl ihr =>
    have h1 := ihl h.1
    have h2 := ihr h.2
    simp only [height, leaves, List.length_append]
    omega

theorem path_length_le {T : Tree} : ∀ p ∈ T.paths, p.2.length ≤ T.height := by
  induction T with
  | leaf n => simp [paths, height]
  | wrap n l ih =>
    intro p hp
    rw [paths, List.mem_map] at hp
    obtain ⟨q, hq, rfl⟩ := hp
    have := ih q hq
    simp only [height, List.length_cons]
    omega
  | node n l r ihl ihr =>
    intro p hp
    rw [paths, List.mem_append, List.mem_map, List.mem_map] at hp
    simp only [height]
    rcases hp with ⟨q, hq, rfl⟩ | ⟨q, hq, rfl⟩
    · have := ihl q hq
      simp only [List.length_cons]
      omega
    · have := ihr q hq
      simp only [List.length_cons]
      omega

theorem Rep.root_ne {f : NodeIdx → Node} {T : Tree} (h : T.Rep f) : T.root ≠ absent := by
  cases T <;> exact h.1

/-- A tree is held by any records that agree on its indices. -/
theorem Rep.congr {f g : NodeIdx → Node} {T : Tree} (h : T.Rep f) (e : ∀ n ∈ T.idxs, g n = f n) : T.Rep g := by
  induction T with
  | leaf n => exact ⟨h.1, by rw [e n (by simp [idxs])]; exact h.2⟩
  | wrap n l ih =>
    obtain ⟨h1, h2, h3, h4, h5⟩ := h
    have hn := e n (by simp [idxs])
    exact ⟨h1, by rw [hn]; exact h2, by rw [hn]; exact h3, by rw [hn]; exact h4,
      ih h5 fun k hk => e k (by simp [idxs, hk])⟩
  | node n l r ihl ihr =>
    obtain ⟨h1, h2, h3, h4, h5, h6⟩ := h
    have hn := e n (by simp [idxs])
    exact ⟨h1, by rw [hn]; exact h2, by rw [hn]; exact h3, by rw [hn]; exact h4,
      ihl h5 fun k hk => e k (by simp [idxs, hk]), ihr h6 fun k hk => e k (by simp [idxs, hk])⟩

/-- A tree is held by any records that agree on kinds and links. -/
theorem Rep.congr_links {f g : NodeIdx → Node} {T : Tree} (h : T.Rep f)
    (e : ∀ n, (g n).kind = (f n).kind ∧ (g n).left = (f n).left ∧ (g n).right = (f n).right) : T.Rep g := by
  induction T with
  | leaf n => exact ⟨h.1, (e n).1.trans h.2⟩
  | wrap n l ih =>
    obtain ⟨h1, h2, h3, h4, h5⟩ := h
    exact ⟨h1, (e n).1.trans h2, (e n).2.1.trans h3, (e n).2.2.trans h4, ih h5⟩
  | node n l r ihl ihr =>
    obtain ⟨h1, h2, h3, h4, h5, h6⟩ := h
    exact ⟨h1, (e n).1.trans h2, (e n).2.1.trans h3, (e n).2.2.trans h4, ihl h5, ihr h6⟩

theorem Rep.leaf_kind {f : NodeIdx → Node} {T : Tree} (h : T.Rep f) :
    ∀ n ∈ T.leaves, n ≠ absent ∧ (f n).kind = .leaf := by
  induction T with
  | leaf n => intro k hk; rw [leaves, List.mem_singleton] at hk; subst hk; exact h
  | wrap n l ih => exact ih h.2.2.2.2
  | node n l r ihl ihr =>
    intro k hk
    rw [leaves, List.mem_append] at hk
    exact hk.elim (ihl h.2.2.2.2.1 k) (ihr h.2.2.2.2.2 k)

end Tree

end Sys2Proof.Machine
end

