-- ==== Sys2Proof/Laws/Build.lean ====
section
/-! SUPPORT. The tree builder: QINIT makes one leaf per present symbol, every MERGE joins two trees of the forest, and BUILD
leaves one tree that holds every allocated record. -/

namespace Sys2Proof.Machine

/-! ## Small facts -/

theorem nodeAt_putNode {s : State} (h : Store.wf unlisted.node numNodes s.node = true) (n : NodeIdx) (r : Node)
    (k : NodeIdx) : (s.putNode n r).nodeAt k = if k = n then r else s.nodeAt k := by
  unfold State.nodeAt
  rw [putNode_node, Store.get_put h]
  simp only [BitVec.toNat_inj]

theorem wf_putNode {s : State} (h : Store.wf unlisted.node numNodes s.node = true) {n : NodeIdx} (r : Node)
    (hn : n.toNat < numNodes) : Store.wf unlisted.node numNodes (s.putNode n r).node = true :=
  Store.wf_put h r hn

theorem ne_absent_of_lt {n : NodeIdx} (h : n.toNat < numNodes) : n ≠ absent := by
  rintro rfl
  exact absurd h (by decide)

/-- The indices 0 .. n−1. -/
def idxRange (n : Nat) : List NodeIdx := (List.range n).map (BitVec.ofNat 9)

theorem mem_idxRange {n : Nat} (k : NodeIdx) : k ∈ idxRange n ↔ k.toNat < n := by
  simp only [idxRange, List.mem_map, List.mem_range]
  constructor
  · rintro ⟨a, ha, rfl⟩
    rw [BitVec.toNat_ofNat]
    exact Nat.lt_of_le_of_lt (Nat.mod_le _ _) ha
  · intro h
    exact ⟨k.toNat, h, by simp⟩

theorem idxRange_succ (n : Nat) : idxRange (n + 1) = idxRange n ++ [BitVec.ofNat 9 n] := by
  simp [idxRange, List.range_succ]

theorem nodup_idxRange {n : Nat} (hn : n ≤ numNodes) : (idxRange n).Nodup := by
  refine List.Nodup.map_on ?_ List.nodup_range
  intro a ha b hb h
  have ha' : a < n := List.mem_range.1 ha
  have hb' : b < n := List.mem_range.1 hb
  have hN : numNodes = 511 := rfl
  have := congrArg BitVec.toNat h
  simp only [BitVec.toNat_ofNat] at this
  omega

@[simp] theorem length_idxRange (n : Nat) : (idxRange n).length = n := by simp [idxRange]

/-- The fields BUILD may change (R130, R77). -/
def BuildFrame (s t : State) : Prop :=
  t = { s with node := t.node, nNode := t.nNode, queue := t.queue, qHist := t.qHist, root := t.root, seq := t.seq }

theorem BuildFrame.refl (s : State) : BuildFrame s s := rfl

theorem BuildFrame.trans {s t u : State} (h : BuildFrame s t) (h' : BuildFrame t u) : BuildFrame s u := by
  unfold BuildFrame at *
  rw [h']; rw [h]

theorem BuildFrame.enter (m : Seq) (s : State) : BuildFrame s (s.enter m) := rfl
theorem BuildFrame.popped (s : State) (n : NodeIdx) : BuildFrame s (s.popped n) := rfl
theorem BuildFrame.allocPush (r : Node) (s : State) : BuildFrame s (s.allocPush r) := rfl
theorem BuildFrame.freq_eq {s t : State} (h : BuildFrame s t) : t.freq = s.freq := by rw [h]

/-! ## Allocation (the last three lines of R133, R136, R137) -/

theorem allocPush_node (r : Node) (s : State) : (s.allocPush r).node = (s.putNode s.nNode r).node := rfl
theorem allocPush_nNode (r : Node) (s : State) : (s.allocPush r).nNode = s.nNode + 1#9 := rfl
theorem allocPush_queue (r : Node) (s : State) : (s.allocPush r).queue = s.queue ++ [s.nNode] := rfl

theorem allocPush_nodeAt {s : State} (h : Store.wf unlisted.node numNodes s.node = true) (r : Node) (k : NodeIdx) :
    (s.allocPush r).nodeAt k = if k = s.nNode then r else s.nodeAt k := by
  have : (s.allocPush r).nodeAt k = (s.putNode s.nNode r).nodeAt k := rfl
  rw [this, nodeAt_putNode h]

/-! ## QINIT -/

theorem presentSyms_prefix (g : Sym → Count) (i : Nat) :
    ((List.range (i + 1)).map symOf).filter (fun x => g x ≠ 0#32) =
      ((List.range i).map symOf).filter (fun x => g x ≠ 0#32) ++ (if g (symOf i) = 0#32 then [] else [symOf i]) := by
  rw [List.range_succ, List.map_append, List.filter_append]
  congr 1
  by_cases h : g (symOf i) = 0#32 <;> simp [h]

/-- What QINIT does (R133): with `L` the present symbols in ascending order, record k is the leaf of `L[k]`, NNODE and the size
of the queue are the length of `L`, the queue holds 0 .. S−1, other records keep their contents. -/
theorem qinit_spec (s : State) (h : Store.wf unlisted.node numNodes s.node = true) :
    BuildFrame s (qinit s) ∧ Store.wf unlisted.node numNodes (qinit s).node = true ∧
    (qinit s).nNode.toNat = (presentSyms s.freqAt).length ∧
    (qinit s).queue = idxRange (presentSyms s.freqAt).length ∧
    (∀ (k : Nat) (hk : k < (presentSyms s.freqAt).length), (qinit s).nodeAt (BitVec.ofNat 9 k) =
      leafNode (presentSyms s.freqAt)[k] (s.freqAt (presentSyms s.freqAt)[k])) ∧
    (∀ n : NodeIdx, (presentSyms s.freqAt).length ≤ n.toNat → (qinit s).nodeAt n = s.nodeAt n) := by
  let L : Nat → List Sym := fun i => ((List.range i).map symOf).filter (fun x => s.freqAt x ≠ 0#32)
  have hLlen : ∀ i, (L i).length ≤ i := fun i => by
    refine (List.length_filter_le _ _).trans ?_
    simp
  have key := loopUp_inv (f := qinitSym)
    (fun i t => BuildFrame s t ∧ Store.wf unlisted.node numNodes t.node = true ∧
      t.nNode.toNat = (L i).length ∧ t.queue = idxRange (L i).length ∧
      (∀ (k : Nat) (hk : k < (L i).length), t.nodeAt (BitVec.ofNat 9 k) = leafNode (L i)[k] (s.freqAt (L i)[k])) ∧
      (∀ n : NodeIdx, (L i).length ≤ n.toNat → t.nodeAt n = s.nodeAt n)) numSyms 0
    (fun i t _ hi ⟨hf, hw, hn, hq, hl, ho⟩ => by
      have hi' : i < 256 := by simpa using hi
      have hN : numNodes = 511 := rfl
      have hlen := hLlen i
      have hfr : t.freqAt (symOf i) = s.freqAt (symOf i) := by unfold State.freqAt; rw [hf.freq_eq]
      have hLs : L (i + 1) = L i ++ (if s.freqAt (symOf i) = 0#32 then [] else [symOf i]) :=
        presentSyms_prefix s.freqAt i
      unfold qinitSym
      rw [hfr]
      split
      · rename_i h0
        rw [hLs, if_pos h0, List.append_nil]
        exact ⟨hf, hw, hn, hq, hl, ho⟩
      · rename_i h0
        rw [hLs, if_neg h0]
        have hlt : t.nNode.toNat < numNodes := by omega
        refine ⟨hf.trans (BuildFrame.allocPush _ _), wf_putNode hw _ hlt, ?_, ?_, ?_, ?_⟩
        · rw [allocPush_nNode, BitVec.toNat_add, hn, List.length_append, List.length_singleton, BitVec.toNat_ofNat]
          omega
        · rw [allocPush_queue, hq, List.length_append, List.length_singleton, idxRange_succ, ← hn]
          simp
        · intro k hk
          rw [allocPush_nodeAt hw]
          have hk' : k < (L i).length + 1 := by simpa using hk
          have hkN : (BitVec.ofNat 9 k).toNat = k := by
            rw [BitVec.toNat_ofNat]; omega
          by_cases hke : k = (L i).length
          · have : BitVec.ofNat 9 k = t.nNode := BitVec.eq_of_toNat_eq (by rw [hkN, hn, hke])
            rw [if_pos this]
            subst hke
            simp
          · have hlt' : k < (L i).length := by omega
            have : BitVec.ofNat 9 k ≠ t.nNode := fun e => by
              have := congrArg BitVec.toNat e
              rw [hkN, hn] at this
              omega
            rw [if_neg this, hl k hlt', List.getElem_append_left hlt']
        · intro n hn'
          rw [List.length_append, List.length_singleton] at hn'
          rw [allocPush_nodeAt hw, if_neg (fun e => by rw [e, hn] at hn'; omega)]
          exact ho n (by omega))
    { s.enter .qinit with queue := [], qHist := [], nNode := 0#9 }
    ⟨rfl, h, rfl, rfl, fun k hk => absurd hk (by simp [L]), fun n _ => rfl⟩
  rw [Nat.zero_add] at key
  exact key

/-! ## The forest (R134, R136) -/

/-- The frequency of the leaf at an index, when the leaves are those of the symbols `L`. -/
def leafWeight (L : List Sym) (g : Sym → Count) (n : NodeIdx) : Nat := (g (L.getD n.toNat 0#8)).toNat

/-- The sum of the frequencies of a tree's leaves. -/
def Tree.weight (L : List Sym) (g : Sym → Count) (T : Tree) : Nat := (T.leaves.map (leafWeight L g)).sum

/-- During BUILD the queue holds the roots of a forest of full trees that share out every allocated record and every leaf; the
merges made so far have taken the records in order of frequency; records not allocated are those of `o`. -/
structure Forest (L : List Sym) (g : Sym → Count) (o t : State) (ts : List Tree) : Prop where
  wf : Store.wf unlisted.node numNodes t.node = true
  bound : t.nNode.toNat + ts.length = 2 * L.length
  enough : L.length ≤ t.nNode.toNat
  roots : (ts.map Tree.root).Perm t.queue
  rep : ∀ T ∈ ts, T.Rep t.nodeAt
  full : ∀ T ∈ ts, T.Full
  idxs : (ts.flatMap Tree.idxs).Perm (idxRange t.nNode.toNat)
  leaves : (ts.flatMap Tree.leaves).Perm (idxRange L.length)
  leafRec : ∀ (k : Nat) (hk : k < L.length), t.nodeAt (BitVec.ofNat 9 k) = leafNode L[k] (g L[k])
  intRec : ∀ n : NodeIdx, L.length ≤ n.toNat → n.toNat < t.nNode.toNat →
    ∃ l r, t.nodeAt n = internalNode (t.key l + t.key r) l r ∧ l.toNat < n.toNat ∧ r.toNat < n.toNat ∧
      t.key l ≤ t.key r
  mono : ∀ n n' : NodeIdx, L.length ≤ n.toNat → n.toNat < n'.toNat → n'.toNat < t.nNode.toNat →
    t.key (t.nodeAt n).right ≤ t.key (t.nodeAt n').left
  qmono : ∀ n : NodeIdx, L.length ≤ n.toNat → n.toNat < t.nNode.toNat → ∀ q ∈ t.queue,
    t.key (t.nodeAt n).right ≤ t.key q
  weight : ∀ T ∈ ts, (t.key T.root).toNat = T.weight L g
  keep : ∀ n : NodeIdx, t.nNode.toNat ≤ n.toNat → t.nodeAt n = o.nodeAt n

theorem Forest.queue_length {L : List Sym} {g : Sym → Count} {o t : State} {ts : List Tree} (h : Forest L g o t ts) :
    t.queue.length = ts.length := by
  rw [← h.roots.length_eq, List.length_map]

theorem Forest.root_lt {L : List Sym} {g : Sym → Count} {o t : State} {ts : List Tree} (h : Forest L g o t ts)
    {n : NodeIdx} (hn : n ∈ t.queue) : n.toNat < t.nNode.toNat := by
  rw [← mem_idxRange]
  refine h.idxs.subset ?_
  obtain ⟨T, hT, rfl⟩ := List.mem_map.1 (h.roots.symm.subset hn)
  exact List.mem_flatMap.2 ⟨T, hT, T.root_mem_idxs⟩

theorem Forest.idx_lt {L : List Sym} {g : Sym → Count} {o t : State} {ts : List Tree} (h : Forest L g o t ts)
    {T : Tree} (hT : T ∈ ts) {n : NodeIdx} (hn : n ∈ T.idxs) : n.toNat < t.nNode.toNat := by
  rw [← mem_idxRange]
  exact h.idxs.subset (List.mem_flatMap.2 ⟨T, hT, hn⟩)

theorem presentSyms_length_le (g : Sym → Count) : (presentSyms g).length ≤ numSyms := by
  refine (List.length_filter_le _ _).trans ?_
  simp

/-- All leaves together weigh what the present symbols weigh. -/
theorem total_weight {L : List Sym} {g : Sym → Count} {ts : List Tree} (hL : L.length ≤ numNodes)
    (h : (ts.flatMap Tree.leaves).Perm (idxRange L.length)) :
    (ts.map (Tree.weight L g)).sum = (L.map (fun x => (g x).toNat)).sum := by
  have h1 : (ts.map (Tree.weight L g)).sum = ((ts.flatMap Tree.leaves).map (leafWeight L g)).sum := by
    clear h
    induction ts with
    | nil => rfl
    | cons T ts ih =>
      rw [List.map_cons, List.sum_cons, ih, List.flatMap_cons, List.map_append, List.sum_append]
      rfl
  rw [h1, (h.map _).sum_eq]
  congr 1
  refine List.ext_getElem (by simp) fun i h1 h2 => ?_
  have hi : i < L.length := by simpa using h2
  have hN : numNodes = 511 := rfl
  have : i % 512 = i := by omega
  simp [idxRange, leafWeight, hi, this]

/-- What MERGE does to the forest (R136): the two trees of least frequency become the children of a new record. -/
theorem merge_forest {L : List Sym} {g : Sym → Count} {o t : State} {ts : List Tree} (h : Forest L g o t ts)
    (hL : L.length ≤ numSyms) (hsum : (L.map (fun x => (g x).toNat)).sum < 2 ^ 32) (h2 : 2 ≤ ts.length) :
    ∃ t' ts', merge t = .go t' ∧ Forest L g o t' ts' ∧ ts'.length + 1 = ts.length ∧ BuildFrame t t' := by
  have hN : numNodes = 511 := rfl
  have hS : numSyms = 256 := rfl
  have hql := h.queue_length
  have hb := h.bound
  -- the first pop
  obtain ⟨a, hpa, hain, hale⟩ := pop_spec (t.enter .merge) (by
    intro hq; have : t.queue.length = 0 := congrArg List.length hq; omega)
  obtain ⟨Ta, hTa, hra⟩ := List.mem_map.1 (h.roots.symm.subset hain)
  have hp1 : ts.Perm (Ta :: ts.erase Ta) := List.perm_cons_erase hTa
  have hr1 : ((ts.erase Ta).map Tree.root).Perm (t.queue.erase a) := by
    have e1 : (Ta :: ts.erase Ta).map Tree.root |>.Perm t.queue := (hp1.map _).symm.trans h.roots
    rw [List.map_cons, hra] at e1
    exact (e1.trans (List.perm_cons_erase hain)).cons_inv
  have hl1 : (ts.erase Ta).length + 1 = ts.length := by
    rw [List.length_erase_of_mem hTa]; omega
  -- the second pop
  obtain ⟨b, hpb, hbin, hble⟩ := pop_spec ((t.enter .merge).popped a) (by
    intro hq
    have : (t.queue.erase a).length = 0 := congrArg List.length hq
    rw [← hr1.length_eq, List.length_map] at this
    omega)
  have hbin' : b ∈ t.queue.erase a := hbin
  obtain ⟨Tb, hTb, hrb⟩ := List.mem_map.1 (hr1.symm.subset hbin')
  have hTb' : Tb ∈ ts := List.mem_of_mem_erase hTb
  generalize hrest : (ts.erase Ta).erase Tb = rest
  have hp2 : (ts.erase Ta).Perm (Tb :: rest) := hrest ▸ List.perm_cons_erase hTb
  have hp : ts.Perm (Ta :: Tb :: rest) := hp1.trans (hp2.cons Ta)
  have hr2 : (rest.map Tree.root).Perm ((t.queue.erase a).erase b) := by
    have e1 : (Tb :: rest).map Tree.root |>.Perm (t.queue.erase a) := (hp2.map _).symm.trans hr1
    rw [List.map_cons, hrb] at e1
    exact (e1.trans (List.perm_cons_erase hbin')).cons_inv
  have hl2 : rest.length + 2 = ts.length := by
    have := hp.length_eq
    simp only [List.length_cons] at this
    omega
  have hin : ∀ T ∈ rest, T ∈ ts := fun T hT => hp.symm.subset (by simp [hT])
  -- the new state
  let s2 : State := ((t.enter .merge).popped a).popped b
  have hm : t.nNode.toNat < numNodes := by omega
  have hka : s2.key a = t.key a := rfl
  have hkb : s2.key b = t.key b := rfl
  let R : Node := internalNode (t.key a + t.key b) a b
  have hmerge : merge t = .go (s2.allocPush R) := by
    unfold merge
    rw [hpa]
    simp only [hpb]
    rfl
  have hat : ∀ k, (s2.allocPush R).nodeAt k = if k = t.nNode then R else t.nodeAt k := fun k =>
    allocPush_nodeAt (s := s2) h.wf R k
  have hlt : ∀ k : NodeIdx, k.toNat < t.nNode.toNat → (s2.allocPush R).nodeAt k = t.nodeAt k := fun k hk => by
    rw [hat, if_neg]
    rintro rfl
    exact absurd hk (Nat.lt_irrefl _)
  have hkey : ∀ k : NodeIdx, k.toNat < t.nNode.toNat → (s2.allocPush R).key k = t.key k := fun k hk => by
    unfold State.key; rw [hlt k hk]
  have hnn : (s2.allocPush R).nNode.toNat = t.nNode.toNat + 1 := by
    show (t.nNode + 1#9).toNat = _
    rw [BitVec.toNat_add, BitVec.toNat_ofNat]
    omega
  have halt : a.toNat < t.nNode.toNat := h.root_lt hain
  have hblt : b.toNat < t.nNode.toNat := h.root_lt (List.mem_of_mem_erase hbin')
  have hkab : t.key a ≤ t.key b := hale b (List.mem_of_mem_erase hbin')
  have hnew : (s2.allocPush R).nodeAt t.nNode = R := by rw [hat, if_pos rfl]
  have hmr : t.nNode = BitVec.ofNat 9 t.nNode.toNat := by simp
  have hcong : ∀ T ∈ ts, T.Rep (s2.allocPush R).nodeAt := fun T hT =>
    (h.rep T hT).congr fun n hn => hlt n (h.idx_lt hT hn)
  have hwab : (t.key a).toNat + (t.key b).toNat < 2 ^ 32 := by
    have e := total_weight (g := g) (by omega) h.leaves
    have e2 : (ts.map (Tree.weight L g)).sum = ((Ta :: Tb :: rest).map (Tree.weight L g)).sum :=
      (hp.map _).sum_eq
    simp only [List.map_cons, List.sum_cons] at e2
    rw [← hra, h.weight Ta hTa, ← hrb, h.weight Tb hTb']
    omega
  have hsumkey : (t.key a + t.key b).toNat = (t.key a).toNat + (t.key b).toNat := by
    rw [BitVec.toNat_add]; omega
  have hq' : (s2.allocPush R).queue = (t.queue.erase a).erase b ++ [t.nNode] := rfl
  refine ⟨s2.allocPush R, .node t.nNode Ta Tb :: rest, hmerge, ?_, by simp only [List.length_cons]; omega, rfl⟩
  refine
    { wf := wf_putNode h.wf R hm
      bound := by rw [hnn, List.length_cons]; omega
      enough := by rw [hnn]; exact Nat.le_succ_of_le h.enough
      roots := ?_, rep := ?_, full := ?_, idxs := ?_, leaves := ?_, leafRec := ?_, intRec := ?_, mono := ?_
      qmono := ?_, weight := ?_, keep := ?_ }
  · rw [hq', List.map_cons]
    exact (hr2.cons _).trans (List.perm_append_singleton _ _).symm
  · intro T hT
    rcases List.mem_cons.1 hT with rfl | hT
    · refine ⟨ne_absent_of_lt hm, ?_, ?_, ?_, hcong Ta hTa, hcong Tb hTb'⟩ <;> rw [hnew]
      · rfl
      · exact hra.symm
      · exact hrb.symm
    · exact hcong T (hin T hT)
  · intro T hT
    rcases List.mem_cons.1 hT with rfl | hT
    · exact ⟨h.full Ta hTa, h.full Tb hTb'⟩
    · exact h.full T (hin T hT)
  · rw [hnn, idxRange_succ, ← hmr]
    refine List.Perm.trans ?_ (List.perm_append_singleton _ _).symm
    rw [List.flatMap_cons, Tree.idxs, List.cons_append]
    refine List.Perm.cons _ (List.Perm.trans ?_ h.idxs)
    have := hp.flatMap_right Tree.idxs
    refine List.Perm.trans ?_ this.symm
    simp [List.flatMap_cons]
  · refine List.Perm.trans ?_ h.leaves
    refine List.Perm.trans ?_ (hp.flatMap_right Tree.leaves).symm
    simp [List.flatMap_cons, Tree.leaves]
  · intro k hk
    have hk' : (BitVec.ofNat 9 k).toNat < t.nNode.toNat := by
      have := h.enough
      rw [BitVec.toNat_ofNat]
      omega
    rw [hlt _ hk']
    exact h.leafRec k hk
  · intro n hn1 hn2
    rw [hnn] at hn2
    by_cases hne : n = t.nNode
    · subst hne
      refine ⟨a, b, ?_, halt, hblt, ?_⟩
      · rw [hnew, hkey a halt, hkey b hblt]
      · rw [hkey a halt, hkey b hblt]; exact hkab
    · have hn3 : n.toNat < t.nNode.toNat := by
        have : n.toNat ≠ t.nNode.toNat := fun e => hne (BitVec.eq_of_toNat_eq e)
        omega
      obtain ⟨l, r, he, hl, hr, hle⟩ := h.intRec n hn1 hn3
      refine ⟨l, r, ?_, hl, hr, ?_⟩
      · rw [hlt n hn3, hkey l (by omega), hkey r (by omega)]; exact he
      · rw [hkey l (by omega), hkey r (by omega)]; exact hle
  · intro n n' h1 h2' h3
    rw [hnn] at h3
    have hn : n.toNat < t.nNode.toNat := by omega
    obtain ⟨l, r, he, hl, hr, _⟩ := h.intRec n h1 hn
    have hrn : (t.nodeAt n).right = r := by rw [he]; rfl
    rw [hlt n hn, hrn, hkey r (by omega)]
    by_cases hne : n' = t.nNode
    · subst hne
      rw [hnew]
      show t.key r ≤ (s2.allocPush R).key a
      rw [hkey a halt, ← hrn]
      exact h.qmono n h1 hn a hain
    · have hn3 : n'.toNat < t.nNode.toNat := by
        have : n'.toNat ≠ t.nNode.toNat := fun e => hne (BitVec.eq_of_toNat_eq e)
        omega
      obtain ⟨l', r', he', hl', hr', _⟩ := h.intRec n' (by omega) hn3
      have hln : (t.nodeAt n').left = l' := by rw [he']; rfl
      rw [hlt n' hn3, hln, hkey l' (by omega), ← hrn, ← hln]
      exact h.mono n n' h1 h2' hn3
  · intro n h1 h2' q hq
    rw [hnn] at h2'
    rw [hq', List.mem_append, List.mem_singleton] at hq
    have hkb_le : ∀ m ∈ (t.queue.erase a).erase b, t.key b ≤ t.key m := fun m hm' =>
      hble m (List.mem_of_mem_erase hm')
    have hRk : (s2.allocPush R).key t.nNode = t.key a + t.key b := by
      unfold State.key; rw [hnew]; rfl
    have hb_le_R : t.key b ≤ t.key a + t.key b := by
      rw [BitVec.le_def, hsumkey]; omega
    have hqb : t.key b ≤ (s2.allocPush R).key q := by
      rcases hq with hq | rfl
      · rw [hkey q (h.root_lt (List.mem_of_mem_erase (List.mem_of_mem_erase hq)))]
        exact hkb_le q hq
      · rw [hRk]; exact hb_le_R
    by_cases hne : n = t.nNode
    · subst hne
      rw [hnew]
      show (s2.allocPush R).key b ≤ _
      rw [hkey b hblt]
      exact hqb
    · have hn3 : n.toNat < t.nNode.toNat := by
        have : n.toNat ≠ t.nNode.toNat := fun e => hne (BitVec.eq_of_toNat_eq e)
        omega
      obtain ⟨l, r, he, hl, hr, _⟩ := h.intRec n h1 hn3
      have hrn : (t.nodeAt n).right = r := by rw [he]; rfl
      rw [hlt n hn3, hrn, hkey r (by omega), ← hrn]
      exact BitVec.le_trans (h.qmono n h1 hn3 b (List.mem_of_mem_erase hbin')) hqb
  · intro T hT
    rcases List.mem_cons.1 hT with rfl | hT
    · have hRk : (s2.allocPush R).key t.nNode = t.key a + t.key b := by
        unfold State.key; rw [hnew]; rfl
      show ((s2.allocPush R).key t.nNode).toNat = _
      rw [hRk, hsumkey, ← hra, ← hrb, h.weight Ta hTa, h.weight Tb hTb']
      simp [Tree.weight, Tree.leaves]
    · rw [hkey _ (h.idx_lt (hin T hT) T.root_mem_idxs)]
      exact h.weight T (hin T hT)
  · intro n hn
    rw [hnn] at hn
    rw [hat, if_neg (fun e => by rw [e] at hn; omega)]
    exact h.keep n (by omega)

/-- QINIT makes a forest of leaves (R133). -/
theorem qinit_forest (s : State) (h : Store.wf unlisted.node numNodes s.node = true) :
    Forest (presentSyms s.freqAt) s.freqAt s (qinit s)
      ((idxRange (presentSyms s.freqAt).length).map Tree.leaf) := by
  obtain ⟨_, hw, hn, hq, hl, ho⟩ := qinit_spec s h
  have hS : (presentSyms s.freqAt).length ≤ 256 := presentSyms_length_le s.freqAt
  have hN : numNodes = 511 := rfl
  generalize hL : presentSyms s.freqAt = L at *
  have hidx : ∀ k : NodeIdx, k.toNat < L.length → (qinit s).nodeAt k = leafNode L[k.toNat]! (s.freqAt L[k.toNat]!) := by
    intro k hk
    have := hl k.toNat hk
    rw [show BitVec.ofNat 9 k.toNat = k by simp] at this
    rw [this, getElem!_pos L k.toNat hk]
  have hmem : ∀ T ∈ (idxRange L.length).map Tree.leaf, ∃ k : NodeIdx, k.toNat < L.length ∧ T = .leaf k := by
    intro T hT
    obtain ⟨k, hk, rfl⟩ := List.mem_map.1 hT
    exact ⟨k, (mem_idxRange k).1 hk, rfl⟩
  refine
    { wf := hw
      bound := by rw [hn, List.length_map, length_idxRange]; omega
      enough := by rw [hn]
      roots := ?_, rep := ?_, full := ?_, idxs := ?_, leaves := ?_, leafRec := hl
      intRec := fun n h1 h2 => by rw [hn] at h2; omega
      mono := fun n n' h1 h2 h3 => by rw [hn] at h3; omega
      qmono := fun n h1 h2 => by rw [hn] at h2; omega
      weight := ?_
      keep := fun n hn' => ho n (by rw [hn] at hn'; exact hn') }
  · rw [hq, List.map_map]
    simp [Function.comp_def, Tree.root]
  · intro T hT
    obtain ⟨k, hk, rfl⟩ := hmem T hT
    exact ⟨ne_absent_of_lt (by omega), by rw [hidx k hk]; rfl⟩
  · intro T hT
    obtain ⟨k, hk, rfl⟩ := hmem T hT
    exact trivial
  · rw [hn, List.flatMap_map]
    simp [Tree.idxs]
  · rw [List.flatMap_map]
    simp [Tree.leaves]
  · intro T hT
    obtain ⟨k, hk, rfl⟩ := hmem T hT
    show ((qinit s).nodeAt k).freq.toNat = _
    rw [hidx k hk]
    simp [Tree.weight, Tree.leaves, leafWeight, leafNode, hk]

/-- The loop of R134 ends with one tree. -/
theorem mergeLoop_forest {L : List Sym} {g : Sym → Count} {o t : State} {ts : List Tree} (h : Forest L g o t ts)
    (hL : L.length ≤ numSyms) (hsum : (L.map (fun x => (g x).toNat)).sum < 2 ^ 32) (h1 : ts ≠ []) (k : Nat)
    (hk : ts.length ≤ k + 1) :
    ∃ t' T, mergeLoop k t = .go t' ∧ Forest L g o t' [T] ∧ BuildFrame t t' := by
  induction k generalizing t ts with
  | zero =>
    match ts, h1, hk with
    | [T], _, _ => exact ⟨t, T, rfl, h, BuildFrame.refl t⟩
  | succ k ih =>
    unfold mergeLoop
    rw [h.queue_length]
    split
    · rename_i hgt
      obtain ⟨t1, ts1, he, hf1, hl1, hfr1⟩ := merge_forest h hL hsum hgt
      rw [he, Flow.andThen_go]
      obtain ⟨t', T, hm, hf, hfr⟩ := ih hf1 (fun e => by simp [e] at hl1; omega) (by omega)
      exact ⟨t', T, hm, hf, hfr1.trans hfr⟩
    · match ts, h1 with
      | [T], _ => exact ⟨t, T, rfl, h, BuildFrame.refl t⟩
      | _ :: _ :: _, _ => simp at *

/-- What BUILD leaves (R138, R139): one tree rooted at ROOT that holds every allocated record, the leaves of the present symbols
`L` in ascending order first. With one present symbol the root is the synthetic one (R137); with more, every other
record is the sum of its two children, LEFT of no greater frequency than RIGHT, and the merges went in order of
frequency. -/
structure Built (L : List Sym) (g : Sym → Count) (o t : State) (T : Tree) : Prop where
  wf : Store.wf unlisted.node numNodes t.node = true
  root : t.root = T.root
  queue : t.queue = []
  rep : T.Rep t.nodeAt
  idxs : T.idxs.Perm (idxRange t.nNode.toNat)
  leaves : T.leaves.Perm (idxRange L.length)
  leafRec : ∀ (k : Nat) (hk : k < L.length), t.nodeAt (BitVec.ofNat 9 k) = leafNode L[k] (g L[k])
  keep : ∀ n : NodeIdx, t.nNode.toNat ≤ n.toNat → t.nodeAt n = o.nodeAt n
  shape :
    (L.length = 1 ∧ T = .wrap 1#9 (.leaf 0#9) ∧ t.nNode = 2#9 ∧
      t.nodeAt 1#9 = internalNode (t.key 0#9) 0#9 absent) ∨
    (2 ≤ L.length ∧ T.Full ∧ t.nNode.toNat + 1 = 2 * L.length ∧ (t.key T.root).toNat = T.weight L g ∧
      (∀ n : NodeIdx, L.length ≤ n.toNat → n.toNat < t.nNode.toNat →
        ∃ l r, t.nodeAt n = internalNode (t.key l + t.key r) l r ∧ l.toNat < n.toNat ∧ r.toNat < n.toNat ∧
          t.key l ≤ t.key r) ∧
      (∀ n n' : NodeIdx, L.length ≤ n.toNat → n.toNat < n'.toNat → n'.toNat < t.nNode.toNat →
        t.key (t.nodeAt n).right ≤ t.key (t.nodeAt n').left))

/-- ROOTSEL on a forest of one tree (R135). -/
theorem rootsel_spec {t : State} {n : NodeIdx} (hq : t.queue = [n]) :
    ∃ t', rootsel t = .go t' ∧ t'.root = n ∧ t'.queue = [] ∧ t'.node = t.node ∧ t'.nNode = t.nNode ∧
      BuildFrame t t' := by
  obtain ⟨m, hp, hm, _⟩ := pop_spec (t.enter .rootsel) (by rw [enter_queue, hq]; simp)
  rw [enter_queue, hq, List.mem_singleton] at hm
  subst hm
  refine ⟨{ (t.enter .rootsel).popped m with root := m }, ?_, rfl, ?_, rfl, rfl, rfl⟩
  · unfold rootsel
    rw [hp]
  · show t.queue.erase m = []
    rw [hq]
    simp

/-- What BUILD does when some symbol is present (R134). -/
theorem build_spec (s : State) (h : Store.wf unlisted.node numNodes s.node = true)
    (hL : presentSyms s.freqAt ≠ [])
    (hsum : ((presentSyms s.freqAt).map (fun x => (s.freqAt x).toNat)).sum < 2 ^ 32) :
    ∃ t T, build s = .go t ∧ Built (presentSyms s.freqAt) s.freqAt s t T ∧ BuildFrame s t := by
  have hS := presentSyms_length_le s.freqAt
  have hfo := qinit_forest s h
  obtain ⟨hfr, hw, hn, hq, hl, ho⟩ := qinit_spec s h
  have hlen : (presentSyms s.freqAt).length ≠ 0 := fun e => hL (List.length_eq_zero_iff.1 e)
  have hN : numNodes = 511 := rfl
  have hS' : numSyms = 256 := rfl
  have hql : (qinit s).queue.length = (presentSyms s.freqAt).length := by rw [hq, length_idxRange]
  have hb : build s = if (qinit s).queue.length = 0 then .stop .done { qinit s with root := absent }
      else ((wrapIfSole (qinit s)).andThen (fun t => mergeLoop t.queue.length t)).andThen rootsel := rfl
  rw [hb, hql, if_neg hlen]
  clear hb
  generalize presentSyms s.freqAt = L at *
  generalize qinit s = q at *
  unfold wrapIfSole
  rw [hql]
  by_cases h1 : L.length = 1
  · -- one symbol: WRAP
    rw [if_pos h1]
    rw [h1] at hq hn
    have hq1 : q.queue = [0#9] := hq
    have hn1 : q.nNode = 1#9 := BitVec.eq_of_toNat_eq hn
    obtain ⟨m, hp, hm, _⟩ := pop_spec (q.enter .wrap) (by rw [enter_queue, hq1]; simp)
    rw [enter_queue, hq1, List.mem_singleton] at hm
    subst hm
    let s1 : State := (q.enter .wrap).popped 0#9
    let R : Node := internalNode (q.key 0#9) 0#9 absent
    have hwrap : wrap q = .go (s1.allocPush R) := by
      unfold wrap
      rw [hp]
      rfl
    have hnn : (s1.allocPush R).nNode = 2#9 := by
      show q.nNode + 1#9 = _
      rw [hn1]; rfl
    have hqq : (s1.allocPush R).queue = [1#9] := by
      show q.queue.erase 0#9 ++ [q.nNode] = _
      rw [hq1, hn1]; rfl
    have hat : ∀ k, (s1.allocPush R).nodeAt k = if k = 1#9 then R else q.nodeAt k := fun k => by
      rw [allocPush_nodeAt (s := s1) hw R k]
      show (if k = q.nNode then _ else _) = _
      rw [hn1]; rfl
    rw [hwrap, Flow.andThen_go, hqq]
    have hloop : mergeLoop [(1#9 : NodeIdx)].length (s1.allocPush R) = .go (s1.allocPush R) := by
      show mergeLoop (0 + 1) _ = _
      unfold mergeLoop
      rw [if_neg (by rw [hqq]; simp)]
    rw [hloop, Flow.andThen_go]
    obtain ⟨t', hr, hroot, hqe, hnode, hnn', hfr'⟩ := rootsel_spec hqq
    have hat' : ∀ k, t'.nodeAt k = if k = 1#9 then R else q.nodeAt k := fun k => by
      rw [← hat k]; unfold State.nodeAt; rw [hnode]
    have h0 : t'.nodeAt 0#9 = leafNode L[0] (s.freqAt L[0]) := by
      rw [hat', if_neg (by decide)]
      exact hl 0 (by omega)
    refine ⟨t', .wrap 1#9 (.leaf 0#9), hr, ?_, (hfr.trans ((BuildFrame.enter _ _).trans
      ((BuildFrame.popped _ _).trans (BuildFrame.allocPush R s1)))).trans hfr'⟩
    refine
      { wf := by rw [hnode]; exact wf_putNode (s := s1) hw R (by show q.nNode.toNat < _; rw [hn]; omega)
        root := hroot
        queue := hqe
        rep := ⟨by decide, by rw [hat', if_pos rfl]; rfl, by rw [hat', if_pos rfl]; rfl,
          by rw [hat', if_pos rfl]; rfl, by decide, by rw [h0]; rfl⟩
        idxs := by rw [hnn', hnn]; decide
        leaves := by rw [h1]; decide
        leafRec := ?_
        keep := ?_
        shape := .inl ⟨h1, rfl, by rw [hnn', hnn], ?_⟩ }
    · intro k hk
      have hk0 : k = 0 := by omega
      subst hk0
      exact h0
    · intro n hn'
      rw [hnn', hnn] at hn'
      have hn2 : 2 ≤ n.toNat := hn'
      rw [hat', if_neg (fun e => by rw [e] at hn2; exact absurd hn2 (by decide))]
      exact ho n (by omega)
    · have hk : t'.key 0#9 = q.key 0#9 := by
        unfold State.key; rw [hat', if_neg (by decide)]
      rw [hat', if_pos rfl, hk]
  · -- more symbols: MERGE until one tree is left
    rw [if_neg h1, Flow.andThen_go]
    have hts : (idxRange L.length).map Tree.leaf ≠ [] := fun e => by
      have := congrArg List.length e
      rw [List.length_map, length_idxRange] at this
      exact hlen this
    obtain ⟨t1, T, hml, hf, hfr1⟩ := mergeLoop_forest hfo hS hsum hts q.queue.length (by simp [hql])
    rw [hml, Flow.andThen_go]
    have hq1 : t1.queue = [T.root] := List.perm_singleton.1 hf.roots.symm
    obtain ⟨t', hr, hroot, hqe, hnode, hnn', hfr'⟩ := rootsel_spec hq1
    have hat' : ∀ k, t'.nodeAt k = t1.nodeAt k := fun k => by unfold State.nodeAt; rw [hnode]
    have hkey' : ∀ k, t'.key k = t1.key k := fun k => by unfold State.key; rw [hat']
    refine ⟨t', T, hr, ?_, (hfr.trans hfr1).trans hfr'⟩
    refine
      { wf := by rw [hnode]; exact hf.wf
        root := hroot
        queue := hqe
        rep := (hf.rep T (by simp)).congr fun n _ => hat' n
        idxs := by rw [hnn']; simpa using hf.idxs
        leaves := by simpa using hf.leaves
        leafRec := fun k hk => by rw [hat']; exact hf.leafRec k hk
        keep := fun n hn' => by rw [hat']; exact hf.keep n (by rw [← hnn']; exact hn')
        shape := .inr ⟨by omega, hf.full T (by simp), ?_, ?_, ?_, ?_⟩ }
    · rw [hnn']
      exact hf.bound
    · rw [hkey']; exact hf.weight T (by simp)
    · intro n h2 h3
      rw [hnn'] at h3
      obtain ⟨l, r, he, hl', hr', hle⟩ := hf.intRec n h2 h3
      exact ⟨l, r, by rw [hat', hkey', hkey']; exact he, hl', hr', by rw [hkey', hkey']; exact hle⟩
    · intro n n' h2 h3 h4
      rw [hnn'] at h4
      rw [hkey', hkey', hat', hat']
      exact hf.mono n n' h2 h3 h4

/-- What ROOTSEL does whenever it goes on: it pops an index of the queue and makes it ROOT (R135). -/
theorem rootsel_go {t t' : State} (h : rootsel t = .go t') : t'.root ∈ t.queue ∧ t'.queue = t.queue.erase t'.root := by
  by_cases hq : t.queue = []
  · have hn : (t.enter .rootsel).pop = none := by
      unfold State.pop State.candidates
      rw [enter_queue, hq]
    unfold rootsel at h
    rw [hn] at h
    cases h
  · obtain ⟨m, hp, hm, _⟩ := pop_spec (t.enter .rootsel) hq
    unfold rootsel at h
    rw [hp] at h
    cases h
    exact ⟨hm, rfl⟩

/-- R52 and R135 together: when the merging ends the queue holds exactly one index, the ROOT that ROOTSEL then pops, and the
queue is empty afterwards. -/
theorem mergeToOne_leaves_root (s : State) (h : Store.wf unlisted.node numNodes s.node = true)
    (hL : presentSyms s.freqAt ≠ [])
    (hsum : ((presentSyms s.freqAt).map (fun x => (s.freqAt x).toNat)).sum < 2 ^ 32) :
    ∃ t t', mergeToOne (qinit s) = .go t ∧ rootsel t = .go t' ∧ build s = .go t' ∧
      t.queue = [t'.root] ∧ t'.queue = [] := by
  obtain ⟨t', T, hb, hB, -⟩ := build_spec s h hL hsum
  have hb' := hb
  unfold build at hb'
  dsimp only at hb'
  split at hb'
  · cases hb'
  · cases hm : mergeToOne (qinit s) with
    | stop e t =>
      rw [hm] at hb'
      cases hb'
    | go t =>
      rw [hm, Flow.andThen_go] at hb'
      obtain ⟨hmem, he⟩ := rootsel_go hb'
      refine ⟨t, t', rfl, hb', hb, ?_, hB.queue⟩
      have hl := List.length_erase_of_mem hmem
      rw [← he, hB.queue, List.length_nil] at hl
      obtain ⟨x, hx⟩ := List.length_eq_one_iff.1 (by have := List.length_pos_of_mem hmem; omega : t.queue.length = 1)
      rw [hx, List.mem_singleton] at hmem
      rw [hx, hmem]

end Sys2Proof.Machine
end

