-- ==== Sys2Proof/Laws/Assign.lean ====
section
/-! SUPPORT. The code assigner: on a tree, ASSIGN gives every leaf its path as its code and changes no other record. -/

namespace Sys2Proof.Machine

/-! ## Patterns as bit strings (R9, R92, R98) -/

@[simp] theorem patBits_length (n : Nat) (p : Pattern) : (patBits n p).length = n := by
  induction n with
  | zero => rfl
  | succ n ih => simp [patBits, ih]

theorem childPat_getLsbD (p : Pattern) (b : Bool) (k : Nat) :
    (childPat p b).getLsbD k = if k = 0 then b else decide (k < 255) && p.getLsbD (k - 1) := by
  unfold childPat
  rw [BitVec.getLsbD_or, BitVec.getLsbD_shiftLeft, BitVec.getLsbD_setWidth]
  by_cases hk : k = 0
  · subst hk
    cases b <;> rfl
  · have h1 : ¬ k < 1 := by omega
    have h2 : (BitVec.ofBool b).getLsbD k = false := BitVec.getLsbD_of_ge _ _ (by omega)
    simp [hk, h1, h2]

/-- One edge appends one bit (R98). -/
theorem patBits_childPat (p : Pattern) (b : Bool) (n : Nat) (hn : n < 255) :
    patBits (n + 1) (childPat p b) = patBits n p ++ [b] := by
  induction n with
  | zero =>
    show [(childPat p b).getLsbD 0] = _
    rw [childPat_getLsbD]
    rfl
  | succ n ih =>
    rw [patBits, ih (by omega), patBits, childPat_getLsbD, if_neg (by omega)]
    simp [hn]

/-- The pattern of a path (R98): the root has pattern 0, every edge appends its bit. -/
def pathPat (p : Pattern) (bs : List Bool) : Pattern := bs.foldl childPat p

theorem patBits_pathPat (bs : List Bool) (p : Pattern) (n : Nat) (h : n + bs.length ≤ 255) :
    patBits (n + bs.length) (pathPat p bs) = patBits n p ++ bs := by
  induction bs generalizing p n with
  | nil => simp [pathPat]
  | cons b bs ih =>
    rw [List.length_cons] at h ⊢
    have := ih (childPat p b) (n + 1) (by omega)
    rw [show n + (bs.length + 1) = n + 1 + bs.length by omega]
    rw [show pathPat p (b :: bs) = pathPat (childPat p b) bs from rfl, this, patBits_childPat _ _ _ (by omega)]
    simp

theorem pathPat_high (bs : List Bool) (p : Pattern) (n : Nat) (hp : ∀ k, n ≤ k → p.getLsbD k = false) :
    ∀ k, n + bs.length ≤ k → (pathPat p bs).getLsbD k = false := by
  induction bs generalizing p n with
  | nil => exact fun k hk => hp k hk
  | cons b bs ih =>
    intro k hk
    rw [List.length_cons] at hk
    refine ih (childPat p b) (n + 1) (fun j hj => ?_) k (by omega)
    rw [childPat_getLsbD, if_neg (by omega), hp (j - 1) (by omega), Bool.and_false]

/-! ## The walk (R151 to R155) -/

/-- The fields a walk may change (R150): NODE, PATREG, DEPTH; the stack is back where it was. -/
def AssignFrame (s t : State) : Prop := t = { s with node := t.node, patReg := t.patReg, depth := t.depth }

theorem AssignFrame.refl (s : State) : AssignFrame s s := rfl

theorem AssignFrame.trans {s t u : State} (h : AssignFrame s t) (h' : AssignFrame t u) : AssignFrame s u := by
  unfold AssignFrame at *
  rw [h']; rw [h]

/-- The record of a leaf with its code (R153). -/
def withCode (r : Node) (p : Pattern) (d : CodeLen) : Node := { r with pat := p, clen := d }

/-- What the walk of a subtree does: every leaf gets the pattern and the depth of its own path, appended to those at the
subtree's root; no other record changes; no fatal is raised (R156). -/
theorem visit_spec {T : Tree} : ∀ (k : Nat) (pat : Pattern) (d : Nat) (s : State),
    Store.wf unlisted.node numNodes s.node = true → T.Rep s.nodeAt → T.leaves.Nodup →
    (∀ n ∈ T.leaves, n.toNat < numNodes) → (∀ n ∈ T.leaves, (s.nodeAt n).clen = 0#8) →
    T.height < k → d + T.height ≤ 255 → (∀ p ∈ T.paths, d + p.2.length ≠ 0) →
    ∃ t, visit k T.root pat (BitVec.ofNat 8 d) s = .go t ∧ AssignFrame s t ∧
      Store.wf unlisted.node numNodes t.node = true ∧
      (∀ p ∈ T.paths, t.nodeAt p.1 = withCode (s.nodeAt p.1) (pathPat pat p.2) (BitVec.ofNat 8 (d + p.2.length))) ∧
      (∀ n, n ∉ T.leaves → t.nodeAt n = s.nodeAt n) := by
  induction T with
  | leaf n =>
    intro k pat d s hw hr _ hlt hz hk hd hp
    obtain ⟨k, rfl⟩ : ∃ k', k = k' + 1 := ⟨k - 1, by simp only [Tree.height] at hk; omega⟩
    have hn : n ∈ (Tree.leaf n).leaves := by simp [Tree.leaves]
    have hd0 : d ≠ 0 := by simpa [Tree.paths] using hp
    have hd' : BitVec.ofNat 8 d ≠ 0#8 := fun e => by
      have := congrArg BitVec.toNat e
      simp only [BitVec.toNat_ofNat] at this
      simp only [Tree.height] at hd
      omega
    let s1 : State := { s with patReg := pat, depth := BitVec.ofNat 8 d }
    refine ⟨s1.putNode n (withCode (s1.nodeAt n) pat (BitVec.ofNat 8 d)), ?_, rfl, wf_putNode (s := s1) hw _ (hlt n hn),
      ?_, ?_⟩
    · rw [visit, Tree.root, if_neg hr.1, hr.2]
      show assignLeaf n pat (BitVec.ofNat 8 d) s1 = _
      unfold assignLeaf
      rw [if_neg hd', if_neg (fun h => h (hz n hn))]
      rfl
    · intro p hp
      rw [Tree.paths, List.mem_singleton] at hp
      subst hp
      rw [nodeAt_putNode (s := s1) hw, if_pos rfl]
      rfl
    · intro m hm
      rw [nodeAt_putNode (s := s1) hw, if_neg (by simpa [Tree.leaves] using hm)]
      rfl
  | wrap n l ih =>
    intro k pat d s hw hr hnd hlt hz hk hd hp
    obtain ⟨hna, hki, hle, hri, hrl⟩ := hr
    simp only [Tree.height] at hk hd
    obtain ⟨k, rfl⟩ : ∃ k', k = k' + 1 := ⟨k - 1, by omega⟩
    obtain ⟨k, rfl⟩ : ∃ k', k = k' + 1 := ⟨k - 1, by omega⟩
    let s1 : State := State.pushFrame n pat (BitVec.ofNat 8 d) { s with patReg := pat, depth := BitVec.ofNat 8 d }
    obtain ⟨t, hv, hf, hwt, hpt, hot⟩ := ih (k + 1) (childPat pat false) (d + 1) s1 hw hrl hnd hlt hz (by omega) (by omega)
      (fun p _ => by omega)
    have hstk : t.popFrame.stack = s.stack := by
      show t.stack.tail = _
      rw [hf]; rfl
    refine ⟨t.popFrame, ?_, ?_, hwt, ?_, hot⟩
    · rw [visit, Tree.root, if_neg hna, hki]
      simp only [hle, hri]
      rw [show BitVec.ofNat 8 d + 1#8 = BitVec.ofNat 8 (d + 1) from (BitVec.ofNat_add d 1).symm]
      show ((visit (k + 1) l.root (childPat pat false) (BitVec.ofNat 8 (d + 1)) s1).andThen _).andThen _ = _
      rw [hv, Flow.andThen_go, visit, if_pos rfl, Flow.andThen_go]
    · unfold AssignFrame
      conv => lhs; unfold State.popFrame
      rw [hf]
      rfl
    · intro p hp
      rw [Tree.paths, List.mem_map] at hp
      obtain ⟨q, hq, rfl⟩ := hp
      rw [List.length_cons, show d + (q.2.length + 1) = d + 1 + q.2.length by omega]
      exact hpt q hq
  | node n l r ihl ihr =>
    intro k pat d s hw hr hnd hlt hz hk hd hp
    obtain ⟨hna, hki, hle, hri, hrl, hrr⟩ := hr
    simp only [Tree.height] at hk hd
    obtain ⟨k, rfl⟩ : ∃ k', k = k' + 1 := ⟨k - 1, by omega⟩
    rw [Tree.leaves] at hnd hlt hz
    obtain ⟨hndl, hndr, hdis⟩ := List.nodup_append.1 hnd
    let s1 : State := State.pushFrame n pat (BitVec.ofNat 8 d) { s with patReg := pat, depth := BitVec.ofNat 8 d }
    obtain ⟨t, hv, hf, hwt, hpt, hot⟩ := ihl k (childPat pat false) (d + 1) s1 hw hrl hndl
      (fun m hm => hlt m (List.mem_append_left _ hm)) (fun m hm => hz m (List.mem_append_left _ hm)) (by omega) (by omega)
      (fun p _ => by omega)
    have hlink : ∀ m, (t.nodeAt m).kind = (s.nodeAt m).kind ∧ (t.nodeAt m).left = (s.nodeAt m).left ∧
        (t.nodeAt m).right = (s.nodeAt m).right := by
      intro m
      by_cases hm : m ∈ l.leaves
      · rw [← l.paths_fst, List.mem_map] at hm
        obtain ⟨q, hq, rfl⟩ := hm
        rw [hpt q hq]
        exact ⟨rfl, rfl, rfl⟩
      · rw [hot m hm]
        exact ⟨rfl, rfl, rfl⟩
    have hrk : ∀ m ∈ r.leaves, t.nodeAt m = s.nodeAt m := fun m hm =>
      hot m fun hml => hdis m hml m hm rfl
    obtain ⟨u, hvu, hfu, hwu, hpu, hou⟩ := ihr k (childPat pat true) (d + 1) t hwt (hrr.congr_links hlink) hndr
      (fun m hm => hlt m (List.mem_append_right _ hm))
      (fun m hm => by rw [hrk m hm]; exact hz m (List.mem_append_right _ hm)) (by omega) (by omega)
      (fun p _ => by omega)
    have hfsu : AssignFrame s1 u := hf.trans hfu
    refine ⟨u.popFrame, ?_, ?_, hwu, ?_, ?_⟩
    · rw [visit, Tree.root, if_neg hna, hki]
      simp only [hle, hri]
      rw [show BitVec.ofNat 8 d + 1#8 = BitVec.ofNat 8 (d + 1) from (BitVec.ofNat_add d 1).symm]
      show ((visit k l.root (childPat pat false) (BitVec.ofNat 8 (d + 1)) s1).andThen _).andThen _ = _
      rw [hv, Flow.andThen_go, hvu, Flow.andThen_go]
    · unfold AssignFrame
      conv => lhs; unfold State.popFrame
      rw [hfsu]
      rfl
    · intro p hp
      rw [Tree.paths, List.mem_append, List.mem_map, List.mem_map] at hp
      rcases hp with ⟨q, hq, rfl⟩ | ⟨q, hq, rfl⟩ <;>
        rw [List.length_cons, show d + (q.2.length + 1) = d + 1 + q.2.length by omega]
      · have hql : q.1 ∈ l.leaves := by rw [← l.paths_fst]; exact List.mem_map_of_mem hq
        show u.nodeAt q.1 = _
        rw [hou q.1 fun h => hdis q.1 hql q.1 h rfl]
        exact hpt q hq
      · have hqr : q.1 ∈ r.leaves := by rw [← r.paths_fst]; exact List.mem_map_of_mem hq
        show u.nodeAt q.1 = _
        rw [hpu q hq, hrk q.1 hqr]
        rfl
    · intro m hm
      rw [Tree.leaves, List.mem_append, not_or] at hm
      show u.nodeAt m = _
      rw [hou m hm.2]
      exact hot m hm.1

end Sys2Proof.Machine
end

