-- ==== Sys2Proof/Laws/Unpack.lean ====
section
/-! SUPPORT. The unpacker: the two loops over words and lanes run UNPACKBIT over the stream bits in order; what one UNPACKBIT
and a run of them leave. -/

namespace Sys2Proof.Machine

/-- UNPACKBIT over a list of bits, in order, until one of them ends the decode. -/
def runBits (base : Nat) : List Bool → State → Flow
  | [], s => .go s
  | b :: bs, s => (unpackBit b base s).andThen (runBits base bs)

theorem runBits_append (base : Nat) (xs ys : List Bool) (s : State) :
    runBits base (xs ++ ys) s = (runBits base xs s).andThen (runBits base ys) := by
  induction xs generalizing s with
  | nil => rfl
  | cons b xs ih =>
    simp only [List.cons_append, runBits, Flow.andThen_assoc]
    congr 1
    funext t
    exact ih t

/-- The shifter's registers, which no check of the decoder reads. -/
def setShift (a : PackWord) (b : BitVec 6) (c : WordCount) (s : State) : State :=
  { s with shReg := a, bitIdx := b, wIdx := c }

/-- Two states that differ at most in the shifter's registers. -/
def SameShift (s t : State) : Prop := t = setShift t.shReg t.bitIdx t.wIdx s

theorem SameShift.refl (s : State) : SameShift s s := rfl

/-- Two pieces of a command that end alike, in states that differ at most in the shifter's registers. -/
def SimShift : Flow → Flow → Prop
  | .go s, .go t => SameShift s t
  | .stop e s, .stop e' t => e = e' ∧ SameShift s t
  | _, _ => False

theorem unpackBit_setShift (b : Bool) (base : Nat) (x : PackWord) (y : BitVec 6) (z : WordCount) (s : State) :
    SimShift (unpackBit b base s) (unpackBit b base (setShift x y z s)) := by
  have hc : ∀ p, (setShift x y z s).child p b = s.child p b := fun _ => rfl
  have hn : ∀ p, (setShift x y z s).nodeAt p = s.nodeAt p := fun _ => rfl
  by_cases h0 : s.rem = 0#40
  · have h0' : (setShift x y z s).rem = 0#40 := h0
    simp only [unpackBit, if_pos h0, if_pos h0']
    exact ⟨rfl, rfl⟩
  have h0' : ¬ (setShift x y z s).rem = 0#40 := h0
  simp only [unpackBit, if_neg h0, if_neg h0', unpackArrive]
  by_cases h1 : (unpackMove b (s.enter .unpackBit)).pos = absent
  · have h1' : (unpackMove b ((setShift x y z s).enter .unpackBit)).pos = absent := h1
    simp only [if_pos h1, if_pos h1']
    exact ⟨rfl, rfl⟩
  have h1' : ¬ (unpackMove b ((setShift x y z s).enter .unpackBit)).pos = absent := h1
  simp only [if_neg h1, if_neg h1']
  have hk : (unpackMove b ((setShift x y z s).enter .unpackBit)).nodeAt
      (unpackMove b ((setShift x y z s).enter .unpackBit)).pos =
      (unpackMove b (s.enter .unpackBit)).nodeAt (unpackMove b (s.enter .unpackBit)).pos := rfl
  rw [hk]
  cases ((unpackMove b (s.enter .unpackBit)).nodeAt (unpackMove b (s.enter .unpackBit)).pos).kind with
  | internal => exact id (α := SameShift _ _) rfl
  | leaf =>
    simp only [unpackLeaf]
    by_cases h2 : (unpackMove b (s.enter .unpackBit)).outPos = (unpackMove b (s.enter .unpackBit)).origLen
    · have h2' : (unpackMove b ((setShift x y z s).enter .unpackBit)).outPos =
        (unpackMove b ((setShift x y z s).enter .unpackBit)).origLen := h2
      simp only [if_pos h2, if_pos h2']
      exact ⟨rfl, rfl⟩
    have h2' : ¬ (unpackMove b ((setShift x y z s).enter .unpackBit)).outPos =
        (unpackMove b ((setShift x y z s).enter .unpackBit)).origLen := h2
    simp only [if_neg h2, if_neg h2']
    by_cases h3 : (emitSym base (unpackMove b (s.enter .unpackBit))).rem = 0#40
    · have h3' : (emitSym base (unpackMove b ((setShift x y z s).enter .unpackBit))).rem = 0#40 := h3
      simp only [if_pos h3, if_pos h3']
      by_cases h4 : (emitSym base (unpackMove b (s.enter .unpackBit))).outPos =
          (emitSym base (unpackMove b (s.enter .unpackBit))).origLen
      · have h4' : (emitSym base (unpackMove b ((setShift x y z s).enter .unpackBit))).outPos =
          (emitSym base (unpackMove b ((setShift x y z s).enter .unpackBit))).origLen := h4
        simp only [if_pos h4, if_pos h4']
        exact ⟨rfl, rfl⟩
      · have h4' : ¬ (emitSym base (unpackMove b ((setShift x y z s).enter .unpackBit))).outPos =
          (emitSym base (unpackMove b ((setShift x y z s).enter .unpackBit))).origLen := h4
        simp only [if_neg h4, if_neg h4']
        exact ⟨rfl, rfl⟩
    · have h3' : ¬ (emitSym base (unpackMove b ((setShift x y z s).enter .unpackBit))).rem = 0#40 := h3
      simp only [if_neg h3, if_neg h3']
      exact id (α := SameShift _ _) rfl

/-- What one UNPACKBIT does (R189): the first check that fires ends the decode, else the state after the move, or
after the emission. -/
theorem unpackBit_cases (b : Bool) (base : Nat) (s : State) :
    (s.rem = 0#40 ∧ unpackBit b base s = .stop (.fail .trailing) (s.enter .unpackBit)) ∨
    (s.rem ≠ 0#40 ∧ s.child s.pos b = absent ∧
      unpackBit b base s = .stop (.fail .noChild) (unpackMove b (s.enter .unpackBit))) ∨
    (s.rem ≠ 0#40 ∧ s.child s.pos b ≠ absent ∧ (s.nodeAt (s.child s.pos b)).kind = .internal ∧
      unpackBit b base s = .go (unpackMove b (s.enter .unpackBit))) ∨
    (s.rem ≠ 0#40 ∧ s.child s.pos b ≠ absent ∧ (s.nodeAt (s.child s.pos b)).kind = .leaf ∧ s.outPos = s.origLen ∧
      unpackBit b base s = .stop (.fail .overrun) (unpackMove b (s.enter .unpackBit))) ∨
    (s.rem ≠ 0#40 ∧ s.child s.pos b ≠ absent ∧ (s.nodeAt (s.child s.pos b)).kind = .leaf ∧ s.outPos ≠ s.origLen ∧
      ((s.rem - 1#40 = 0#40 ∧ s.outPos + 1#32 = s.origLen ∧
          unpackBit b base s = .stop .done (emitSym base (unpackMove b (s.enter .unpackBit)))) ∨
       (s.rem - 1#40 = 0#40 ∧ s.outPos + 1#32 ≠ s.origLen ∧
          unpackBit b base s = .stop (.fail .count) (emitSym base (unpackMove b (s.enter .unpackBit)))) ∨
       (s.rem - 1#40 ≠ 0#40 ∧ unpackBit b base s = .go (emitSym base (unpackMove b (s.enter .unpackBit)))))) := by
  by_cases h0 : s.rem = 0#40
  · exact .inl ⟨h0, by simp [unpackBit, h0]⟩
  refine .inr ?_
  have e0 : unpackBit b base s = unpackArrive base (unpackMove b (s.enter .unpackBit)) := by
    simp [unpackBit, h0]
  have hp : (unpackMove b (s.enter .unpackBit)).pos = s.child s.pos b := rfl
  by_cases h1 : s.child s.pos b = absent
  · exact .inl ⟨h0, h1, by rw [e0, unpackArrive, if_pos (hp.trans h1)]⟩
  refine .inr ?_
  have e1 : unpackBit b base s = match (s.nodeAt (s.child s.pos b)).kind with
      | .leaf => unpackLeaf base (unpackMove b (s.enter .unpackBit))
      | .internal => .go (unpackMove b (s.enter .unpackBit)) := by
    rw [e0, unpackArrive, if_neg (by rw [hp]; exact h1)]
    rfl
  cases hk : (s.nodeAt (s.child s.pos b)).kind with
  | internal => exact .inl ⟨h0, h1, rfl, by rw [e1, hk]⟩
  | leaf =>
    rw [hk] at e1
    refine .inr ?_
    by_cases h2 : s.outPos = s.origLen
    · exact .inl ⟨h0, h1, rfl, h2, e1.trans (if_pos h2)⟩
    · refine .inr ⟨h0, h1, rfl, h2, ?_⟩
      have e2 := e1.trans (if_neg h2)
      by_cases h3 : s.rem - 1#40 = 0
      · have e3 := e2.trans (if_pos h3)
        by_cases h4 : s.outPos + 1#32 = s.origLen
        · exact .inl ⟨h3, h4, e3.trans (if_pos h4)⟩
        · exact .inr (.inl ⟨h3, h4, e3.trans (if_neg h4)⟩)
      · exact .inr (.inr ⟨h3, e2.trans (if_neg h3)⟩)

/-- The fields a decode may change (R185, R97): `t` is `s` but for OUT, the decoder's registers and hidden ones. -/
def DecodeFrame (s t : State) : Prop :=
  t = { s with out := t.out, rem := t.rem, pos := t.pos, outPos := t.outPos, shReg := t.shReg
               bitIdx := t.bitIdx, wIdx := t.wIdx, seq := t.seq }

theorem DecodeFrame.refl (s : State) : DecodeFrame s s := rfl

theorem DecodeFrame.trans {s t u : State} (h : DecodeFrame s t) (h' : DecodeFrame t u) : DecodeFrame s u := by
  unfold DecodeFrame at *
  rw [h'] ; rw [h]

theorem SameShift.decodeFrame {s t : State} (h : SameShift s t) : DecodeFrame s t := by
  unfold SameShift setShift at h
  unfold DecodeFrame
  rw [h]

theorem SameShift.symm {s t : State} (h : SameShift s t) : SameShift t s := by
  unfold SameShift setShift at *
  rw [h]

theorem SameShift.trans {s t u : State} (h : SameShift s t) (h' : SameShift t u) : SameShift s u := by
  unfold SameShift setShift at *
  rw [h', h]

theorem decodeFrame_move (b : Bool) (s : State) : DecodeFrame s (unpackMove b (s.enter .unpackBit)) := rfl
theorem decodeFrame_emit (base : Nat) (s : State) : DecodeFrame s (emitSym base s) := rfl
theorem decodeFrame_enter (m : Seq) (s : State) : DecodeFrame s (s.enter m) := rfl

theorem unpackBit_frame (b : Bool) (base : Nat) (s : State) :
    (unpackBit b base s).Sat (DecodeFrame s) (fun _ => DecodeFrame s) := by
  rcases unpackBit_cases b base s with ⟨_, h⟩ | ⟨_, _, h⟩ | ⟨_, _, _, h⟩ | ⟨_, _, _, _, h⟩ |
    ⟨_, _, _, _, ⟨_, _, h⟩ | ⟨_, _, h⟩ | ⟨_, h⟩⟩ <;> rw [h] <;> exact id (α := DecodeFrame _ _) rfl

/-! ## The word loop is a run over the stream bits -/

theorem SimShift.andThen {x y : Flow} {f g : State → Flow} (h : SimShift x y)
    (hf : ∀ s t, x = .go s → y = .go t → SameShift s t → SimShift (f s) (g t)) :
    SimShift (x.andThen f) (y.andThen g) := by
  cases x <;> cases y
  · exact hf _ _ rfl rfl h
  · exact h.elim
  · exact h.elim
  · exact h

theorem msb_shiftLeft_eq (w : PackWord) {i : Nat} (hi : i < 64) : (w <<< i).msb = w.getLsbD (63 - i) := by
  rw [BitVec.msb_eq_getLsbD_last, BitVec.getLsbD_shiftLeft]
  have : ¬ 63 < i := by omega
  simp [this]

/-- The 64 lanes of a word from lane `i` of the reading order on. -/
def lanes (w : PackWord) (i n : Nat) : List Bool := (List.range' i n).map (fun k => w.getLsbD (63 - k))

theorem unpackBit_go_shReg {b : Bool} {base : Nat} {s t : State} (h : unpackBit b base s = .go t) :
    t.shReg = s.shReg := by
  rcases unpackBit_cases b base s with ⟨_, e⟩ | ⟨_, _, e⟩ | ⟨_, _, _, e⟩ | ⟨_, _, _, _, e⟩ |
    ⟨_, _, _, _, ⟨_, _, e⟩ | ⟨_, _, e⟩ | ⟨_, e⟩⟩ <;> rw [e] at h <;> cases h <;> rfl

theorem unpackBit_go_frame {b : Bool} {base : Nat} {s t : State} (h : unpackBit b base s = .go t) :
    DecodeFrame s t := by
  have := unpackBit_frame b base s
  rw [h] at this
  exact this

theorem lanes_loop (base : Nat) (w : PackWord) (n i : Nat) (s s' : State) (hi : i + n ≤ 64)
    (hs : SameShift s s') (hw : s'.shReg = w <<< i) :
    SimShift (runBits base (lanes w i n) s) (loopFlow n i (unpackStep base) s') := by
  induction n generalizing i s s' with
  | zero => exact id (α := SameShift _ _) hs
  | succ n ih =>
    rw [lanes, List.range'_succ, List.map_cons, runBits, loopFlow_succ, unpackStep, hw,
      msb_shiftLeft_eq w (by omega)]
    refine SimShift.andThen ?_ fun t t' ht ht' htt => ih (i + 1) t t' (by omega) htt ?_
    · rw [hs]
      exact unpackBit_setShift _ _ (w <<< i <<< 1) (BitVec.ofNat 6 i) s'.wIdx s
    · rw [unpackBit_go_shReg ht']
      show w <<< i <<< 1 = w <<< (i + 1)
      rw [BitVec.shiftLeft_add]

theorem lanes_eq (s : State) (w : Nat) :
    lanes (s.packAt w) 0 64 = (List.range' (64 * w) 64).map s.streamBit := by
  unfold lanes
  rw [show List.range' (64 * w) 64 = (List.range' 0 64).map (64 * w + ·) by
    rw [List.map_add_range', Nat.add_zero], List.map_map]
  refine List.map_congr_left fun k hk => ?_
  have hk' : k < 64 := by simpa using hk
  simp only [Function.comp, State.streamBit]
  rw [show (64 * w + k) / 64 = w by omega, show (64 * w + k) % 64 = k by omega]

theorem runBits_go_frame {base : Nat} {bs : List Bool} {s t : State} (h : runBits base bs s = .go t) :
    DecodeFrame s t := by
  induction bs generalizing s with
  | nil => cases h; exact DecodeFrame.refl _
  | cons b bs ih =>
    rw [runBits] at h
    cases hb : unpackBit b base s with
    | go u => rw [hb] at h; exact (unpackBit_go_frame hb).trans (ih h)
    | stop e u => rw [hb] at h; cases h

/-- The stream bits depend on PACK alone. -/
theorem streamBit_congr {s t : State} (h : t.pack = s.pack) : t.streamBit = s.streamBit := by
  funext k
  unfold State.streamBit State.packAt
  rw [h]

theorem DecodeFrame.pack_eq {s t : State} (h : DecodeFrame s t) : t.pack = s.pack := by rw [h]
theorem DecodeFrame.node_eq {s t : State} (h : DecodeFrame s t) : t.node = s.node := by rw [h]
theorem DecodeFrame.root_eq {s t : State} (h : DecodeFrame s t) : t.root = s.root := by rw [h]
theorem DecodeFrame.origLen_eq {s t : State} (h : DecodeFrame s t) : t.origLen = s.origLen := by rw [h]
theorem DecodeFrame.outCap_eq {s t : State} (h : DecodeFrame s t) : t.outCap = s.outCap := by rw [h]
theorem DecodeFrame.bitCnt_eq {s t : State} (h : DecodeFrame s t) : t.bitCnt = s.bitCnt := by rw [h]
theorem DecodeFrame.wordCnt_eq {s t : State} (h : DecodeFrame s t) : t.wordCnt = s.wordCnt := by rw [h]

/-- The advance of WIDX after a word (R77) is no matter to the checks of the decoder. -/
theorem SimShift.advance {x y : Flow} (h : SimShift x y) (c : WordCount) :
    SimShift x (y.andThen fun t => .go { t with wIdx := c }) := by
  cases x with
  | go s => cases y with
    | go t => exact SameShift.trans (t := t) h rfl
    | stop e t => exact h
  | stop e s => cases y with
    | go t => exact h
    | stop e' t => exact h

theorem words_loop (base n w : Nat) (s s' : State) (hs : SameShift s s') :
    SimShift (runBits base ((List.range' (64 * w) (64 * n)).map s.streamBit) s)
      (loopFlow n w (unpackWord base) s') := by
  induction n generalizing w s s' with
  | zero => exact id (α := SameShift _ _) hs
  | succ n ih =>
    rw [show 64 * (n + 1) = 64 + 64 * n by omega, ← List.range'_append_1, List.map_append, runBits_append,
      loopFlow_succ, ← lanes_eq, show 64 * w + 64 = 64 * (w + 1) by omega]
    refine SimShift.andThen ?_ fun t t' ht ht' htt => ?_
    · have hp : s'.packAt w = s.packAt w := by unfold State.packAt; rw [hs.decodeFrame.pack_eq]
      rw [unpackWord, hp]
      refine (lanes_loop base _ 64 0 s _ (Nat.le_refl 64) ?_ (by simp)).advance _
      refine hs.trans ?_
      exact id (α := SameShift _ _) rfl
    · rw [← streamBit_congr (runBits_go_frame ht).pack_eq]
      exact ih (w + 1) t t' htt

/-- UNPACK's two loops run UNPACKBIT over the WORDCNT × 64 stream bits in order (R187). -/
theorem unpack_loops (base : Nat) (s : State) :
    SimShift (runBits base (s.streamBits (64 * s.wordCnt.toNat)) (unpackInit s))
      (loopFlow s.wordCnt.toNat 0 (unpackWord base) { unpackInit s with wIdx := 0#34 }) := by
  have := words_loop base s.wordCnt.toNat 0 (unpackInit s) { unpackInit s with wIdx := 0#34 } rfl
  rw [Nat.mul_zero, ← List.range_eq_range'] at this
  exact this

end Sys2Proof.Machine
end

