-- ==== Sys2Proof/Laws/Decode.lean ====
section
/-! SUPPORT. The decoder on a stream that is a concatenation of paths from ROOT to leaves: it emits the leaves' symbols in
order and ends in success (R198). -/

namespace Sys2Proof.Machine

theorem outAt_putOut {s : State} {c : Nat} (h : Store.wf unlisted.byte c s.out = true) (i : Nat) (v : Sym) (j : Nat) :
    (s.putOut i v).outAt j = if j = i then v else s.outAt j := by
  unfold State.outAt
  rw [putOut_out, Store.get_put h]

theorem walk_absent (s : State) (bs : List Bool) : s.walk absent bs = absent := by
  induction bs with
  | nil => rfl
  | cons b bs ih =>
    rw [State.walk, State.child, if_pos rfl, ih]

theorem walk_leaf (s : State) {n : NodeIdx} (h : (s.nodeAt n).kind = .leaf) {bs : List Bool} (hb : bs ≠ []) :
    s.walk n bs = absent := by
  cases bs with
  | nil => exact absurd rfl hb
  | cons b bs =>
    rw [State.walk]
    have : s.child n b = absent := by
      unfold State.child
      split
      · rfl
      · rw [h]
    rw [this, walk_absent]

theorem walk_congr {s t : State} (h : t.node = s.node) (n : NodeIdx) (bs : List Bool) : t.walk n bs = s.walk n bs := by
  induction bs generalizing n with
  | nil => rfl
  | cons b bs ih =>
    have : t.child n b = s.child n b := by
      unfold State.child State.nodeAt
      rw [h]
    rw [State.walk, State.walk, this, ih]

/-- The state after the decoder has walked a whole path and emitted the leaf's symbol. -/
def emitted (base : Nat) (n : NodeIdx) (k : Nat) (s : State) : State :=
  { s.putOut (base + s.outPos.toNat) (s.nodeAt n).sym with
      outPos := s.outPos + 1#32, pos := s.root, rem := s.rem - BitVec.ofNat 40 k, seq := .unpackBit }

/-- A walk along a path to a leaf (R189, R191 to R194). -/
theorem runBits_path (base : Nat) {n : NodeIdx} (hn : n ≠ absent) : ∀ (bs : List Bool) (s : State), bs ≠ [] →
    s.walk s.pos bs = n → (s.nodeAt n).kind = .leaf → bs.length ≤ s.rem.toNat → s.outPos ≠ s.origLen →
    runBits base bs s =
      (if bs.length = s.rem.toNat then
        (if s.outPos + 1#32 = s.origLen then .stop .done (emitted base n bs.length s)
         else .stop (.fail .count) (emitted base n bs.length s))
       else .go (emitted base n bs.length s)) := by
  intro bs
  induction bs with
  | nil => intro s h; exact absurd rfl h
  | cons b bs ih =>
    intro s _ hw hk hl ho
    rw [List.length_cons] at hl ⊢
    rw [State.walk] at hw
    have hrem : s.rem ≠ 0#40 := fun e => by rw [e] at hl; simp at hl
    have hrlt : s.rem.toNat < 2 ^ 40 := s.rem.isLt
    have hr1 : (s.rem - 1#40).toNat = s.rem.toNat - 1 := by
      rw [BitVec.toNat_sub, BitVec.toNat_ofNat]
      omega
    have hc : s.child s.pos b ≠ absent := fun e => by
      rw [e, walk_absent] at hw
      exact hn hw.symm
    cases hbs : bs with
    | nil =>
      subst hbs
      rw [State.walk] at hw
      rw [hw] at hc
      rw [runBits]
      have hz : s.rem - 1#40 = 0#40 ↔ ([] : List Bool).length + 1 = s.rem.toNat := by
        constructor
        · intro e
          have := congrArg BitVec.toNat e
          rw [hr1, BitVec.toNat_ofNat] at this
          simp only [List.length_nil]
          omega
        · intro e
          refine BitVec.eq_of_toNat_eq ?_
          rw [hr1, ← e]
          rfl
      have he : emitSym base (unpackMove b (s.enter .unpackBit)) = emitted base n 1 s := by
        subst hw
        rfl
      rcases unpackBit_cases b base s with ⟨h, _⟩ | ⟨_, h, _⟩ | ⟨_, _, h, _⟩ | ⟨_, _, _, h, _⟩ |
        ⟨_, _, _, _, ⟨h1, h2, e⟩ | ⟨h1, h2, e⟩ | ⟨h1, e⟩⟩
      · exact absurd h hrem
      · rw [hw] at h; exact absurd h hc
      · rw [hw, hk] at h; cases h
      · exact absurd h ho
      · rw [e, if_pos (hz.1 h1), if_pos h2, he]; rfl
      · rw [e, if_pos (hz.1 h1), if_neg h2, he]; rfl
      · rw [e, if_neg (fun h => h1 (hz.2 h)), he]; rfl
    | cons b' bs' =>
      have hne : bs ≠ [] := by rw [hbs]; exact List.cons_ne_nil _ _
      rw [← hbs]
      have hki : (s.nodeAt (s.child s.pos b)).kind = .internal := by
        cases hkk : (s.nodeAt (s.child s.pos b)).kind with
        | internal => rfl
        | leaf =>
          rw [walk_leaf s hkk hne] at hw
          exact absurd hw.symm hn
      have hgo : unpackBit b base s = .go (unpackMove b (s.enter .unpackBit)) := by
        rcases unpackBit_cases b base s with ⟨h, _⟩ | ⟨_, h, _⟩ | ⟨_, _, _, e⟩ | ⟨_, _, h, _⟩ | ⟨_, _, h, _⟩
        · exact absurd h hrem
        · exact absurd h hc
        · exact e
        · rw [hki] at h; cases h
        · rw [hki] at h; cases h
      rw [runBits, hgo, Flow.andThen_go]
      have hrr : (unpackMove b (s.enter .unpackBit)).rem = s.rem - 1#40 := rfl
      rw [ih (unpackMove b (s.enter .unpackBit)) hne
        ((walk_congr (s := s) (t := unpackMove b (s.enter .unpackBit)) rfl _ _).trans hw) hk (by rw [hrr, hr1]; omega) ho, hrr, hr1]
      have he : emitted base n bs.length (unpackMove b (s.enter .unpackBit)) = emitted base n (bs.length + 1) s := by
        have : s.rem - 1#40 - BitVec.ofNat 40 bs.length = s.rem - BitVec.ofNat 40 (bs.length + 1) := by
          rw [BitVec.ofNat_add]
          rw [show BitVec.ofNat 40 1 = 1#40 from rfl, BitVec.sub_sub, BitVec.add_comm]
        show ({ s.putOut (base + s.outPos.toNat) (s.nodeAt n).sym with
          outPos := s.outPos + 1#32, pos := s.root, rem := s.rem - 1#40 - BitVec.ofNat 40 bs.length
          seq := .unpackBit } : State) = _
        rw [this]
        rfl
      rw [he]
      have hcond : (bs.length = s.rem.toNat - 1) ↔ (bs.length + 1 = s.rem.toNat) := by omega
      simp only [hcond]
      rfl

theorem GoodPath.congr {s t : State} {p : NodeIdx × List Bool} (h : GoodPath s p) (hn : t.node = s.node)
    (hr : t.root = s.root) : GoodPath t p := by
  obtain ⟨h1, h2, h3, h4⟩ := h
  refine ⟨h1, h2, by rw [walk_congr hn, hr]; exact h3, ?_⟩
  unfold State.nodeAt
  rw [hn]
  exact h4

/-- A run over the paths of a list of leaves emits their symbols in order and ends in success when the bits and the symbols
run out together (R198). -/
theorem runBits_paths (base : Nat) (ps : List (NodeIdx × List Bool)) : ∀ s : State, ps ≠ [] →
    (∀ p ∈ ps, GoodPath s p) → s.pos = s.root → (ps.flatMap Prod.snd).length = s.rem.toNat →
    s.outPos.toNat + ps.length = s.origLen.toNat → base + s.origLen.toNat ≤ s.outCap.toNat →
    Store.wf unlisted.byte s.outCap.toNat s.out = true →
    ∃ t, runBits base (ps.flatMap Prod.snd) s = .stop .done t ∧ DecodeFrame s t ∧ t.rem = 0#40 ∧ t.pos = s.root ∧
      t.outPos = s.origLen ∧ Store.wf unlisted.byte t.outCap.toNat t.out = true ∧
      ∀ j, t.outAt j = if base + s.outPos.toNat ≤ j ∧ j < base + s.origLen.toNat then
        (s.nodeAt (ps.getD (j - (base + s.outPos.toNat)) (absent, [])).1).sym else s.outAt j := by
  induction ps with
  | nil => intro s h; exact absurd rfl h
  | cons p ps ih =>
    intro s _ hp hpos hlen hcnt hcap hwf
    obtain ⟨hn, hb, hw, hk⟩ := hp p (by simp)
    rw [List.flatMap_cons, List.length_append] at hlen
    rw [List.length_cons] at hcnt
    have holt : s.origLen.toNat < 2 ^ 32 := s.origLen.isLt
    have ho1 : (s.outPos + 1#32).toNat = s.outPos.toNat + 1 := by
      rw [BitVec.toNat_add, BitVec.toNat_ofNat]
      omega
    have hone : s.outPos ≠ s.origLen := fun e => by rw [e] at hcnt; omega
    rw [List.flatMap_cons, runBits_append,
      runBits_path base hn p.2 s hb (by rw [hpos]; exact hw) hk (by omega) hone]
    have hrlt : s.rem.toNat < 2 ^ 40 := s.rem.isLt
    have hremT : (emitted base p.1 p.2.length s).rem.toNat = s.rem.toNat - p.2.length := by
      show (s.rem - BitVec.ofNat 40 p.2.length).toNat = _
      rw [BitVec.toNat_sub, BitVec.toNat_ofNat]
      omega
    have hout : ∀ j, (emitted base p.1 p.2.length s).outAt j =
        if j = base + s.outPos.toNat then (s.nodeAt p.1).sym else s.outAt j := fun j => outAt_putOut hwf _ _ j
    have hwf' : Store.wf unlisted.byte s.outCap.toNat (emitted base p.1 p.2.length s).out = true :=
      Store.wf_put hwf _ (by omega)
    have hopT : (emitted base p.1 p.2.length s).outPos.toNat = s.outPos.toNat + 1 := ho1
    cases hps : ps with
    | nil =>
      subst hps
      rw [List.flatMap_nil, List.length_nil, Nat.add_zero] at hlen
      rw [List.length_nil, Nat.zero_add] at hcnt
      have hend : s.outPos + 1#32 = s.origLen := BitVec.eq_of_toNat_eq (by rw [ho1]; exact hcnt)
      rw [if_pos hlen, if_pos hend, Flow.andThen_stop]
      refine ⟨_, rfl, rfl, BitVec.eq_of_toNat_eq (by rw [hremT, hlen]; simp), rfl, hend, hwf', fun j => ?_⟩
      rw [hout]
      by_cases hj : j = base + s.outPos.toNat
      · rw [if_pos hj, if_pos (by omega), hj, Nat.sub_self]
        rfl
      · rw [if_neg hj, if_neg (by omega)]
    | cons q qs =>
      rw [← hps]
      have hqb : q.2 ≠ [] := (hp q (by rw [hps]; simp)).2.1
      have hqpos : 0 < (ps.flatMap Prod.snd).length := by
        rw [hps, List.flatMap_cons, List.length_append]
        have := List.length_pos_iff.2 hqb
        omega
      rw [if_neg (by omega), Flow.andThen_go]
      obtain ⟨t, ht, hf, hr, hps', hop, hwt, hoa⟩ := ih (emitted base p.1 p.2.length s)
        (by rw [hps]; exact List.cons_ne_nil _ _)
        (fun q' hq' => (hp q' (List.mem_cons_of_mem _ hq')).congr rfl rfl) rfl
        (by rw [hremT]; omega) (by rw [hopT]; show _ = s.origLen.toNat; omega) hcap hwf'
      refine ⟨t, ht, DecodeFrame.trans (t := emitted base p.1 p.2.length s) rfl hf, hr, hps', hop, hwt, fun j => ?_⟩
      rw [hoa j, hopT, hout]
      show (if base + (s.outPos.toNat + 1) ≤ j ∧ j < base + s.origLen.toNat then _ else _) = _
      by_cases hj : j = base + s.outPos.toNat
      · rw [if_neg (by omega), if_pos hj, if_pos (by omega), hj, Nat.sub_self]
        rfl
      · rw [if_neg hj]
        by_cases hj2 : base + (s.outPos.toNat + 1) ≤ j ∧ j < base + s.origLen.toNat
        · rw [if_pos hj2, if_pos (by omega)]
          rw [show j - (base + s.outPos.toNat) = (j - (base + (s.outPos.toNat + 1))) + 1 by omega,
            List.getD_cons_succ]
          rfl
        · rw [if_neg hj2, if_neg (by omega)]

theorem SameShift.rem_eq {s t : State} (h : SameShift s t) : t.rem = s.rem := by rw [h]; rfl
theorem SameShift.pos_eq {s t : State} (h : SameShift s t) : t.pos = s.pos := by rw [h]; rfl
theorem SameShift.outPos_eq {s t : State} (h : SameShift s t) : t.outPos = s.outPos := by rw [h]; rfl
theorem SameShift.out_eq {s t : State} (h : SameShift s t) : t.out = s.out := by rw [h]; rfl
theorem SameShift.outCap_eq {s t : State} (h : SameShift s t) : t.outCap = s.outCap := by rw [h]; rfl

/-- UNPACK on a blob whose stream is the paths of a list of leaves (R198). -/
theorem unpack_paths (base : Nat) (ps : List (NodeIdx × List Bool)) (s : State) (hne : ps ≠ [])
    (hp : ∀ p ∈ ps, GoodPath s p) (hbit : (ps.flatMap Prod.snd).length = s.bitCnt.toNat)
    (hword : s.bitCnt.toNat ≤ 64 * s.wordCnt.toNat) (hstream : s.streamBits s.bitCnt.toNat = ps.flatMap Prod.snd)
    (hcnt : ps.length = s.origLen.toNat) (hcap : base + s.origLen.toNat ≤ s.outCap.toNat)
    (hwf : Store.wf unlisted.byte s.outCap.toNat s.out = true) :
    ∃ t, unpack base s = .stop .done t ∧ DecodeFrame s t ∧ t.rem = 0#40 ∧ t.pos = s.root ∧ t.outPos = s.origLen ∧
      Store.wf unlisted.byte t.outCap.toNat t.out = true ∧
      ∀ j, t.outAt j = if base ≤ j ∧ j < base + s.origLen.toNat then
        (s.nodeAt (ps.getD (j - base) (absent, [])).1).sym else s.outAt j := by
  obtain ⟨t, ht, hf, hr, hpos, hop, hwt, hoa⟩ := runBits_paths base ps (unpackInit s) hne
    (fun p h => (hp p h).congr rfl rfl) rfl hbit (by rw [hcnt]; exact Nat.zero_add _) hcap hwf
  have hsplit : s.streamBits (64 * s.wordCnt.toNat) = ps.flatMap Prod.snd ++
      (List.range' s.bitCnt.toNat (64 * s.wordCnt.toNat - s.bitCnt.toNat)).map s.streamBit := by
    rw [← hstream]
    unfold State.streamBits
    rw [← List.map_append, List.range_eq_range', List.range_eq_range']
    congr 1
    have := List.range'_append_1 (s := 0) (m := s.bitCnt.toNat) (n := 64 * s.wordCnt.toNat - s.bitCnt.toNat)
    rw [Nat.zero_add] at this
    rw [this]
    congr 1
    omega
  have hl := unpack_loops base s
  rw [hsplit, runBits_append, ht, Flow.andThen_stop] at hl
  unfold unpack
  cases hx : loopFlow s.wordCnt.toNat 0 (unpackWord base) { unpackInit s with wIdx := 0#34 } with
  | go v => rw [hx] at hl; exact hl.elim
  | stop e v =>
    rw [hx] at hl
    obtain ⟨rfl, hs⟩ := hl
    rw [Flow.andThen_stop]
    refine ⟨v, rfl, (DecodeFrame.trans (t := unpackInit s) rfl hf).trans hs.decodeFrame, hs.rem_eq.trans hr, hs.pos_eq.trans hpos,
      hs.outPos_eq.trans hop, by rw [hs.outCap_eq, hs.out_eq]; exact hwt, fun j => ?_⟩
    have : v.outAt j = t.outAt j := by unfold State.outAt; rw [hs.out_eq]
    rw [this, hoa j]
    rfl

/-! ## The decoder as a function of the bits (R189) -/

/-- The decoder after it has emitted `out` since `o`. -/
structure Emitting (base : Nat) (o : State) (out : List Sym) (s : State) : Prop where
  frame : DecodeFrame o s
  count : s.outPos.toNat = out.length
  bound : out.length ≤ o.origLen.toNat
  room : base + o.origLen.toNat ≤ o.outCap.toNat
  wf : Store.wf unlisted.byte o.outCap.toNat s.out = true
  bytes : ∀ j, s.outAt j = if base ≤ j ∧ j < base + out.length then out.getD (j - base) 0#8 else o.outAt j

theorem Emitting.congr {base : Nat} {o s t : State} {out : List Sym} (h : Emitting base o out s)
    (hf : DecodeFrame s t) (ho : t.out = s.out) (hp : t.outPos = s.outPos) : Emitting base o out t where
  frame := h.frame.trans hf
  count := by rw [hp]; exact h.count
  bound := h.bound
  room := h.room
  wf := by rw [ho]; exact h.wf
  bytes := fun j => by
    have : t.outAt j = s.outAt j := by unfold State.outAt; rw [ho]
    rw [this]
    exact h.bytes j

/-- One emission (R193). -/
theorem Emitting.emit {base : Nat} {o s : State} {out : List Sym} (h : Emitting base o out s)
    (hlt : out.length < o.origLen.toNat) :
    Emitting base o (out ++ [(s.nodeAt s.pos).sym]) (emitSym base s) where
  frame := h.frame.trans (decodeFrame_emit base s)
  count := by
    show (s.outPos + 1#32).toNat = _
    rw [BitVec.toNat_add, h.count, BitVec.toNat_ofNat, List.length_append, List.length_singleton]
    have := o.origLen.isLt
    omega
  bound := by rw [List.length_append, List.length_singleton]; omega
  room := h.room
  wf := Store.wf_put h.wf _ (by have := h.room; rw [h.count]; omega)
  bytes := fun j => by
    have e : (emitSym base s).outAt j = if j = base + s.outPos.toNat then (s.nodeAt s.pos).sym else s.outAt j :=
      outAt_putOut h.wf _ _ j
    rw [e, h.count, h.bytes j, List.length_append, List.length_singleton]
    by_cases hj : j = base + out.length
    · rw [if_pos hj, if_pos (by omega), hj, Nat.add_sub_cancel_left]
      simp
    · rw [if_neg hj]
      by_cases hj2 : base ≤ j ∧ j < base + out.length
      · rw [if_pos hj2, if_pos (by omega)]
        rw [List.getD_eq_getElem _ _ (by omega), List.getD_eq_getElem _ _ (by simp; omega),
          List.getElem_append_left (by omega)]
      · rw [if_neg hj2, if_neg (by omega)]

/-- The decode ended as `r` says, in a state that has emitted `r.out`. -/
def EndsAs (base : Nat) (o : State) (r : Decoded) (x : Flow) : Prop :=
  ∃ t, x = .stop (if r.cause = .none then .done else .fail r.cause) t ∧ Emitting base o r.out t ∧
    t.rem.toNat = r.rem ∧ t.pos = r.pos

theorem DecodeFrame.nodeAt_eq {s t : State} (h : DecodeFrame s t) : t.nodeAt = s.nodeAt := by
  funext n; unfold State.nodeAt; rw [h.node_eq]

theorem DecodeFrame.child_eq {s t : State} (h : DecodeFrame s t) : t.child = s.child := by
  funext p b; unfold State.child; rw [h.nodeAt_eq]

theorem outPos_eq_iff {base : Nat} {o s : State} {out : List Sym} (h : Emitting base o out s) :
    s.outPos = s.origLen ↔ out.length = o.origLen.toNat := by
  rw [h.frame.origLen_eq, ← h.count]
  exact ⟨fun e => by rw [e], fun e => BitVec.eq_of_toNat_eq e⟩

theorem rem_eq_zero_iff (s : State) : s.rem = 0#40 ↔ s.rem.toNat = 0 :=
  ⟨fun e => by rw [e]; rfl, fun e => BitVec.eq_of_toNat_eq e⟩

/-- A run of UNPACKBIT over a list of bits, then UNPACK-EXHAUST, ends as `decodeBits` says. -/
theorem runBits_ends (base : Nat) (o : State) (bs : List Bool) : ∀ (out : List Sym) (s : State),
    Emitting base o out s →
    EndsAs base o (o.decodeBits bs s.pos s.rem.toNat out) ((runBits base bs s).andThen unpackExhaust) := by
  induction bs with
  | nil =>
    intro out s h
    rw [runBits, Flow.andThen_go, State.decodeBits, unpackExhaust, h.frame.root_eq]
    have hz := rem_eq_zero_iff s
    by_cases hc : s.rem ≠ 0#40 ∨ s.pos ≠ o.root
    · rw [if_pos hc, if_pos (hc.imp_left fun h h' => h (hz.2 h'))]
      exact ⟨_, rfl, h.congr rfl rfl rfl, rfl, rfl⟩
    · rw [if_neg hc, if_neg (fun h => hc (h.imp_left fun h h' => h (hz.1 h')))]
      have hr : s.rem.toNat = 0 := by
        rw [not_or, ne_eq, not_not] at hc
        exact hz.1 hc.1
      by_cases ho : s.outPos = s.origLen
      · rw [if_pos ho, if_pos ((outPos_eq_iff h).1 ho)]
        exact ⟨_, rfl, h.congr rfl rfl rfl, hr, rfl⟩
      · rw [if_neg ho, if_neg fun e => ho ((outPos_eq_iff h).2 e)]
        exact ⟨_, rfl, h.congr rfl rfl rfl, hr, rfl⟩
  | cons b bs ih =>
    intro out s h
    rw [runBits, State.decodeBits, ← h.frame.child_eq, ← h.frame.nodeAt_eq]
    have hz := rem_eq_zero_iff s
    have hrlt : s.rem.toNat < 2 ^ 40 := s.rem.isLt
    have hmove : Emitting base o out (unpackMove b (s.enter .unpackBit)) := h.congr rfl rfl rfl
    have hr1 : s.rem ≠ 0#40 → (s.rem - 1#40).toNat = s.rem.toNat - 1 := by
      intro hne
      have : s.rem.toNat ≠ 0 := fun e => hne (hz.2 e)
      rw [BitVec.toNat_sub, BitVec.toNat_ofNat]
      omega
    have hone : s.rem ≠ 0#40 → (s.rem - 1#40 = 0#40 ↔ s.rem.toNat = 1) := by
      intro hne
      have : s.rem.toNat ≠ 0 := fun e => hne (hz.2 e)
      constructor
      · intro e
        have := congrArg BitVec.toNat e
        rw [hr1 hne, BitVec.toNat_ofNat] at this
        omega
      · intro e
        exact BitVec.eq_of_toNat_eq (by rw [hr1 hne, e]; rfl)
    rcases unpackBit_cases b base s with ⟨h0, e⟩ | ⟨h0, h1, e⟩ | ⟨h0, h1, h2, e⟩ | ⟨h0, h1, h2, h3, e⟩ |
      ⟨h0, h1, h2, h3, h4⟩
    · rw [e, if_pos (hz.1 h0)]
      exact ⟨_, rfl, h.congr rfl rfl rfl, hz.1 h0, rfl⟩
    · rw [e, if_neg (fun h => h0 (hz.2 h)), if_pos h1]
      exact ⟨_, rfl, hmove, hr1 h0, h1⟩
    · rw [e, if_neg (fun h => h0 (hz.2 h)), if_neg h1, h2]
      have := ih out _ hmove
      rw [show (unpackMove b (s.enter .unpackBit)).rem.toNat = s.rem.toNat - 1 from hr1 h0] at this
      exact this
    · rw [e, if_neg (fun h => h0 (hz.2 h)), if_neg h1, h2]
      simp only [(outPos_eq_iff h).1 h3, if_true]
      exact ⟨_, rfl, hmove, hr1 h0, rfl⟩
    · have hlt : out.length < o.origLen.toNat := by
        have h5 := h.bound
        have h6 : out.length ≠ o.origLen.toNat := fun e => h3 ((outPos_eq_iff h).2 e)
        omega
      rw [if_neg (fun h => h0 (hz.2 h)), if_neg h1, h2]
      simp only [if_neg (Nat.ne_of_lt hlt)]
      have hem := hmove.emit hlt
      have hsym : ((unpackMove b (s.enter .unpackBit)).nodeAt (unpackMove b (s.enter .unpackBit)).pos).sym =
        (s.nodeAt (s.child s.pos b)).sym := rfl
      rw [hsym] at hem
      have hroot : (emitSym base (unpackMove b (s.enter .unpackBit))).pos = o.root := h.frame.root_eq
      have hcnt : s.outPos + 1#32 = s.origLen ↔ out.length + 1 = o.origLen.toNat := by
        have := outPos_eq_iff hem
        rw [List.length_append, List.length_singleton] at this
        exact this
      rcases h4 with ⟨h5, h6, e⟩ | ⟨h5, h6, e⟩ | ⟨h5, e⟩
      · rw [e, if_pos ((hone h0).1 h5), if_pos (hcnt.1 h6)]
        exact ⟨_, rfl, hem, (rem_eq_zero_iff _).1 h5, hroot⟩
      · rw [e, if_pos ((hone h0).1 h5), if_neg fun h => h6 (hcnt.2 h)]
        exact ⟨_, rfl, hem, (rem_eq_zero_iff _).1 h5, hroot⟩
      · rw [e, if_neg fun h => h5 ((hone h0).2 h), Flow.andThen_go]
        have := ih _ _ hem
        rw [show (emitSym base (unpackMove b (s.enter .unpackBit))).rem.toNat = s.rem.toNat - 1 from hr1 h0,
          hroot] at this
        exact this

theorem EndsAs.of_sim {base : Nat} {o : State} {r : Decoded} {x y : Flow} (h : EndsAs base o r x) (hs : SimShift x y) :
    EndsAs base o r y := by
  obtain ⟨t, rfl, he, hr, hp⟩ := h
  cases y with
  | go u => exact hs.elim
  | stop e u =>
    obtain ⟨rfl, hs⟩ := hs
    exact ⟨u, rfl, he.congr hs.decodeFrame hs.out_eq hs.outPos_eq, by rw [hs.rem_eq]; exact hr,
      by rw [hs.pos_eq]; exact hp⟩

theorem unpackExhaust_sim {s t : State} (h : SameShift s t) : SimShift (unpackExhaust s) (unpackExhaust t) := by
  have e : t = setShift t.shReg t.bitIdx t.wIdx s := h
  rw [e]
  generalize t.shReg = x, t.bitIdx = y, t.wIdx = z
  have hc : (setShift x y z s).rem = s.rem ∧ (setShift x y z s).pos = s.pos ∧ (setShift x y z s).root = s.root ∧
    (setShift x y z s).outPos = s.outPos ∧ (setShift x y z s).origLen = s.origLen := ⟨rfl, rfl, rfl, rfl, rfl⟩
  unfold unpackExhaust
  rw [hc.1, hc.2.1, hc.2.2.1, hc.2.2.2.1, hc.2.2.2.2]
  by_cases h1 : s.rem ≠ 0#40 ∨ s.pos ≠ s.root
  · rw [if_pos h1, if_pos h1]; exact ⟨rfl, rfl⟩
  · rw [if_neg h1, if_neg h1]
    by_cases h2 : s.outPos = s.origLen
    · rw [if_pos h2, if_pos h2]; exact ⟨rfl, rfl⟩
    · rw [if_neg h2, if_neg h2]; exact ⟨rfl, rfl⟩

/-- Everything UNPACK can do (R185 to R196): it ends as `State.decoded` says and has emitted the symbols it says. -/
theorem unpack_spec (base : Nat) (s : State) (hcap : base + s.origLen.toNat ≤ s.outCap.toNat)
    (hwf : Store.wf unlisted.byte s.outCap.toNat s.out = true) : EndsAs base s s.decoded (unpack base s) := by
  have h := runBits_ends base s (s.streamBits (64 * s.wordCnt.toNat)) [] (unpackInit s)
    { frame := rfl, count := rfl, bound := Nat.zero_le _, room := hcap, wf := hwf
      bytes := fun j => by rw [if_neg (by simp only [List.length_nil]; omega)]; rfl }
  refine EndsAs.of_sim h ?_
  unfold unpack
  exact (unpack_loops base s).andThen fun t u _ _ hs => unpackExhaust_sim hs

/-- The causes of a decode (R185). -/
theorem decodeBits_cause (s : State) (bs : List Bool) : ∀ (pos : NodeIdx) (rem : Nat) (out : List Sym),
    (s.decodeBits bs pos rem out).cause ∈ [Cause.none, .trailing, .noChild, .count, .exhaust, .overrun] := by
  induction bs with
  | nil =>
    intro pos rem out
    rw [State.decodeBits]
    split
    · simp
    · split <;> simp
  | cons b bs ih =>
    intro pos rem out
    rw [State.decodeBits]
    split
    · simp
    · split
      · simp
      · split
        · exact ih _ _ _
        · split
          · simp
          · split
            · split <;> simp
            · exact ih _ _ _

end Sys2Proof.Machine
end

