-- ==== Sys2Proof/Laws/Pack.lean ====
section
/-! SUPPORT. The bit packer: FLATTEN makes the table of the tree's leaves; PACKBIT over a list of bits lays them out most
significant first; FLUSH closes the last word; the capacity check fires exactly when the words do not fit. -/

namespace Sys2Proof.Machine

/-! ## FLATTEN (R166) -/

theorem lutAt_putLut {s : State} (h : Store.wf unlisted.lut numSyms s.lut = true) (x : Sym) (v : NodeIdx) (y : Sym) :
    (s.putLut x v).lutAt y = if y = x then v else s.lutAt y := by
  unfold State.lutAt
  rw [putLut_lut, Store.get_put h]
  simp only [BitVec.toNat_inj]

theorem wf_putLut {s : State} (h : Store.wf unlisted.lut numSyms s.lut = true) (x : Sym) (v : NodeIdx) :
    Store.wf unlisted.lut numSyms (s.putLut x v).lut = true :=
  Store.wf_put h v x.isLt

/-- What Walk does on a tree whose leaves hold distinct symbols (R166). -/
theorem walkLut_spec {T : Tree} : ∀ (k : Nat) (s : State), Store.wf unlisted.lut numSyms s.lut = true →
    T.Rep s.nodeAt → T.height < k → (∀ m ∈ T.leaves, ∀ n ∈ T.leaves, (s.nodeAt m).sym = (s.nodeAt n).sym → m = n) →
    ∃ t, walkLut k T.root s = .go t ∧ t = { s with lut := t.lut } ∧ Store.wf unlisted.lut numSyms t.lut = true ∧
      (∀ n ∈ T.leaves, t.lutAt (s.nodeAt n).sym = n) ∧
      (∀ x, (∀ n ∈ T.leaves, (s.nodeAt n).sym ≠ x) → t.lutAt x = s.lutAt x) := by
  induction T with
  | leaf n =>
    intro k s hw hr hk _
    obtain ⟨k, rfl⟩ : ∃ k', k = k' + 1 := ⟨k - 1, by simp only [Tree.height] at hk; omega⟩
    refine ⟨s.putLut (s.nodeAt n).sym n, ?_, rfl, wf_putLut hw _ _, ?_, ?_⟩
    · rw [walkLut, Tree.root, if_neg hr.1, hr.2]
    · intro m hm
      rw [Tree.leaves, List.mem_singleton] at hm
      subst hm
      rw [lutAt_putLut hw, if_pos rfl]
    · intro x hx
      rw [lutAt_putLut hw, if_neg]
      rintro rfl
      exact hx n (by simp [Tree.leaves]) rfl
  | wrap n l ih =>
    intro k s hw hr hk hi
    obtain ⟨hna, hki, hle, hri, hrl⟩ := hr
    simp only [Tree.height] at hk
    obtain ⟨k, rfl⟩ : ∃ k', k = k' + 1 := ⟨k - 1, by omega⟩
    obtain ⟨k, rfl⟩ : ∃ k', k = k' + 1 := ⟨k - 1, by omega⟩
    obtain ⟨t, hv, hrest⟩ := ih (k + 1) s hw hrl (by omega) hi
    refine ⟨t, ?_, hrest⟩
    rw [walkLut, Tree.root, if_neg hna, hki]
    simp only [hle, hri]
    rw [hv, Flow.andThen_go, walkLut, if_pos rfl]
  | node n l r ihl ihr =>
    intro k s hw hr hk hi
    obtain ⟨hna, hki, hle, hri, hrl, hrr⟩ := hr
    simp only [Tree.height] at hk
    obtain ⟨k, rfl⟩ : ∃ k', k = k' + 1 := ⟨k - 1, by omega⟩
    rw [Tree.leaves] at hi
    obtain ⟨t, hv, hf, hwt, hl, ho⟩ := ihl k s hw hrl (by omega)
      (fun m hm m' hm' => hi m (List.mem_append_left _ hm) m' (List.mem_append_left _ hm'))
    have hna' : ∀ m, t.nodeAt m = s.nodeAt m := fun m => by unfold State.nodeAt; rw [hf]
    have hna'' : t.nodeAt = s.nodeAt := funext hna'
    obtain ⟨u, hvu, hfu, hwu, hlu, hou⟩ := ihr k t hwt (by rw [hna'']; exact hrr) (by omega)
      (fun m hm m' hm' => by
        rw [hna'']; exact hi m (List.mem_append_right _ hm) m' (List.mem_append_right _ hm'))
    rw [hna''] at hlu hou
    refine ⟨u, ?_, ?_, hwu, ?_, ?_⟩
    · rw [walkLut, Tree.root, if_neg hna, hki]
      simp only [hle, hri]
      rw [hv, Flow.andThen_go, hvu]
    · rw [hfu, hf]
    · intro m hm
      rw [Tree.leaves, List.mem_append] at hm
      by_cases hmr : m ∈ r.leaves
      · exact hlu m hmr
      · have hml := hm.resolve_right hmr
        rw [hou _ fun m' hm' e => hmr ?_, hl m hml]
        rw [← hi m' (List.mem_append_right _ hm') m (List.mem_append_left _ hml) e]
        exact hm'
    · intro x hx
      rw [Tree.leaves] at hx
      rw [hou x fun m hm => hx m (List.mem_append_right _ hm)]
      exact ho x fun m hm => hx m (List.mem_append_left _ hm)

/-- The first loop of FLATTEN leaves every entry ABSENT. -/
theorem clearLut_spec (s : State) (h : Store.wf unlisted.lut numSyms s.lut = true) :
    loopUp numSyms 0 (fun i t => t.putLut (symOf i) absent) s = { s with lut := [] } := by
  have hf := loopUp_inv (f := fun i t => t.putLut (symOf i) absent)
    (fun i t => t = { s with lut := t.lut } ∧ Store.wf unlisted.lut numSyms t.lut = true ∧
      ∀ a, a < i → Store.get unlisted.lut t.lut a = unlisted.lut) numSyms 0
    (fun i t _ hi ⟨he, hw, hg⟩ => by
      refine ⟨?_, ?_, fun a ha => ?_⟩
      · rw [he]; rfl
      · exact wf_putLut hw _ _
      · rw [putLut_lut, Store.get_put hw, symOf_toNat (by omega)]
        split
        · rfl
        · exact hg a (by omega)) s ⟨rfl, h, fun a ha => absurd ha (by omega)⟩
  have hn := Store.eq_nil_of_get hf.2.1 (fun a ha => hf.2.2 a (by omega))
  refine hf.1.trans ?_
  rw [hn]

theorem lutAt_nil (s : State) (x : Sym) : ({ s with lut := [] } : State).lutAt x = absent := rfl

/-- What FLATTEN does on a tree whose leaves hold distinct symbols (R166). -/
theorem flatten_spec {T : Tree} {s : State} (h : Store.wf unlisted.lut numSyms s.lut = true) (hroot : s.root = T.root)
    (hr : T.Rep s.nodeAt) (hk : T.height < walkFuel)
    (hi : ∀ m ∈ T.leaves, ∀ n ∈ T.leaves, (s.nodeAt m).sym = (s.nodeAt n).sym → m = n) :
    ∃ t, flatten s = .go t ∧ t = { s with lut := t.lut, seq := .flatten } ∧
      Store.wf unlisted.lut numSyms t.lut = true ∧ (∀ n ∈ T.leaves, t.lutAt (s.nodeAt n).sym = n) ∧
      (∀ x, (∀ n ∈ T.leaves, (s.nodeAt n).sym ≠ x) → t.lutAt x = absent) := by
  have e : flatten s = walkLut walkFuel T.root { s.enter .flatten with lut := [] } := by
    have hc := clearLut_spec (s.enter .flatten) h
    unfold flatten
    rw [hroot]
    exact congrArg (walkLut walkFuel T.root) hc
  obtain ⟨t, hv, hf, hw, hl, ho⟩ := walkLut_spec walkFuel { s.enter .flatten with lut := [] } rfl hr hk hi
  exact ⟨t, e.trans hv, hf, hw, hl, fun x hx => ho x hx⟩

/-! ## PACKBIT over a list of bits (R167, R170) -/

/-- PACKBIT over a list of bits, in order. -/
def packBits : List Bool → State → Flow
  | [], s => .go s
  | b :: bs, s => (packBit b s).andThen (packBits bs)

theorem packBits_append (xs ys : List Bool) (s : State) :
    packBits (xs ++ ys) s = (packBits xs s).andThen (packBits ys) := by
  induction xs generalizing s with
  | nil => rfl
  | cons b xs ih =>
    simp only [List.cons_append, packBits, Flow.andThen_assoc]
    congr 1
    funext t
    exact ih t

theorem packCode_eq (n : Nat) (p : Pattern) (s : State) : packCode n p s = packBits (patBits n p) s := by
  induction n generalizing s with
  | zero => rfl
  | succ n ih =>
    rw [packCode, patBits, packBits]
    congr 1
    funext t
    exact ih t

/-- The fields PACK may change after FLATTEN (R165). -/
def PackFrame (s t : State) : Prop :=
  t = { s with pack := t.pack, acc := t.acc, accCnt := t.accCnt, wIdx := t.wIdx, inIdx := t.inIdx, bitCnt := t.bitCnt
               seq := t.seq }

theorem PackFrame.refl (s : State) : PackFrame s s := rfl

theorem PackFrame.trans {s t u : State} (h : PackFrame s t) (h' : PackFrame t u) : PackFrame s u := by
  unfold PackFrame at *
  rw [h']; rw [h]

/-- The packer after the bits `bs`, started from `o`: whole words are in PACK, the rest stands at the top of ACC (R21, R167). -/
structure Packed (o : State) (bs : List Bool) (t : State) : Prop where
  frame : PackFrame o t
  wf : Store.wf unlisted.word t.packCap.toNat t.pack = true
  bitCnt : t.bitCnt.toNat = bs.length
  accCnt : t.accCnt.toNat = bs.length % 64
  wIdx : t.wIdx.toNat = bs.length / 64
  fits : bs.length / 64 ≤ t.packCap.toNat
  words : ∀ k (hk : k < bs.length), k / 64 < bs.length / 64 → t.streamBit k = bs[k]
  acc : ∀ j, j < 64 → t.acc.getLsbD (63 - j) = (bs[64 * (bs.length / 64) + j]?).getD false
  keep : ∀ i, bs.length / 64 ≤ i → t.packAt i = o.packAt i

theorem packAt_putPack {s : State} {c : Nat} (h : Store.wf unlisted.word c s.pack = true) (i : Nat) (v : PackWord)
    (j : Nat) : (s.putPack i v).packAt j = if j = i then v else s.packAt j := by
  unfold State.packAt
  rw [putPack_pack, Store.get_put h]

theorem shiftIn_acc (b : Bool) (s : State) {n : Nat} (hn : s.accCnt.toNat = n) (hlt : n < 64) (j : Nat) (hj : j < 64) :
    (shiftIn b s).acc.getLsbD (63 - j) = if j = n then s.acc.getLsbD (63 - j) || b else s.acc.getLsbD (63 - j) := by
  unfold shiftIn
  simp only [BitVec.getLsbD_or, BitVec.getLsbD_shiftLeft, BitVec.getLsbD_setWidth, hn]
  by_cases hjn : j = n
  · subst hjn
    simp only [if_pos, Nat.sub_self, Nat.lt_irrefl, decide_false, Bool.not_false]
    rw [show decide (63 - j < 64) = true by simp; omega, show decide (0 < 64) = true by rfl]
    cases b <;> simp
  · rw [if_neg hjn]
    by_cases hlt' : 63 - j < 63 - n
    · simp [hlt']
    · rw [BitVec.getLsbD_of_ge (BitVec.ofBool b) (63 - j - (63 - n)) (by omega)]
      simp

/-- What one PACKBIT does (R170): the bit is taken in, or, when a word fills up with no room left, the packer fails. -/
theorem packBit_spec {o t : State} {bs : List Bool} (h : Packed o bs t) (b : Bool) (hlen : bs.length + 1 < 2 ^ 40) :
    ((bs.length + 1) / 64 ≤ t.packCap.toNat ∧ ∃ u, packBit b t = .go u ∧ Packed o (bs ++ [b]) u) ∨
    (t.packCap.toNat < (bs.length + 1) / 64 ∧ ∃ u, packBit b t = .stop (.fail .packCap) u ∧ PackFrame o u ∧
      Store.wf unlisted.word u.packCap.toNat u.pack = true) := by
  have hac := h.accCnt
  have hm : bs.length % 64 < 64 := Nat.mod_lt _ (by decide)
  have hsa : (shiftIn b t).accCnt.toNat = bs.length % 64 + 1 := by
    show (t.accCnt + 1#7).toNat = _
    rw [BitVec.toNat_add, hac, BitVec.toNat_ofNat]
    omega
  have hsb : (t.bitCnt + 1#40).toNat = bs.length + 1 := by
    rw [BitVec.toNat_add, h.bitCnt, BitVec.toNat_ofNat]
    omega
  have hacc : ∀ j, j < 64 → (shiftIn b t).acc.getLsbD (63 - j) =
      ((bs ++ [b])[64 * (bs.length / 64) + j]?).getD false := by
    intro j hj
    rw [shiftIn_acc b t hac hm j hj, h.acc j hj]
    by_cases hjn : j = bs.length % 64
    · have e : 64 * (bs.length / 64) + j = bs.length := by omega
      rw [if_pos hjn, e]
      simp
    · rw [if_neg hjn]
      by_cases hjl : 64 * (bs.length / 64) + j < bs.length
      · rw [List.getElem?_append_left hjl]
      · rw [List.getElem?_eq_none (by omega), List.getElem?_eq_none (by simp; omega)]
  have hframe : PackFrame o (shiftIn b t) := h.frame.trans rfl
  unfold packBit
  by_cases hfull : (shiftIn b t).accCnt = 64#7
  · -- the word is full
    have hfn : bs.length % 64 = 63 := by
      have := congrArg BitVec.toNat hfull
      rw [hsa] at this
      simpa using this
    have hdiv : (bs.length + 1) / 64 = bs.length / 64 + 1 := by omega
    have hmod : (bs.length + 1) % 64 = 0 := by omega
    rw [if_pos hfull]
    unfold writeWord
    by_cases hcap : (shiftIn b t).wIdx = (shiftIn b t).packCap
    · right
      rw [if_pos hcap, Flow.andThen_stop]
      have hc : t.wIdx = t.packCap := hcap
      have := congrArg BitVec.toNat hc
      rw [h.wIdx] at this
      exact ⟨by omega, _, rfl, hframe, h.wf⟩
    · left
      rw [if_neg hcap, Flow.andThen_go]
      have hlt : bs.length / 64 < t.packCap.toNat := by
        have hne : t.wIdx.toNat ≠ t.packCap.toNat := fun e => hcap (BitVec.eq_of_toNat_eq e)
        rw [h.wIdx] at hne
        have := h.fits
        omega
      have hwt : (shiftIn b t).wIdx.toNat = bs.length / 64 := h.wIdx
      refine ⟨by omega, _, rfl, ?_⟩
      have hpk : ∀ i, ({ (shiftIn b t).putPack (shiftIn b t).wIdx.toNat (shiftIn b t).acc with
          wIdx := (shiftIn b t).wIdx + 1#34, acc := 0#64, accCnt := 0#7 } : State).packAt i =
          if i = bs.length / 64 then (shiftIn b t).acc else t.packAt i := fun i => by
        have := packAt_putPack (s := shiftIn b t) h.wf (shiftIn b t).wIdx.toNat (shiftIn b t).acc i
        rw [hwt] at this
        refine Eq.trans ?_ this
        rw [hwt]
        rfl
      refine
        { frame := hframe.trans rfl
          wf := Store.wf_put (d := unlisted.word) h.wf _ (by rw [hwt]; exact hlt)
          bitCnt := by rw [List.length_append]; exact hsb
          accCnt := by rw [List.length_append, List.length_singleton, hmod]; rfl
          wIdx := ?_
          fits := by rw [List.length_append, List.length_singleton, hdiv]; exact hlt
          words := ?_
          acc := ?_
          keep := ?_ }
      · rw [List.length_append, List.length_singleton, hdiv]
        show (t.wIdx + 1#34).toNat = _
        rw [BitVec.toNat_add, h.wIdx, BitVec.toNat_ofNat]
        have := t.packCap.isLt
        omega
      · intro k hk hkd
        rw [List.length_append, List.length_singleton] at hk hkd
        rw [hdiv] at hkd
        unfold State.streamBit
        rw [hpk]
        by_cases hlast : k / 64 = bs.length / 64
        · rw [if_pos hlast, hacc (k % 64) (Nat.mod_lt _ (by decide)),
            show 64 * (bs.length / 64) + k % 64 = k by omega, List.getElem?_eq_getElem (by simpa using hk)]
          rfl
        · rw [if_neg hlast, List.getElem_append_left (by omega)]
          exact h.words k (by omega) (by omega)
      · intro j hj
        rw [List.length_append, List.length_singleton, hdiv]
        rw [List.getElem?_eq_none (by simp; omega)]
        simp
      · intro i hi
        rw [List.length_append, List.length_singleton, hdiv] at hi
        rw [hpk, if_neg (by omega)]
        exact h.keep i (by omega)
  · -- the word is not full
    have hfn : bs.length % 64 ≠ 63 := fun e => by
      refine hfull (BitVec.eq_of_toNat_eq ?_)
      rw [hsa, e]
      rfl
    have hdiv : (bs.length + 1) / 64 = bs.length / 64 := by omega
    left
    rw [if_neg hfull]
    refine ⟨by rw [hdiv]; exact h.fits, _, rfl, ?_⟩
    refine
      { frame := hframe
        wf := h.wf
        bitCnt := by rw [List.length_append]; exact hsb
        accCnt := by rw [List.length_append, List.length_singleton, hsa]; omega
        wIdx := by rw [List.length_append, List.length_singleton, hdiv]; exact h.wIdx
        fits := by rw [List.length_append, List.length_singleton, hdiv]; exact h.fits
        words := ?_
        acc := ?_
        keep := ?_ }
    · intro k hk hkd
      rw [List.length_append, List.length_singleton] at hk hkd
      rw [hdiv] at hkd
      rw [List.getElem_append_left (by omega)]
      exact h.words k (by omega) hkd
    · intro j hj
      rw [List.length_append, List.length_singleton, hdiv]
      exact hacc j hj
    · intro i hi
      rw [List.length_append, List.length_singleton, hdiv] at hi
      exact h.keep i hi

theorem Packed.packCap_eq {o t : State} {bs : List Bool} (h : Packed o bs t) : t.packCap = o.packCap := by
  rw [h.frame]

/-- What PACKBIT over a list of bits does. -/
theorem packBits_spec {o : State} (cs : List Bool) {bs : List Bool} {t : State} (h : Packed o bs t)
    (hlen : bs.length + cs.length < 2 ^ 40) :
    ((bs.length + cs.length) / 64 ≤ o.packCap.toNat ∧ ∃ u, packBits cs t = .go u ∧ Packed o (bs ++ cs) u) ∨
    (o.packCap.toNat < (bs.length + cs.length) / 64 ∧ ∃ u, packBits cs t = .stop (.fail .packCap) u ∧ PackFrame o u ∧
      Store.wf unlisted.word u.packCap.toNat u.pack = true) := by
  induction cs generalizing bs t with
  | nil =>
    left
    refine ⟨by rw [← h.packCap_eq]; exact h.fits, t, rfl, by rwa [List.append_nil]⟩
  | cons c cs ih =>
    rw [List.length_cons] at hlen ⊢
    rw [packBits]
    rcases packBit_spec h c (by omega) with ⟨_, u, hu, hp⟩ | ⟨hc, u, hu, hf, hw⟩
    · rw [hu, Flow.andThen_go]
      have := ih hp (by rw [List.length_append, List.length_singleton]; omega)
      rw [List.length_append, List.length_singleton, List.append_assoc, List.singleton_append] at this
      rwa [show bs.length + (cs.length + 1) = bs.length + 1 + cs.length by omega]
    · right
      rw [hu, Flow.andThen_stop]
      rw [h.packCap_eq] at hc
      exact ⟨by omega, u, rfl, hf, hw⟩

/-! ## The whole buffer -/

theorem Packed.congr_frame {o t u : State} {bs : List Bool} (h : Packed o bs t)
    (e : u = { t with inIdx := u.inIdx, seq := u.seq }) : Packed o bs u := by
  have hp : u.pack = t.pack := by rw [e]
  have hb : u.bitCnt = t.bitCnt := by rw [e]
  have ha : u.acc = t.acc := by rw [e]
  have hc : u.accCnt = t.accCnt := by rw [e]
  have hx : u.wIdx = t.wIdx := by rw [e]
  have hk : u.packCap = t.packCap := by rw [e]
  have hat : ∀ i, u.packAt i = t.packAt i := fun i => by unfold State.packAt; rw [hp]
  refine
    { frame := h.frame.trans ?_
      wf := by rw [hk, hp]; exact h.wf
      bitCnt := by rw [hb]; exact h.bitCnt
      accCnt := by rw [hc]; exact h.accCnt
      wIdx := by rw [hx]; exact h.wIdx
      fits := by rw [hk]; exact h.fits
      words := fun k hk hd => by unfold State.streamBit; rw [hat]; exact h.words k hk hd
      acc := fun j hj => by rw [ha]; exact h.acc j hj
      keep := fun i hi => by rw [hat]; exact h.keep i hi }
  unfold PackFrame
  rw [e]

theorem packed_init (s : State) (h : Store.wf unlisted.word s.packCap.toNat s.pack = true) :
    Packed s [] (packInit s) where
  frame := rfl
  wf := h
  bitCnt := rfl
  accCnt := rfl
  wIdx := rfl
  fits := Nat.zero_le _
  words := fun k hk => absurd hk (by simp)
  acc := fun j hj => by simp [packInit]
  keep := fun i _ => rfl

/-- The input bytes packed one after another (R99, R168), when every one has an entry in LUT. -/
theorem packLoop_spec {o : State} (n a : Nat) {bs : List Bool} {t : State} (h : Packed o bs t)
    {cs : List Bool} (hcs : cs = (List.range' a n).flatMap (fun i => codeBits (o.codeOf (o.inAt i))))
    (hn : ∀ i, a ≤ i → i < a + n → o.lutAt (o.inAt i) ≠ absent)
    (hlen : bs.length + cs.length < 2 ^ 40) :
    ((bs.length + cs.length) / 64 ≤ o.packCap.toNat ∧ ∃ u, loopFlow n a packByte t = .go u ∧ Packed o (bs ++ cs) u) ∨
    (o.packCap.toNat < (bs.length + cs.length) / 64 ∧ ∃ u, loopFlow n a packByte t = .stop (.fail .packCap) u ∧
      PackFrame o u ∧ Store.wf unlisted.word u.packCap.toNat u.pack = true) := by
  induction n generalizing a bs t cs with
  | zero =>
    left
    rw [List.range'_zero, List.flatMap_nil] at hcs
    subst hcs
    exact ⟨by rw [← h.packCap_eq]; simpa using h.fits, t, rfl, by simpa using h⟩
  | succ n ih =>
    rw [List.range'_succ, List.flatMap_cons] at hcs
    generalize hrest : (List.range' (a + 1) n).flatMap (fun i => codeBits (o.codeOf (o.inAt i))) = rest at hcs
    subst hcs
    rw [List.length_append] at hlen ⊢
    rw [loopFlow_succ]
    have hin : t.inAt a = o.inAt a := by unfold State.inAt; rw [h.frame]
    let t1 : State := ({ t with inIdx := BitVec.ofNat 32 (a + 1) } : State).enter .packSym
    have h1 : Packed o bs t1 := h.congr_frame rfl
    have hlut : t1.lutAt (o.inAt a) = o.lutAt (o.inAt a) := by unfold State.lutAt; rw [h1.frame]
    have hcode : t1.codeOf (o.inAt a) = o.codeOf (o.inAt a) := by
      unfold State.codeOf State.nodeAt State.lutAt; rw [h1.frame]
    have hb : packByte a t = packBits (codeBits (o.codeOf (o.inAt a))) t1 := by
      unfold packByte
      rw [hin]
      refine (if_neg fun e => hn a (Nat.le_refl a) (by omega) (hlut.symm.trans e)).trans ?_
      rw [packCode_eq]
      show packBits (codeBits (t1.codeOf (o.inAt a))) t1 = _
      rw [hcode]
    rw [hb]
    rcases packBits_spec (codeBits (o.codeOf (o.inAt a))) h1 (by omega) with ⟨_, u, hu, hp⟩ | ⟨hc, u, hu, hf, hw⟩
    · rw [hu, Flow.andThen_go]
      have := ih (a + 1) hp hrest.symm (fun i h1 h2 => hn i (by omega) (by omega)) (by rw [List.length_append]; omega)
      rw [List.length_append, List.append_assoc] at this
      rwa [← Nat.add_assoc]
    · right
      rw [hu, Flow.andThen_stop]
      exact ⟨by omega, u, rfl, hf, hw⟩

/-- What FLUSH does (R172): the last partial word is written, zero padded; it fails when no word is left for it. -/
theorem flush_spec {o t : State} {bs : List Bool} (h : Packed o bs t) :
    ((bs.length + 63) / 64 ≤ o.packCap.toNat ∧ ∃ u, flush t = .go u ∧
      u = { o with pack := u.pack, acc := u.acc, accCnt := u.accCnt, wIdx := u.wIdx, inIdx := u.inIdx
                   bitCnt := u.bitCnt, seq := u.seq, wordCnt := u.wordCnt } ∧
      Store.wf unlisted.word u.packCap.toNat u.pack = true ∧ u.bitCnt.toNat = bs.length ∧
      u.wordCnt.toNat = (bs.length + 63) / 64 ∧
      (∀ k, k < 64 * ((bs.length + 63) / 64) → u.streamBit k = (bs[k]?).getD false) ∧
      (∀ i, (bs.length + 63) / 64 ≤ i → u.packAt i = o.packAt i)) ∨
    (o.packCap.toNat < (bs.length + 63) / 64 ∧ ∃ u, flush t = .stop (.fail .packCap) u ∧ PackFrame o u ∧
      Store.wf unlisted.word u.packCap.toNat u.pack = true) := by
  have hcap := h.packCap_eq
  have hfits := h.fits
  rw [hcap] at hfits
  unfold flush
  by_cases h0 : t.accCnt = 0#7
  · have hm : bs.length % 64 = 0 := by
      have := congrArg BitVec.toNat h0
      rw [h.accCnt] at this
      exact this
    have hd : (bs.length + 63) / 64 = bs.length / 64 := by omega
    left
    rw [if_pos h0, Flow.andThen_go]
    refine ⟨by omega, _, rfl, ?_, h.wf, h.bitCnt, ?_, ?_, ?_⟩
    · have := h.frame
      unfold PackFrame at this
      conv => lhs; rw [show t.enter .flush = { t with seq := .flush } from rfl]
      rw [this]
      rfl
    · show t.wIdx.toNat = _
      rw [h.wIdx, hd]
    · intro k hk
      rw [hd] at hk
      rw [List.getElem?_eq_getElem (by omega)]
      exact h.words k (by omega) (by omega)
    · intro i hi
      exact h.keep i (by omega)
  · have hm : bs.length % 64 ≠ 0 := fun e => h0 (BitVec.eq_of_toNat_eq (by rw [h.accCnt, e]; rfl))
    have hd : (bs.length + 63) / 64 = bs.length / 64 + 1 := by omega
    rw [if_neg h0]
    unfold writeWord
    by_cases hc : (t.enter .flush).wIdx = (t.enter .flush).packCap
    · right
      rw [if_pos hc, Flow.andThen_stop]
      have hc' : t.wIdx = t.packCap := hc
      have := congrArg BitVec.toNat hc'
      rw [h.wIdx, hcap] at this
      exact ⟨by omega, _, rfl, h.frame.trans rfl, h.wf⟩
    · left
      rw [if_neg hc, Flow.andThen_go]
      have hlt : bs.length / 64 < o.packCap.toNat := by
        have hne : t.wIdx.toNat ≠ t.packCap.toNat := fun e => hc (BitVec.eq_of_toNat_eq e)
        rw [h.wIdx, hcap] at hne
        omega
      have hwt : (t.enter .flush).wIdx.toNat = bs.length / 64 := h.wIdx
      have hwx : ((t.enter .flush).wIdx + 1#34).toNat = bs.length / 64 + 1 := by
        rw [BitVec.toNat_add, hwt, BitVec.toNat_ofNat]
        have := o.packCap.isLt
        omega
      refine ⟨by omega, _, rfl, ?_, ?_, h.bitCnt, by rw [hd]; exact hwx, ?_, ?_⟩
      · have := h.frame
        unfold PackFrame at this
        conv => lhs; rw [show t.enter .flush = { t with seq := .flush } from rfl]
        rw [this]
        rfl
      · refine Store.wf_put (d := unlisted.word) h.wf _ ?_
        rw [hwt, hcap]
        exact hlt
      · intro k hk
        rw [hd] at hk
        show State.streamBit ((t.enter .flush).putPack (t.enter .flush).wIdx.toNat (t.enter .flush).acc) k = _
        unfold State.streamBit
        rw [packAt_putPack (s := t.enter .flush) h.wf, hwt]
        by_cases hlast : k / 64 = bs.length / 64
        · rw [if_pos hlast]
          have := h.acc (k % 64) (Nat.mod_lt _ (by decide))
          rw [show 64 * (bs.length / 64) + k % 64 = k by omega] at this
          exact this
        · rw [if_neg hlast, List.getElem?_eq_getElem (by omega)]
          exact h.words k (by omega) (by omega)
      · intro i hi
        show ((t.enter .flush).putPack (t.enter .flush).wIdx.toNat (t.enter .flush).acc).packAt i = _
        rw [packAt_putPack (s := t.enter .flush) h.wf, hwt, if_neg (by omega)]
        exact h.keep i (by omega)

end Sys2Proof.Machine
end

