-- ==== Sys2Proof/Laws/Encode.lean ====
section
/-! SUPPORT. ENCODE: what its four phases leave, and when it succeeds. -/

namespace Sys2Proof.Machine

theorem nodup_presentSyms (g : Sym → Count) : (presentSyms g).Nodup := nodup_allSyms.filter _

theorem mem_presentSyms (g : Sym → Count) (x : Sym) : x ∈ presentSyms g ↔ g x ≠ 0#32 := by
  unfold presentSyms
  rw [List.mem_filter]
  simp only [decide_eq_true_eq]
  exact ⟨fun h => h.2, fun h => ⟨mem_allSyms x, h⟩⟩

/-- The leaf record of the `k`-th present symbol. -/
def codedLeaf (L : List Sym) (g : Sym → Count) (p : NodeIdx × List Bool) : Node :=
  withCode (leafNode (L.getD p.1.toNat 0#8) (g (L.getD p.1.toNat 0#8))) (pathPat 0#255 p.2) (BitVec.ofNat 8 p.2.length)

/-- What FCOUNT, BUILD and ASSIGN leave (R212 a): the counts, one tree that holds every allocated record, and in every leaf its
path as its code. -/
structure Coded (s a : State) (T : Tree) : Prop where
  wfFreq : Store.wf unlisted.freq numSyms a.freq = true
  wfNode : Store.wf unlisted.node numNodes a.node = true
  freq : ∀ x, (a.freqAt x).toNat = s.input.count x
  root : a.root = T.root
  queue : a.queue = []
  rep : T.Rep a.nodeAt
  height : T.height ≤ 255
  idxs : T.idxs.Perm (idxRange a.nNode.toNat)
  leaves : T.leaves.Perm (idxRange (presentSyms a.freqAt).length)
  code : ∀ p ∈ T.paths, p.1.toNat < (presentSyms a.freqAt).length ∧ 1 ≤ p.2.length ∧ p.2.length ≤ 255 ∧
    a.nodeAt p.1 = codedLeaf (presentSyms a.freqAt) a.freqAt p
  keep : ∀ n : NodeIdx, a.nNode.toNat ≤ n.toNat → a.nodeAt n = s.nodeAt n
  shape :
    ((presentSyms a.freqAt).length = 1 ∧ T = .wrap 1#9 (.leaf 0#9) ∧ a.nNode = 2#9 ∧
      a.nodeAt 1#9 = internalNode (a.key 0#9) 0#9 absent) ∨
    (2 ≤ (presentSyms a.freqAt).length ∧ T.Full ∧ a.nNode.toNat + 1 = 2 * (presentSyms a.freqAt).length ∧
      (a.key T.root).toNat = T.weight (presentSyms a.freqAt) a.freqAt ∧
      (∀ n : NodeIdx, (presentSyms a.freqAt).length ≤ n.toNat → n.toNat < a.nNode.toNat →
        ∃ l r, a.nodeAt n = internalNode (a.key l + a.key r) l r ∧ l.toNat < n.toNat ∧ r.toNat < n.toNat ∧
          a.key l ≤ a.key r) ∧
      (∀ n n' : NodeIdx, (presentSyms a.freqAt).length ≤ n.toNat → n.toNat < n'.toNat → n'.toNat < a.nNode.toNat →
        a.key (a.nodeAt n).right ≤ a.key (a.nodeAt n').left))

/-- The fields FCOUNT, BUILD and ASSIGN may change. -/
def FrontFrame (s a : State) : Prop :=
  a = { s with freq := a.freq, inIdx := a.inIdx, node := a.node, nNode := a.nNode, queue := a.queue
               qHist := a.qHist, root := a.root, patReg := a.patReg, depth := a.depth, seq := a.seq, stack := a.stack }

theorem Coded.congr {s a u : State} {T : Tree} (h : Coded s a T) (hf : u.freq = a.freq) (hn : u.node = a.node)
    (hk : u.nNode = a.nNode) (hq : u.queue = a.queue) (hr : u.root = a.root) : Coded s u T := by
  have hF : u.freqAt = a.freqAt := by funext x; unfold State.freqAt; rw [hf]
  have hN : u.nodeAt = a.nodeAt := by funext x; unfold State.nodeAt; rw [hn]
  have hK : u.key = a.key := by funext x; unfold State.key; rw [hN]
  constructor <;> try simp only [hF, hN, hK, hf, hn, hk, hq, hr]
  · exact h.wfFreq
  · exact h.wfNode
  · exact h.freq
  · exact h.root
  · exact h.queue
  · exact h.rep
  · exact h.height
  · exact h.idxs
  · exact h.leaves
  · exact h.code
  · exact h.keep
  · exact h.shape

theorem Tree.paths_ne_nil_of {T : Tree} (h : ∀ n, T ≠ .leaf n) : ∀ p ∈ T.paths, p.2 ≠ [] := by
  cases T with
  | leaf n => exact absurd rfl (h n)
  | wrap n l =>
    intro p hp
    rw [Tree.paths, List.mem_map] at hp
    obtain ⟨q, _, rfl⟩ := hp
    exact List.cons_ne_nil _ _
  | node n l r =>
    intro p hp
    rw [Tree.paths, List.mem_append, List.mem_map, List.mem_map] at hp
    rcases hp with ⟨q, _, rfl⟩ | ⟨q, _, rfl⟩ <;> exact List.cons_ne_nil _ _

theorem input_ne_nil {s : State} (h : s.len ≠ 0#32) : s.input ≠ [] := fun e => by
  have := congrArg List.length e
  rw [length_input] at this
  exact h (BitVec.eq_of_toNat_eq this)

/-- A symbol is present exactly when it occurs in the input (R139 d). -/
theorem present_iff_mem {s a : State} (h : ∀ x, (a.freqAt x).toNat = s.input.count x) (x : Sym) :
    a.freqAt x ≠ 0#32 ↔ x ∈ s.input := by
  rw [← List.count_pos_iff, ← h x]
  constructor
  · intro hne
    refine Nat.pos_of_ne_zero fun e => hne (BitVec.eq_of_toNat_eq e)
  · intro hp e
    rw [e] at hp
    exact absurd hp (by decide)

/-- The frequencies of the present symbols sum to LEN (R122). -/
theorem sum_present {s a : State} (h : ∀ x, (a.freqAt x).toNat = s.input.count x) :
    ((presentSyms a.freqAt).map (fun x => (a.freqAt x).toNat)).sum = s.len.toNat := by
  refine (sum_filter a.freqAt allSyms).trans ?_
  rw [← length_input, ← sum_count s.input]
  congr 1
  exact List.map_congr_left fun x _ => h x

/-- FCOUNT, BUILD and ASSIGN run to their end on any input of length at least 1 (R130, R156). -/
theorem front_spec (s : State) (hF : Store.wf unlisted.freq numSyms s.freq = true)
    (hN : Store.wf unlisted.node numNodes s.node = true) (hlen : s.len ≠ 0#32) :
    ∃ a T, (build (fcount s)).andThen assign = .go a ∧ FrontFrame s a ∧ Coded s a T := by
  obtain ⟨hfr, hwF, hcnt⟩ := fcount_spec s hF
  have hlt : s.len.toNat < 2 ^ 32 := s.len.isLt
  have hnode : (fcount s).node = s.node := by rw [hfr]
  generalize fcount s = c at *
  have hpres : presentSyms c.freqAt ≠ [] := by
    obtain ⟨x, hx⟩ := List.exists_mem_of_ne_nil _ (input_ne_nil hlen)
    exact List.ne_nil_of_mem ((mem_presentSyms _ x).2 ((present_iff_mem hcnt x).2 hx))
  obtain ⟨b, T, hb, hB, hbf⟩ := build_spec c (by rw [hnode]; exact hN) hpres (by rw [sum_present hcnt]; exact hlt)
  have hbfreq : b.freq = c.freq := hbf.freq_eq
  have hfA : b.freqAt = c.freqAt := by funext x; unfold State.freqAt; rw [hbfreq]
  have hS : (presentSyms c.freqAt).length ≤ 256 := presentSyms_length_le _
  generalize hL : presentSyms c.freqAt = L at *
  have hT : T.height ≤ 255 ∧ (∀ p ∈ T.paths, p.2 ≠ []) := by
    rcases hB.shape with ⟨_, rfl, _⟩ | ⟨h2, hfull, _⟩
    · exact ⟨by decide, Tree.paths_ne_nil_of (fun n => by simp)⟩
    · have h1 := Tree.height_lt_leaves hfull
      rw [hB.leaves.length_eq, length_idxRange] at h1
      refine ⟨by omega, Tree.paths_ne_nil_of ?_⟩
      rintro n rfl
      have := hB.leaves.length_eq
      rw [length_idxRange] at this
      simp only [Tree.leaves, List.length_singleton] at this
      omega
  have hleaf : ∀ n ∈ T.leaves, n.toNat < L.length := fun n hn => (mem_idxRange n).1 (hB.leaves.subset hn)
  have hrec : ∀ n ∈ T.leaves, b.nodeAt n = leafNode (L.getD n.toNat 0#8) (c.freqAt (L.getD n.toNat 0#8)) := by
    intro n hn
    have := hB.leafRec n.toNat (hleaf n hn)
    rw [show BitVec.ofNat 9 n.toNat = n by simp] at this
    rw [this]
    simp [hleaf n hn]
  have hN' : numNodes = 511 := rfl
  have hnd : T.leaves.Nodup := hB.leaves.nodup_iff.2 (nodup_idxRange (by omega))
  obtain ⟨a, ha, haf, hwa, hap, hao⟩ := visit_spec (T := T) walkFuel 0#255 0 { b.enter .assign with stack := [] } hB.wf hB.rep hnd
    (fun n hn => by have := hleaf n hn; omega) (fun n hn => by
      show (b.nodeAt n).clen = _
      rw [hrec n hn]; rfl) (by show _ < 512; omega) (by omega) (fun p hp => by
      have := hT.2 p hp
      rw [ne_eq, ← List.length_eq_zero_iff] at this
      omega)
  have haf' : AssignFrame { b.enter .assign with stack := [] } a := haf
  have hafreq : a.freq = b.freq := by rw [haf]; rfl
  have haA : a.freqAt = c.freqAt := by rw [← hfA]; funext x; unfold State.freqAt; rw [hafreq]
  have hannode : a.nNode = b.nNode := by rw [haf]; rfl
  have hab : ∀ n, n ∉ T.leaves → a.nodeAt n = b.nodeAt n := hao
  have hfreq : ∀ n, (a.nodeAt n).freq = (b.nodeAt n).freq ∧ (a.nodeAt n).kind = (b.nodeAt n).kind ∧
      (a.nodeAt n).left = (b.nodeAt n).left ∧ (a.nodeAt n).right = (b.nodeAt n).right := by
    intro n
    by_cases hn : n ∈ T.leaves
    · rw [← T.paths_fst, List.mem_map] at hn
      obtain ⟨p, hp, rfl⟩ := hn
      rw [hap p hp]
      exact ⟨rfl, rfl, rfl, rfl⟩
    · rw [hab n hn]
      exact ⟨rfl, rfl, rfl, rfl⟩
  have hkey : ∀ n, a.key n = b.key n := fun n => (hfreq n).1
  have hge : ∀ n : NodeIdx, L.length ≤ n.toNat → a.nodeAt n = b.nodeAt n := fun n hn =>
    hab n fun h => by have := hleaf n h; omega
  have hnn : L.length ≤ b.nNode.toNat := by
    rcases hB.shape with ⟨h1, _, h2, _⟩ | ⟨h1, _, h2, _⟩
    · rw [h1, h2]; decide
    · omega
  refine ⟨a, T, ?_, ?_, ?_⟩
  · rw [hb, Flow.andThen_go]
    unfold assign
    rw [hB.root]
    exact ha
  · unfold FrontFrame
    rw [haf]
    rw [hbf]
    rw [hfr]
    rfl
  refine
    { wfFreq := by rw [hafreq, hbfreq]; exact hwF
      wfNode := hwa
      freq := fun x => by rw [haA]; exact hcnt x
      root := by rw [← hB.root, haf]; rfl
      queue := by rw [← hB.queue, haf]; rfl
      rep := hB.rep.congr_links fun n => (hfreq n).2
      height := hT.1
      idxs := by rw [hannode]; exact hB.idxs
      leaves := by rw [haA, hL]; exact hB.leaves
      code := ?_
      keep := ?_
      shape := ?_ }
  · intro p hp
    have hpl : p.1 ∈ T.leaves := by rw [← T.paths_fst]; exact List.mem_map_of_mem hp
    rw [haA, hL]
    refine ⟨hleaf _ hpl, List.length_pos_iff.2 (hT.2 p hp), (Tree.path_length_le p hp).trans hT.1, ?_⟩
    rw [hap p hp, Nat.zero_add]
    unfold codedLeaf
    rw [← hrec _ hpl]
    rfl
  · intro n hn
    rw [hannode] at hn
    rw [hge n (by omega), hB.keep n hn]
    unfold State.nodeAt
    rw [hnode]
  · rw [haA, hL, hannode]
    rcases hB.shape with ⟨h1, h2, h3, h4⟩ | ⟨h1, h2, h3, h4, h5, h6⟩
    · exact .inl ⟨h1, h2, h3, by rw [hge _ (by rw [h1]; decide), hkey]; exact h4⟩
    · refine .inr ⟨h1, h2, h3, by rw [hkey]; exact h4, ?_, ?_⟩
      · intro n hn hn'
        obtain ⟨l, r, e, hl, hr, hle⟩ := h5 n hn hn'
        exact ⟨l, r, by rw [hge n hn, hkey, hkey]; exact e, hl, hr, by rw [hkey, hkey]; exact hle⟩
      · intro n n' hn hn' hn''
        rw [hkey, hkey, hge n hn, hge n' (by omega)]
        exact h6 n n' hn hn' hn''

/-! ## Codes -/

theorem codeBits_codedLeaf (L : List Sym) (g : Sym → Count) {p : NodeIdx × List Bool} (h : p.2.length ≤ 255) :
    codeBits (codedLeaf L g p) = p.2 := by
  have hl : (BitVec.ofNat 8 p.2.length).toNat = p.2.length := by
    rw [BitVec.toNat_ofNat]
    omega
  have := patBits_pathPat p.2 0#255 0 (by omega)
  rw [Nat.zero_add] at this
  show patBits (BitVec.ofNat 8 p.2.length).toNat (pathPat 0#255 p.2) = _
  rw [hl, this]
  rfl

namespace Coded

variable {s a : State} {T : Tree} (h : Coded s a T)
include h

omit h in
theorem size_le : (presentSyms a.freqAt).length ≤ 256 := presentSyms_length_le _

theorem codeBits_eq {p : NodeIdx × List Bool} (hp : p ∈ T.paths) : codeBits (a.nodeAt p.1) = p.2 := by
  obtain ⟨_, _, h3, h4⟩ := h.code p hp
  rw [h4]
  exact codeBits_codedLeaf _ _ h3

theorem leaf_iff (n : NodeIdx) : n ∈ T.leaves ↔ n.toNat < (presentSyms a.freqAt).length := by
  rw [h.leaves.mem_iff, mem_idxRange]

omit h in
theorem exists_path {n : NodeIdx} (hn : n ∈ T.leaves) : ∃ p ∈ T.paths, p.1 = n := by
  rw [← T.paths_fst, List.mem_map] at hn
  exact hn

theorem leaf_sym {n : NodeIdx} (hn : n ∈ T.leaves) :
    (a.nodeAt n).sym = (presentSyms a.freqAt).getD n.toNat 0#8 := by
  obtain ⟨p, hp, rfl⟩ := exists_path hn
  rw [(h.code p hp).2.2.2]
  rfl

theorem leaf_inj : ∀ m ∈ T.leaves, ∀ n ∈ T.leaves, (a.nodeAt m).sym = (a.nodeAt n).sym → m = n := by
  intro m hm n hn e
  rw [h.leaf_sym hm, h.leaf_sym hn] at e
  rw [h.leaf_iff] at hm hn
  rw [List.getD_eq_getElem _ _ hm, List.getD_eq_getElem _ _ hn] at e
  exact BitVec.eq_of_toNat_eq ((nodup_presentSyms a.freqAt).getElem_inj_iff.1 e)

/-- Every symbol of the input has its leaf. -/
theorem exists_leaf {x : Sym} (hx : x ∈ s.input) : ∃ n ∈ T.leaves, (a.nodeAt n).sym = x := by
  obtain ⟨k, hk, e⟩ := List.getElem_of_mem ((mem_presentSyms a.freqAt x).2 ((present_iff_mem h.freq x).2 hx))
  have hs := size_le (a := a)
  have hk' : (BitVec.ofNat 9 k).toNat = k := by rw [BitVec.toNat_ofNat]; omega
  have hn : BitVec.ofNat 9 k ∈ T.leaves := by rw [h.leaf_iff, hk']; exact hk
  refine ⟨_, hn, ?_⟩
  rw [h.leaf_sym hn, hk', List.getD_eq_getElem _ _ hk]
  exact e

end Coded

/-- The table FLATTEN leaves (R166): the entry of a symbol is its leaf. -/
structure Tabled (f : State) (T : Tree) : Prop where
  leaf : ∀ n ∈ T.leaves, f.lutAt (f.nodeAt n).sym = n
  other : ∀ x, (∀ n ∈ T.leaves, (f.nodeAt n).sym ≠ x) → f.lutAt x = absent

theorem length_flatMap_le {α β : Type} (l : List α) (g : α → List β) (c : Nat) (h : ∀ x ∈ l, (g x).length ≤ c) :
    (l.flatMap g).length ≤ c * l.length := by
  induction l with
  | nil => simp
  | cons x l ih =>
    rw [List.flatMap_cons, List.length_append, List.length_cons, Nat.mul_succ]
    have := h x (by simp)
    have := ih fun y hy => h y (List.mem_cons_of_mem _ hy)
    omega

/-- The code of a symbol of the input is the path of its leaf. -/
theorem codeOf_spec {s f : State} {T : Tree} (h : Coded s f T) (ht : Tabled f T) {x : Sym} (hx : x ∈ s.input) :
    ∃ p ∈ T.paths, f.lutAt x = p.1 ∧ (f.nodeAt p.1).sym = x ∧ codeBits (f.codeOf x) = p.2 := by
  obtain ⟨n, hn, rfl⟩ := h.exists_leaf hx
  obtain ⟨p, hp, rfl⟩ := Coded.exists_path hn
  have e := ht.leaf p.1 hn
  refine ⟨p, hp, e, rfl, ?_⟩
  unfold State.codeOf
  rw [e]
  exact h.codeBits_eq hp

theorem streamOf_length_le {s f : State} {T : Tree} (h : Coded s f T) (ht : Tabled f T) :
    (streamOf f s.input).length ≤ 255 * s.len.toNat := by
  refine (length_flatMap_le _ _ 255 fun x hx => ?_).trans (by rw [length_input])
  obtain ⟨p, hp, _, _, e⟩ := codeOf_spec h ht hx
  rw [e]
  exact (h.code p hp).2.2.1

/-! ## The four phases -/

/-- What PACK may change after FLATTEN, WORDCNT included. -/
def PackDone (f u : State) : Prop :=
  u = { f with pack := u.pack, acc := u.acc, accCnt := u.accCnt, wIdx := u.wIdx, inIdx := u.inIdx
               bitCnt := u.bitCnt, seq := u.seq, wordCnt := u.wordCnt }

/-- The buffer PACK leaves (R171 to R173). -/
structure Buffer (f u : State) (bs : List Bool) : Prop where
  wf : Store.wf unlisted.word u.packCap.toNat u.pack = true
  bitCnt : u.bitCnt.toNat = bs.length
  wordCnt : u.wordCnt.toNat = (bs.length + 63) / 64
  bits : ∀ k, k < 64 * ((bs.length + 63) / 64) → u.streamBit k = (bs[k]?).getD false
  keep : ∀ i, (bs.length + 63) / 64 ≤ i → u.packAt i = f.packAt i

/-- The phases of ENCODE on an input of length at least 1: they end with the buffer, or fail for want of room. -/
theorem phases_spec (s : State) (hm : Memory.wf s = true) (hlen : s.len ≠ 0#32) :
    ∃ f T, Coded s f T ∧ Tabled f T ∧ Store.wf unlisted.lut numSyms f.lut = true ∧
      FrontFrame { s with lut := f.lut } f ∧
      (((streamOf f s.input).length + 63) / 64 ≤ s.packCap.toNat ∧
          (∃ u, encodePhases s = .go u ∧ PackDone f u ∧ Buffer f u (streamOf f s.input)) ∨
        s.packCap.toNat < ((streamOf f s.input).length + 63) / 64 ∧
          ∃ u, encodePhases s = .stop (.fail .packCap) u ∧ PackFrame f u ∧
            Store.wf unlisted.word u.packCap.toNat u.pack = true) := by
  simp only [Memory.wf, Bool.and_eq_true] at hm
  obtain ⟨⟨⟨⟨⟨_, _⟩, hwP⟩, hwN⟩, hwF⟩, hwL⟩ := hm
  obtain ⟨a, T, ha, hfr, hc⟩ := front_spec s hwF hwN hlen
  have halut : a.lut = s.lut := by rw [hfr]
  have hapack : a.pack = s.pack := by rw [hfr]
  have hacap : a.packCap = s.packCap := by rw [hfr]
  have halen : a.len = s.len := by rw [hfr]
  have hain : a.inp = s.inp := by rw [hfr]
  obtain ⟨f, hf, hff, hwf, hl, ho⟩ := flatten_spec (s := a) (by rw [halut]; exact hwL) hc.root hc.rep
    (by have := hc.height; show _ < 512; omega) hc.leaf_inj
  have hfpack : f.pack = s.pack := by rw [hff]; exact hapack
  have hfcap : f.packCap = s.packCap := by rw [hff]; exact hacap
  have hflen : f.len = s.len := by rw [hff]; exact halen
  have hfin : ∀ i, f.inAt i = s.inAt i := fun i => by
    unfold State.inAt
    rw [show f.inp = s.inp by rw [hff]; exact hain]
  have hfnode : f.nodeAt = a.nodeAt := by funext n; unfold State.nodeAt; rw [hff]
  have hcf : Coded s f T := hc.congr (by rw [hff]) (by rw [hff]) (by rw [hff]) (by rw [hff]) (by rw [hff])
  have htf : Tabled f T := ⟨fun n hn => by rw [hfnode]; exact hl n hn, fun x hx => ho x (by rw [hfnode] at hx; exact hx)⟩
  have hstream : (List.range' 0 s.len.toNat).flatMap (fun i => codeBits (f.codeOf (f.inAt i))) = streamOf f s.input := by
    unfold streamOf State.input
    rw [List.flatMap_map, List.range_eq_range']
    simp only [hfin]
  have hlen' := streamOf_length_le hcf htf
  have hlt : s.len.toNat < 2 ^ 32 := s.len.isLt
  refine ⟨f, T, hcf, htf, hwf, ?_, ?_⟩
  · unfold FrontFrame
    rw [hff]
    rw [hfr]
  have hphase : encodePhases s = (loopFlow s.len.toNat 0 packByte (packInit f)).andThen flush := by
    unfold encodePhases
    rw [ha, Flow.andThen_go]
    unfold pack
    rw [hf, Flow.andThen_go, hflen]
  rw [hphase]
  rcases packLoop_spec s.len.toNat 0 (packed_init f (by rw [hfcap, hfpack]; exact hwP)) hstream.symm
    (fun i _ hi => by
      have hx : f.inAt i ∈ s.input := by
        rw [hfin]
        exact List.mem_map_of_mem (List.mem_range.2 (by simpa using hi))
      obtain ⟨p, hp, e, _⟩ := codeOf_spec hcf htf hx
      rw [e]
      have := (hcf.code p hp).1
      have hS := Coded.size_le (a := f)
      exact ne_absent_of_lt (by show _ < 511; omega))
    (by simp only [List.length_nil]; omega) with ⟨_, u, hu, hp⟩ | ⟨hcap, u, hu, hpf, hw⟩
  · rw [hu, Flow.andThen_go]
    rw [List.nil_append] at hp
    rcases flush_spec hp with ⟨h1, v, hv, hvf, hvw, hvb, hvc, hvs, hvk⟩ | ⟨h1, v, hv, hvf, hvw⟩
    · rw [hfcap] at h1
      exact .inl ⟨h1, v, hv, hvf, ⟨hvw, hvb, hvc, hvs, hvk⟩⟩
    · rw [hfcap] at h1
      exact .inr ⟨h1, v, hv, hvf, hvw⟩
  · rw [hu, Flow.andThen_stop]
    rw [hfcap, List.length_nil, Nat.zero_add] at hcap
    exact .inr ⟨by omega, u, rfl, hpf, hw⟩

end Sys2Proof.Machine
end

