-- ==== Sys2Proof/Laws/Memory.lean ====
section
/-! SUPPORT. Every memory operation keeps the canonical form of the stores; the reset memory has it. -/

namespace Sys2Proof.Machine

theorem Memory.wf_iff (s : State) : Memory.wf s = true ↔
    Store.wf unlisted.byte s.inCap.toNat s.inp = true ∧ Store.wf unlisted.byte s.outCap.toNat s.out = true ∧
    Store.wf unlisted.word s.packCap.toNat s.pack = true ∧ Store.wf unlisted.node numNodes s.node = true ∧
    Store.wf unlisted.freq numSyms s.freq = true ∧ Store.wf unlisted.lut numSyms s.lut = true := by
  simp only [Memory.wf, Bool.and_eq_true, and_assoc]

/-- The form is a matter of the stores and the capacities alone. -/
theorem Memory.wf_congr {s t : State} (h : Memory.wf s = true) (hi : t.inp = s.inp) (ho : t.out = s.out)
    (hp : t.pack = s.pack) (hn : t.node = s.node) (hf : t.freq = s.freq) (hl : t.lut = s.lut)
    (h1 : t.inCap = s.inCap) (h2 : t.outCap = s.outCap) (h3 : t.packCap = s.packCap) : Memory.wf t = true := by
  rw [Memory.wf_iff] at *
  rw [hi, ho, hp, hn, hf, hl, h1, h2, h3]
  exact h

theorem Memory.wf_putIn {s : State} (h : Memory.wf s = true) {i : Nat} (hi : i < s.inCap.toNat) (v : Sym) :
    Memory.wf (s.putIn i v) = true := by
  rw [Memory.wf_iff] at *
  exact ⟨Store.wf_put h.1 v hi, h.2⟩

theorem Memory.wf_putOut {s : State} (h : Memory.wf s = true) {i : Nat} (hi : i < s.outCap.toNat) (v : Sym) :
    Memory.wf (s.putOut i v) = true := by
  rw [Memory.wf_iff] at *
  exact ⟨h.1, Store.wf_put h.2.1 v hi, h.2.2⟩

theorem Memory.wf_putPack {s : State} (h : Memory.wf s = true) {i : Nat} (hi : i < s.packCap.toNat) (v : PackWord) :
    Memory.wf (s.putPack i v) = true := by
  rw [Memory.wf_iff] at *
  exact ⟨h.1, h.2.1, Store.wf_put h.2.2.1 v hi, h.2.2.2⟩

theorem Memory.wf_putNode {s : State} (h : Memory.wf s = true) {n : NodeIdx} (hn : n.toNat < numNodes) (r : Node) :
    Memory.wf (s.putNode n r) = true := by
  rw [Memory.wf_iff] at *
  exact ⟨h.1, h.2.1, h.2.2.1, Store.wf_put h.2.2.2.1 r hn, h.2.2.2.2⟩

theorem Memory.wf_putFreq {s : State} (h : Memory.wf s = true) (x : Sym) (v : Count) :
    Memory.wf (s.putFreq x v) = true := by
  rw [Memory.wf_iff] at *
  exact ⟨h.1, h.2.1, h.2.2.1, h.2.2.2.1, Store.wf_put h.2.2.2.2.1 v x.isLt, h.2.2.2.2.2⟩

theorem Memory.wf_putLut {s : State} (h : Memory.wf s = true) (x : Sym) (v : NodeIdx) :
    Memory.wf (s.putLut x v) = true := by
  rw [Memory.wf_iff] at *
  exact ⟨h.1, h.2.1, h.2.2.1, h.2.2.2.1, h.2.2.2.2.1, Store.wf_put h.2.2.2.2.2 v x.isLt⟩

theorem Memory.wf_applyReset (s : State) : Memory.wf (applyReset s) = true := by
  rw [Memory.wf_iff]
  exact ⟨Store.wf_ofList _, Store.wf_ofList _, Store.wf_ofList _, Store.wf_ofList _, Store.wf_ofList _,
    Store.wf_ofList _⟩

/-- A host write of an element in range keeps the form. -/
theorem Memory.wf_store {s : State} (h : Memory.wf s = true) {space index : Nat} {e : Element}
    (he : s.element space index = some e) (v : Nat) : Memory.wf (s.store e v) = true := by
  cases e with
  | csr r => cases r <;> exact h
  | freq i => exact h
  | lut i => exact h
  | inp i =>
    refine Memory.wf_putIn h ?_ _
    unfold State.element at he
    split at he <;> (try split at he) <;> simp_all [Option.map_eq_some_iff]
  | out i =>
    refine Memory.wf_putOut h ?_ _
    unfold State.element at he
    split at he <;> (try split at he) <;> simp_all [Option.map_eq_some_iff]
  | pack i =>
    refine Memory.wf_putPack h ?_ _
    unfold State.element at he
    split at he <;> (try split at he) <;> simp_all [Option.map_eq_some_iff]
  | node n f =>
    refine Memory.wf_putNode h ?_ _
    have hn : n < numNodes := by
      unfold State.element at he
      split at he <;> (try split at he) <;> simp_all [Option.map_eq_some_iff]
    have hN : numNodes = 511 := rfl
    rw [BitVec.toNat_ofNat]
    omega

end Sys2Proof.Machine
end

