-- ==== Sys2Proof/Laws/Commands.lean ====
section
/-! SUPPORT. The five commands: for each the cases of its acceptance checks, and what a command that runs to its own end
leaves. -/

namespace Sys2Proof.Machine

/-! ## ENCODE (R211) -/

theorem execEncode_held {s : State} (hf : s.faulted = false) (hp : s.present = true) :
    execEncode s = .next (report .blobHeld s) := by
  unfold execEncode encodeBody
  rw [accept_of_ready hf, if_pos hp]
  rfl

theorem execEncode_tooLong {s : State} (hf : s.faulted = false) (hp : s.present = false) (hl : s.inCap < s.len) :
    execEncode s = .next (report .inCap s) := by
  unfold execEncode encodeBody
  rw [accept_of_ready hf, if_neg (by rw [hp]; exact Bool.false_ne_true), if_pos hl]
  rfl

theorem execEncode_empty {s : State} (hf : s.faulted = false) (hp : s.present = false) (hl : s.len = 0#32) :
    execEncode s = .next (succeed (s.enter .idle)) := by
  unfold execEncode encodeBody
  rw [accept_of_ready hf, if_neg (by rw [hp]; exact Bool.false_ne_true),
    if_neg (by rw [hl, BitVec.lt_def]; exact Nat.not_lt_zero _), if_pos hl]
  rfl

theorem execEncode_phases {s : State} (hf : s.faulted = false) (hp : s.present = false) (hi : s.len ≤ s.inCap)
    (hl : s.len ≠ 0#32) : execEncode s = conclude (encodeFinish (encodePhases s)) := by
  unfold execEncode encodeBody
  rw [accept_of_ready hf, if_neg (by rw [hp]; exact Bool.false_ne_true), if_neg (BitVec.not_lt.2 hi), if_neg hl]

/-- The state a successful ENCODE makes of the one PACK left (R211). -/
def encodeSuccess (u : State) : State := succeed (({ u with origLen := u.len, present := true } : State).enter .idle)

/-- The state ENCODE makes of the one PACK failed in (R211). -/
def encodeFailure (u : State) : State := report .packCap ((clearBlob u).enter .idle)

/-- Everything ENCODE can do once it runs its phases (R211, R212). -/
theorem execEncode_ready {s : State} (h : EncodeReady s) :
    ∃ f T, Coded s f T ∧ Tabled f T ∧ Store.wf unlisted.lut numSyms f.lut = true ∧
      FrontFrame { s with lut := f.lut } f ∧
      (((streamOf f s.input).length + 63) / 64 ≤ s.packCap.toNat ∧
          (∃ u, execEncode s = .next (encodeSuccess u) ∧ PackDone f u ∧ Buffer f u (streamOf f s.input)) ∨
        s.packCap.toNat < ((streamOf f s.input).length + 63) / 64 ∧
          ∃ u, execEncode s = .next (encodeFailure u) ∧ PackFrame f u ∧
            Store.wf unlisted.word u.packCap.toNat u.pack = true) := by
  obtain ⟨hf, hp, hl, hi, hm⟩ := h
  rw [execEncode_phases hf hp hi hl]
  obtain ⟨f, T, h1, h2, h3, h4, h5⟩ := phases_spec s hm hl
  refine ⟨f, T, h1, h2, h3, h4, h5.imp (fun ⟨a, u, e, b⟩ => ⟨a, u, ?_, b⟩) fun ⟨a, u, e, b⟩ => ⟨a, u, ?_, b⟩⟩
  · rw [e]; rfl
  · rw [e]; rfl

/-! ## DECODE and DECODEA (R213, R215) -/

theorem decodeFrom_absent (base : Nat) {s : State} (hp : s.present = false) :
    decodeFrom base s = .stop .done (absentDecode s) := by
  unfold decodeFrom
  rw [if_pos hp]

theorem decodeFrom_outCap {base : Nat} {s : State} (hp : s.present = true)
    (ho : s.outCap.toNat < base + s.origLen.toNat) : decodeFrom base s = .stop (.refuse .outCap) s := by
  unfold decodeFrom
  rw [if_neg (by rw [hp]; exact Bool.noConfusion), if_pos ho]

theorem decodeFrom_packCap {base : Nat} {s : State} (hp : s.present = true)
    (ho : base + s.origLen.toNat ≤ s.outCap.toNat) (hc : s.packCap < s.wordCnt) :
    decodeFrom base s = .stop (.refuse .packCap) s := by
  unfold decodeFrom
  rw [if_neg (by rw [hp]; exact Bool.noConfusion), if_neg (Nat.not_lt.2 ho), if_pos hc]

/-- Everything the common part of DECODE and DECODEA can do once it runs UNPACK. -/
theorem decodeFrom_ready {base : Nat} {s : State} (h : DecodeReady base s) :
    EndsAs base s s.decoded (decodeFrom base s) := by
  obtain ⟨_, hp, ho, hc, hm⟩ := h
  unfold decodeFrom
  rw [if_neg (by rw [hp]; exact Bool.noConfusion), if_neg (Nat.not_lt.2 ho), if_neg (BitVec.not_lt.2 hc)]
  exact unpack_spec base s ho ((Memory.wf_iff s).1 hm).2.1

theorem execDecode_of {s : State} (hf : s.faulted = false) : execDecode s = conclude (decodeFrom 0 s) := by
  unfold execDecode
  rw [accept_of_ready hf]

theorem execDecodea_of_absent {s : State} (hf : s.faulted = false) (hp : s.present = false) :
    execDecodea s = conclude (decodeFrom s.outFill.toNat s) := by
  unfold execDecodea decodeaBody
  rw [accept_of_ready hf, if_neg (by rw [hp]; exact Bool.false_ne_true)]

theorem execDecodea_of_present {s : State} (hf : s.faulted = false) (hp : s.present = true) :
    execDecodea s = conclude (advanceFill (decodeFrom s.outFill.toNat s)) := by
  unfold execDecodea decodeaBody
  rw [accept_of_ready hf, if_pos hp]

/-! ## OLEN and RELEASE (R220, R222) -/

theorem execOlen_of {s : State} (hf : s.faulted = false) :
    execOlen s = .next (succeed { s with result := if s.present then s.origLen else 0#32 }) := by
  unfold execOlen
  rw [accept_of_ready hf]

theorem execRelease_of {s : State} (hf : s.faulted = false) :
    execRelease s = .next (succeed (if s.present then clearBlob s else s)) := by
  unfold execRelease
  rw [accept_of_ready hf]

/-! ## The tree ENCODE leaves, as paths -/

theorem Tree.walk_paths {f : State} {T : Tree} (h : T.Rep f.nodeAt) :
    ∀ p ∈ T.paths, f.walk T.root p.2 = p.1 ∧ p.1 ≠ absent ∧ (f.nodeAt p.1).kind = .leaf := by
  induction T with
  | leaf n =>
    intro p hp
    rw [Tree.paths, List.mem_singleton] at hp
    subst hp
    exact ⟨rfl, h⟩
  | wrap n l ih =>
    obtain ⟨hn, hk, hl, _, hr⟩ := h
    intro p hp
    rw [Tree.paths, List.mem_map] at hp
    obtain ⟨q, hq, rfl⟩ := hp
    have hc : f.child n false = l.root := by
      unfold State.child
      rw [if_neg hn, hk]
      exact hl
    refine ⟨?_, (ih hr q hq).2⟩
    show f.walk (f.child n false) q.2 = _
    rw [hc]
    exact (ih hr q hq).1
  | node n l r ihl ihr =>
    obtain ⟨hn, hk, hl, hr, hrl, hrr⟩ := h
    intro p hp
    rw [Tree.paths, List.mem_append, List.mem_map, List.mem_map] at hp
    have hc : ∀ b, f.child n b = if b then r.root else l.root := by
      intro b
      unfold State.child
      rw [if_neg hn, hk, hl, hr]
    rcases hp with ⟨q, hq, rfl⟩ | ⟨q, hq, rfl⟩
    · refine ⟨?_, (ihl hrl q hq).2⟩
      show f.walk (f.child n false) q.2 = _
      rw [hc]
      exact (ihl hrl q hq).1
    · refine ⟨?_, (ihr hrr q hq).2⟩
      show f.walk (f.child n true) q.2 = _
      rw [hc]
      exact (ihr hrr q hq).1

/-- The code of every input symbol is the path of its leaf from ROOT (R156). -/
theorem Coded.goodPath {s f : State} {T : Tree} (h : Coded s f T) (ht : Tabled f T) {x : Sym} (hx : x ∈ s.input) :
    GoodPath f (f.lutAt x, codeBits (f.codeOf x)) ∧ (f.nodeAt (f.lutAt x)).sym = x := by
  obtain ⟨p, hp, hl, hs, hc⟩ := codeOf_spec h ht hx
  obtain ⟨h1, h2, h3⟩ := Tree.walk_paths h.rep p hp
  rw [hl, hc]
  refine ⟨⟨h2, ?_, by rw [h.root]; exact h1, h3⟩, hs⟩
  have := (h.code p hp).2.1
  exact List.length_pos_iff.1 this

end Sys2Proof.Machine
end

