-- ==== Sys2Proof/Laws/Encoded.lean ====
section
/-! SUPPORT. What a successful ENCODE leaves, as one tree with its codes, its table and its packed buffer; and the flags after any
command. -/

namespace Sys2Proof.Machine

/-! ## After a successful ENCODE -/

/-- What a successful ENCODE leaves of `s`: one tree, its codes and its table, the packed buffer, the blob registers. -/
structure Encoded (s t : State) (T : Tree) : Prop where
  coded : Coded s t T
  tabled : Tabled t T
  bitCnt : t.bitCnt.toNat = (streamOf t s.input).length
  wordCnt : t.wordCnt.toNat = ((streamOf t s.input).length + 63) / 64
  bits : ∀ k, k < 64 * (((streamOf t s.input).length + 63) / 64) → t.streamBit k = ((streamOf t s.input)[k]?).getD false
  keep : ∀ i, ((streamOf t s.input).length + 63) / 64 ≤ i → t.packAt i = s.packAt i
  orig : t.origLen = s.len
  flags : t.present = true ∧ t.ok = true ∧ t.cause = .none ∧ t.faulted = false

theorem encodes_spec {s t : State} (h : Encodes s t) : ∃ T, Encoded s t T := by
  obtain ⟨hr, he, hp⟩ := h
  obtain ⟨f, T, hc, ht, _, hf, ⟨_, u, hu, hpd, hb⟩ | ⟨_, u, hu, hpd, _⟩⟩ := execEncode_ready hr
  · have e : t = encodeSuccess u := by
      have := hu.symm.trans he
      injection this with this
      exact this.symm
    refine ⟨T, ?_⟩
    have h1 : t.freq = f.freq ∧ t.node = f.node ∧ t.lut = f.lut ∧ t.nNode = f.nNode ∧ t.queue = f.queue ∧
        t.root = f.root := by
      rw [e, hpd]; exact ⟨rfl, rfl, rfl, rfl, rfl, rfl⟩
    obtain ⟨h1, h2, h3, h4, h5, h6⟩ := h1
    have hnA : t.nodeAt = f.nodeAt := by funext x; unfold State.nodeAt; rw [h2]
    have hlA : t.lutAt = f.lutAt := by funext x; unfold State.lutAt; rw [h3]
    have hst : streamOf t s.input = streamOf f s.input := by
      unfold streamOf State.codeOf; rw [hnA, hlA]
    have hfp : f.pack = s.pack := by rw [hf]
    have hfl : u.len = s.len := by rw [hpd]; show f.len = s.len; rw [hf]
    have hff : u.faulted = false := by rw [hpd]; show f.faulted = _; rw [hf]; exact hr.1
    refine ⟨hc.congr h1 h2 h4 h5 h6, ⟨by rw [hnA, hlA]; exact ht.1, by rw [hnA, hlA]; exact ht.2⟩, ?_, ?_, ?_, ?_, ?_, ?_⟩
    · rw [hst, e]; exact hb.bitCnt
    · rw [hst, e]; exact hb.wordCnt
    · rw [hst, e]; exact hb.bits
    · rw [hst, e]; intro i hi
      have := hb.keep i hi
      refine Eq.trans this ?_
      unfold State.packAt; rw [hfp]
    · rw [e]; exact hfl
    · rw [e]; exact ⟨rfl, rfl, rfl, hff⟩
  · exfalso
    have e : t = encodeFailure u := by
      have := hu.symm.trans he
      injection this with this
      exact this.symm
    rw [e] at hp
    exact Bool.noConfusion hp

theorem Encoded.size {s t : State} {T} (h : Encoded s t T) : 1 ≤ t.distinct ∧ t.distinct ≤ 256 := by
  refine ⟨?_, Coded.size_le (a := t)⟩
  rcases h.coded.shape with ⟨h1, _⟩ | ⟨h1, _⟩
  · show 1 ≤ (presentSyms t.freqAt).length; omega
  · show 1 ≤ (presentSyms t.freqAt).length; omega

theorem Encoded.code {s t : State} {T} (h : Encoded s t T) (n : NodeIdx) (hn : n.toNat < t.distinct) :
    ∃ p ∈ T.paths, p.1 = n ∧ 1 ≤ p.2.length ∧ p.2.length ≤ 255 ∧
        t.nodeAt n = codedLeaf (presentSyms t.freqAt) t.freqAt p ∧
      codeBits (t.nodeAt n) = p.2 ∧ (t.nodeAt n).clen.toNat = p.2.length := by
  obtain ⟨p, hp, rfl⟩ := Coded.exists_path ((h.coded.leaf_iff n).2 hn)
  obtain ⟨h1, h2, h3, h4⟩ := h.coded.code p hp
  refine ⟨p, hp, rfl, h2, h3, h4, h.coded.codeBits_eq hp, ?_⟩
  rw [h4]
  show (BitVec.ofNat 8 p.2.length).toNat = _
  rw [BitVec.toNat_ofNat]; omega

/-- In a tree whose children have lower indices the root has the highest. -/
theorem idxs_le_root {f : NodeIdx → Node} {T : Tree} (h : T.Rep f)
    (hlt : ∀ n ∈ T.idxs, (f n).kind = .internal → (f n).left.toNat < n.toNat ∧
        ((f n).right.toNat < n.toNat ∨ (f n).right = absent)) :
    ∀ n ∈ T.idxs, n.toNat ≤ T.root.toNat := by
  induction T with
  | leaf n => intro m hm; simp [Tree.idxs] at hm; subst hm; exact Nat.le_refl _
  | wrap n l ih =>
    obtain ⟨h1, h2, h3, h4, h5⟩ := h
    intro m hm
    rw [Tree.idxs, List.mem_cons] at hm
    rcases hm with rfl | hm
    · exact Nat.le_refl _
    · have := ih h5 (fun k hk => hlt k (by simp [Tree.idxs, hk])) m hm
      have := (hlt n (by simp [Tree.idxs]) h2).1
      rw [h3] at this
      show _ ≤ n.toNat; omega
  | node n l r ihl ihr =>
    obtain ⟨h1, h2, h3, h4, h5, h6⟩ := h
    intro m hm
    rw [Tree.idxs, List.mem_cons, List.mem_append] at hm
    have hn := hlt n (by simp [Tree.idxs]) h2
    rcases hm with rfl | hm | hm
    · exact Nat.le_refl _
    · have := ihl h5 (fun k hk => hlt k (by simp [Tree.idxs, hk])) m hm
      have := hn.1
      rw [h3] at this
      show _ ≤ n.toNat; omega
    · have := ihr h6 (fun k hk => hlt k (by simp [Tree.idxs, hk])) m hm
      have h7 := hn.2
      rw [h4] at h7
      have := h6.root_ne
      show _ ≤ n.toNat
      rcases h7 with h7 | h7
      · omega
      · exact absurd h7 this

theorem Encoded.internal {s t : State} {T} (h : Encoded s t T) (n : NodeIdx) (h1 : t.distinct ≤ n.toNat) (h2 :
    n.toNat < t.nNode.toNat) :
    (t.nodeAt n).kind = .internal ∧ (t.nodeAt n).left.toNat < n.toNat ∧
        ((t.nodeAt n).right.toNat < n.toNat ∨ (t.nodeAt n).right = absent)
    ∧ (t.nodeAt n).clen = 0#8 ∧ (t.nodeAt n).pat = 0#255 ∧ (t.nodeAt n).sym = 0#8 := by
  rcases h.coded.shape with ⟨e1, e2, e3, e4⟩ | ⟨e1, _, e3, _, e5, _⟩
  · have hn : n = 1#9 := by
      rw [e3] at h2
      have h1 : (presentSyms t.freqAt).length ≤ n.toNat := h1
      rw [e1] at h1
      have : (2#9).toNat = 2 := rfl
      exact BitVec.eq_of_toNat_eq (by show _ = 1; omega)
    subst hn
    rw [e4]
    exact ⟨rfl, Nat.zero_lt_one, .inr rfl, rfl, rfl, rfl⟩
  · obtain ⟨l, r, e, hl, hr, _⟩ := e5 n h1 h2
    rw [e]
    exact ⟨rfl, hl, .inl hr, rfl, rfl, rfl⟩

theorem Encoded.leafK {s t : State} {T} (h : Encoded s t T) (n : NodeIdx) (h1 : n.toNat < t.distinct) :
    (t.nodeAt n).kind = .leaf := by
  obtain ⟨p, hp, rfl, _, _, h4, _⟩ := h.code n h1
  rw [h4]; rfl

theorem Encoded.mem_idxs {s t : State} {T} (h : Encoded s t T) (n : NodeIdx) : n ∈ T.idxs ↔ n.toNat < t.nNode.toNat := by
  rw [h.coded.idxs.mem_iff, mem_idxRange]

theorem Encoded.root {s t : State} {T} (h : Encoded s t T) : ∀ n ∈ T.idxs, n.toNat ≤ t.root.toNat := by
  rw [h.coded.root]
  refine idxs_le_root h.coded.rep fun n hn hk => ?_
  rw [h.mem_idxs] at hn
  have : t.distinct ≤ n.toNat := by
    by_contra hlt
    rw [h.leafK n (by omega)] at hk
    cases hk
  have := h.internal n this hn
  exact ⟨this.2.1, this.2.2.1⟩

theorem allSyms_sorted : (List.range numSyms).map symOf |>.Pairwise (· < ·) := by
  rw [List.pairwise_map]
  refine List.Pairwise.imp_of_mem ?_ (List.pairwise_lt_range (n := numSyms))
  intro a b ha hb hab
  rw [BitVec.lt_def, symOf_toNat (List.mem_range.1 ha), symOf_toNat (List.mem_range.1 hb)]
  exact hab

theorem path_fst_inj {T : Tree} (hnd : T.leaves.Nodup) {p q} (hp : p ∈ T.paths) (hq : q ∈ T.paths) (e : p.1 = q.1) :
    p = q := by
  have : (T.paths.map Prod.fst).Nodup := by rw [T.paths_fst]; exact hnd
  exact (List.inj_on_of_nodup_map this) hp hq e

theorem paths_prefix {f} {T : Tree} (h : T.Rep f) : ∀ p ∈ T.paths, ∀ q ∈ T.paths, p.2 <+: q.2 → p.1 = q.1 := by
  induction T with
  | leaf n => intro p hp q hq _; simp [Tree.paths] at hp hq; rw [hp, hq]
  | wrap n l ih =>
    obtain ⟨_, _, _, _, h5⟩ := h
    intro p hp q hq hpre
    rw [Tree.paths, List.mem_map] at hp hq
    obtain ⟨p', hp', rfl⟩ := hp
    obtain ⟨q', hq', rfl⟩ := hq
    exact ih h5 p' hp' q' hq' (by simpa using hpre)
  | node n l r ihl ihr =>
    obtain ⟨_, _, _, _, h5, h6⟩ := h
    intro p hp q hq hpre
    rw [Tree.paths, List.mem_append, List.mem_map, List.mem_map] at hp hq
    rcases hp with ⟨p', hp', rfl⟩ | ⟨p', hp', rfl⟩ <;> rcases hq with ⟨q', hq', rfl⟩ | ⟨q', hq', rfl⟩
    · exact ihl h5 p' hp' q' hq' (by simpa using hpre)
    · simp at hpre
    · simp at hpre
    · exact ihr h6 p' hp' q' hq' (by simpa using hpre)

/-! ## The flags after a command -/

theorem execEncode_post {s : State} (h : EncodeReady s) : ∃ t, exec .encode s = .next t ∧ Memory.wf t = true ∧
    t.faulted = false ∧ t.fcode = s.fcode ∧ t.seq = .idle ∧
   ((t.ok = true ∧ t.cause = .none) ∨ (t.ok = false ∧ t.cause = .packCap)) := by
  have hm := (Memory.wf_iff s).1 h.2.2.2.2
  obtain ⟨f, T, hc, ht, hl, hf, ⟨_, u, hu, hp, hb⟩ | ⟨_, u, hu, hp, hw⟩⟩ := execEncode_ready h
  · refine ⟨_, hu, ?_, ?_, ?_, rfl, .inl ⟨rfl, rfl⟩⟩
    · have e : u.inp = s.inp ∧ u.out = s.out ∧ u.node = f.node ∧ u.freq = f.freq ∧ u.lut = f.lut ∧
          u.inCap = s.inCap ∧ u.outCap = s.outCap ∧ u.packCap = s.packCap := by
        rw [hp]; refine ⟨?_, ?_, rfl, rfl, rfl, ?_, ?_,
            ?_⟩ <;> (first | show f.inp = _ | show f.out = _ | show f.inCap = _ | show f.outCap = _ | show f.packCap = _) <;> rw [hf]
      obtain ⟨e1, e2, e3, e4, e5, e6, e7, e8⟩ := e
      rw [Memory.wf_iff]
      show Store.wf _ u.inCap.toNat u.inp = true ∧ Store.wf _ u.outCap.toNat u.out = true ∧
          Store.wf _ u.packCap.toNat u.pack = true ∧ Store.wf _ _ u.node = true ∧ Store.wf _ _ u.freq = true ∧
          Store.wf _ _ u.lut = true
      refine ⟨by rw [e6, e1]; exact hm.1, by rw [e7, e2]; exact hm.2.1, hb.wf, by rw [e3]; exact hc.wfNode,
          by rw [e4]; exact hc.wfFreq, by rw [e5]; exact hl⟩
    · show u.faulted = _; rw [hp]; show f.faulted = _; rw [hf]; exact h.1
    · show u.fcode = _; rw [hp]; show f.fcode = _; rw [hf]
  · refine ⟨_, hu, ?_, ?_, ?_, rfl, .inr ⟨rfl, rfl⟩⟩
    · have e : u.inp = s.inp ∧ u.out = s.out ∧ u.node = f.node ∧ u.freq = f.freq ∧ u.lut = f.lut ∧
          u.inCap = s.inCap ∧ u.outCap = s.outCap ∧ u.packCap = s.packCap := by
        rw [hp]; refine ⟨?_, ?_, rfl, rfl, rfl, ?_, ?_,
            ?_⟩ <;> (first | show f.inp = _ | show f.out = _ | show f.inCap = _ | show f.outCap = _ | show f.packCap = _) <;> rw [hf]
      obtain ⟨e1, e2, e3, e4, e5, e6, e7, e8⟩ := e
      rw [Memory.wf_iff]
      show Store.wf _ u.inCap.toNat u.inp = true ∧ Store.wf _ u.outCap.toNat u.out = true ∧
          Store.wf _ u.packCap.toNat u.pack = true ∧ Store.wf _ _ u.node = true ∧ Store.wf _ _ u.freq = true ∧
          Store.wf _ _ u.lut = true
      refine ⟨by rw [e6, e1]; exact hm.1, by rw [e7, e2]; exact hm.2.1, hw, by rw [e3]; exact hc.wfNode,
          by rw [e4]; exact hc.wfFreq, by rw [e5]; exact hl⟩
    · show u.faulted = _; rw [hp]; show f.faulted = _; rw [hf]; exact h.1
    · show u.fcode = _; rw [hp]; show f.fcode = _; rw [hf]

/-- What every command and every host access keeps or makes true of a state that is not FAULTED. -/
structure CommandPost (s t : State) : Prop where
  wf : Memory.wf t = true
  flt : t.faulted = false
  fc : t.fcode = s.fcode
  seq : s.seq = .idle → t.seq = .idle
  ca : t.cause ≠ .faulted ∧ t.cause ≠ .fatal
  ok : t.ok = true → t.cause = .none

theorem post_report {s : State} (hm : Memory.wf s = true) (hf : s.faulted = false) (c : Cause) (h1 : c ≠ .faulted)
    (h2 : c ≠ .fatal) : CommandPost s (report c s) :=
  ⟨hm, hf, rfl, id, ⟨h1, h2⟩, fun h => Bool.noConfusion h⟩

theorem post_dec {base : Nat} {s : State} (hm : Memory.wf s = true) (hf : s.faulted = false) (F : State → State)
    (hF : ∀ u, F u = { u with outFill := (F u).outFill }) (h : DecodeReady base s) :
   ∃ t, conclude (match decodeFrom base s with | .stop .done u => .stop .done (F u) | x => x) = .next t ∧
       CommandPost s t := by
  obtain ⟨u, hu, he, hr, hp⟩ := decodeFrom_ready h
  rw [hu]
  have hfr := he.frame
  have hwu : Memory.wf u = true := by
    rw [Memory.wf_iff] at *
    rw [hfr]
    refine ⟨hm.1, ?_, hm.2.2⟩
    exact he.wf
  have hcs := decodeBits_cause s (s.streamBits (64 * s.wordCnt.toNat)) s.root s.bitCnt.toNat []
  have hff : u.faulted = false := by rw [hfr]; exact hf
  have hfc : u.fcode = s.fcode := by rw [hfr]
  by_cases hn : s.decoded.cause = .none
  · rw [if_pos hn]
    refine ⟨_, rfl, ?_, ?_, ?_, fun _ => rfl, ⟨by simp, by simp⟩, fun _ => rfl⟩
    · rw [hF]; exact hwu
    · rw [hF]; exact hff
    · rw [hF]; exact hfc
  · rw [if_neg hn]
    refine ⟨_, rfl, hwu, hff, hfc, fun _ => rfl, ?_, fun h => Bool.noConfusion h⟩
    show s.decoded.cause ≠ _ ∧ s.decoded.cause ≠ _
    unfold State.decoded
    constructor <;> intro e <;> rw [e] at hcs <;> simp at hcs

theorem exec_post (i : Instr) (s : State) (hm : Memory.wf s = true) (hf : s.faulted = false) : ∃ t,
    exec i s = .next t ∧ CommandPost s t := by
  cases i with
  | encode =>
    show ∃ t, execEncode s = .next t ∧ _
    cases hp : s.present with
    | true => exact ⟨_, execEncode_held hf hp, post_report hm hf _ (by simp) (by simp)⟩
    | false =>
      by_cases hl : s.inCap < s.len
      · exact ⟨_, execEncode_tooLong hf hp hl, post_report hm hf _ (by simp) (by simp)⟩
      · by_cases h0 : s.len = 0#32
        · exact ⟨_, execEncode_empty hf hp h0, hm, hf, rfl, fun _ => rfl, ⟨by simp, by simp⟩, fun _ => rfl⟩
        · obtain ⟨t, h1, h2, h3, h4, h5, h6⟩ := execEncode_post (s := s) ⟨hf, hp, h0, BitVec.not_lt.1 hl, hm⟩
          refine ⟨t, h1, h2, h3, h4, fun _ => h5, ?_, ?_⟩ <;> rcases h6 with ⟨a, b⟩ | ⟨a, b⟩ <;> simp [a, b]
  | decode =>
    show ∃ t, execDecode s = .next t ∧ _
    rw [execDecode_of hf]
    cases hp : s.present with
    | false => rw [decodeFrom_absent 0 hp]; exact ⟨_, rfl, hm, hf, rfl, fun _ => rfl, ⟨by simp, by simp⟩, fun _ => rfl⟩
    | true =>
      by_cases ho : s.outCap.toNat < 0 + s.origLen.toNat
      · rw [decodeFrom_outCap hp ho]; exact ⟨_, rfl, post_report hm hf _ (by simp) (by simp)⟩
      · by_cases hc : s.packCap < s.wordCnt
        · rw [decodeFrom_packCap hp (by omega) hc]; exact ⟨_, rfl, post_report hm hf _ (by simp) (by simp)⟩
        · have := post_dec (base := 0) hm hf id (fun _ => rfl) ⟨hf, hp, by omega, BitVec.not_lt.1 hc, hm⟩
          convert this using 4
          cases decodeFrom 0 s with
          | go u => rfl
          | stop e u => cases e <;> rfl
  | decodea =>
    show ∃ t, execDecodea s = .next t ∧ _
    cases hp : s.present with
    | false => rw [execDecodea_of_absent hf hp, decodeFrom_absent _ hp]; exact ⟨_, rfl, hm, hf, rfl, fun _ => rfl,
        ⟨by simp, by simp⟩, fun _ => rfl⟩
    | true =>
      rw [execDecodea_of_present hf hp]
      by_cases ho : s.outCap.toNat < s.outFill.toNat + s.origLen.toNat
      · rw [decodeFrom_outCap hp ho]; exact ⟨_, rfl, post_report hm hf _ (by simp) (by simp)⟩
      · by_cases hc : s.packCap < s.wordCnt
        · rw [decodeFrom_packCap hp (by omega) hc]; exact ⟨_, rfl, post_report hm hf _ (by simp) (by simp)⟩
        · exact post_dec (base := s.outFill.toNat) hm hf (fun u => { u with outFill := u.outFill + u.origLen })
              (fun _ => rfl) ⟨hf, hp, by omega, BitVec.not_lt.1 hc, hm⟩
  | olen =>
    exact ⟨_, execOlen_of hf, hm, hf, rfl, id, ⟨by simp, by simp⟩, fun _ => rfl⟩
  | release =>
    refine ⟨_, execRelease_of hf, ?_⟩
    cases s.present
    · exact ⟨hm, hf, rfl, id, ⟨by simp, by simp⟩, fun _ => rfl⟩
    · exact ⟨hm, hf, rfl, id, ⟨by simp, by simp⟩, fun _ => rfl⟩

theorem inv_of_post {s t : State} (h : Inv s) (p : CommandPost s t) : Inv t :=
  ⟨p.wf, p.seq h.idle, p.flt, p.fc.trans h.noFatal, p.ca, p.ok⟩

theorem inv_cmd {s t : State} (h : Inv s) (w : CmdWord) (e : commandWrite w s = .next t) : Inv t := by
  unfold commandWrite at e
  cases hd : decodeWord w with
  | ok i =>
    rw [hd] at e
    obtain ⟨u, hu, hp⟩ := exec_post i s h.memory h.sound
    have e : exec i s = .next t := e
    rw [hu] at e
    injection e with e
    exact e ▸ inv_of_post h hp
  | error r =>
    rw [hd] at e
    have e : accept s _ = .next t := e
    rw [accept_of_ready h.sound] at e
    injection e with e
    exact e ▸ inv_of_post h (post_report h.memory h.sound _ (by simp) (by simp))

theorem store_flags (s : State) (e : Element) (v : Nat) : (s.store e v).seq = s.seq ∧
    (s.store e v).faulted = s.faulted ∧ (s.store e v).fcode = s.fcode ∧ (s.store e v).cause = s.cause ∧
    (s.store e v).ok = s.ok := by
  cases e with
  | csr r => cases r <;> exact ⟨rfl, rfl, rfl, rfl, rfl⟩
  | _ => exact ⟨rfl, rfl, rfl, rfl, rfl⟩

end Sys2Proof.Machine
end

