-- ==== Sys2Proof/Laws/PerInstr.lean ====
section
/-! SUPPORT. The family of statements made once per command: its word is well formed and decodes
back to it. -/

namespace Sys2Proof.Laws.EncodeWellFormed

/-- The word of a command is well formed and decodes to that command (R90, R91, R100). -/
def Statement (i : Instr) : Prop := CmdWord.wf (encode i) = true ∧ decodeWord (encode i) = .ok i

theorem encode : Statement .encode := ⟨by decide, rfl⟩
theorem decode : Statement .decode := ⟨by decide, rfl⟩
theorem decodea : Statement .decodea := ⟨by decide, rfl⟩
theorem olen : Statement .olen := ⟨by decide, rfl⟩
theorem release : Statement .release := ⟨by decide, rfl⟩

end Sys2Proof.Laws.EncodeWellFormed
end

