-- ==== Sys2Proof/Tests/Slice0.lean ====
section
/-! SUPPORT. The model's own tests: ill-formed command words, the words of the commands written out from the encoding, single
steps on the vectors of `95_test_vectors.md` (quoted as V<n>), and for every statement with hypotheses a state that meets them.
Expected values come from the spec's vectors and tables. -/

namespace Sys2Proof.Machine.Tests

/-! ## States and answers -/

/-- The state after reset with the capacities of the spec's vectors (R6) and a queue discipline. -/
def base (t : Tie) : State := { State.reset with tie := t, inCap := 4096#32, outCap := 4096#32, packCap := 512#34 }

/-- `LOADIN` (R107) into a state that has nothing in IN; no byte may be 0. -/
def load (bs : List Sym) (s : State) : State :=
  { s with inp := (List.range bs.length).zip bs, len := BitVec.ofNat 32 bs.length }

/-- The state an answer carries, else the state before. -/
def stateOf (s : State) : Result → State
  | .next t => t
  | .fault _ => s
  | .refused _ => s

/-- The answer is a next state. -/
def isNext : Result → Bool
  | .next _ => true
  | .fault _ => false
  | .refused _ => false

/-- The state after a command. -/
def after (i : Instr) (s : State) : State := stateOf s (exec i s)

theorem next_of_isNext {s : State} {r : Result} (h : isNext r = true) : r = .next (stateOf s r) := by
  cases r with
  | next t => rfl
  | fault _ => cases h
  | refused _ => cases h

/-- The input of V4, "aabbbcccc". -/
def abc : State := load [0x61, 0x61, 0x62, 0x62, 0x62, 0x63, 0x63, 0x63, 0x63] (base .free)

/-- The input of V3, "aaa". -/
def aaa : State := load [0x61, 0x61, 0x61] (base .free)

/-- The node records of V4. -/
def nodes4 : List (Nat × Node) :=
  [(0, ⟨.leaf, 2#32, 0x61#8, absent, absent, 2#8, 2#255⟩), (1, ⟨.leaf, 3#32, 0x62#8, absent, absent, 2#8, 3#255⟩),
    (2, ⟨.leaf, 4#32, 0x63#8, absent, absent, 1#8, 0#255⟩), (3, ⟨.internal, 5#32, 0#8, 0#9, 1#9, 0#8, 0#255⟩),
    (4, ⟨.internal, 9#32, 0#8, 2#9, 3#9, 0#8, 0#255⟩)]

/-- The blob of V4, imported by the host (R280). -/
def held : State :=
  { base .free with present := true, origLen := 9#32, bitCnt := 14#40, wordCnt := 1#34, root := 4#9, node := nodes4
                    pack := [(0, 0xAFC0000000000000#64)] }

/-! ## WellFormed: a word that each check refuses -/

theorem test_zero_field_refused : CmdWord.wf 0x00000101#32 = false ∧ CmdWord.wf 0x80000001#32 = false := by decide
theorem test_opcode_refused :
    CmdWord.wf 0x00000000#32 = false ∧ CmdWord.wf 0x00000006#32 = false ∧ CmdWord.wf 0x000000FF#32 = false := by decide
theorem test_commands_well_formed :
    CmdWord.wf 0x00000001#32 = true ∧ CmdWord.wf 0x00000005#32 = true ∧ Instr.wf .encode = true := by decide

/-! ## Decode: the words of R91 written out bit by bit -/

theorem test_decode_encode : decodeWord 0b00000000000000000000000000000001#32 = .ok .encode := by decide
theorem test_decode_decode : decodeWord 0b00000000000000000000000000000010#32 = .ok .decode := by decide
theorem test_decode_decodea : decodeWord 0b00000000000000000000000000000011#32 = .ok .decodea := by decide
theorem test_decode_olen : decodeWord 0b00000000000000000000000000000100#32 = .ok .olen := by decide
theorem test_decode_release : decodeWord 0b00000000000000000000000000000101#32 = .ok .release := by decide
theorem test_decode_rejects : decodeWord 0#32 = .error .illegalOpcode ∧ decodeWord 6#32 = .error .illegalOpcode ∧
    decodeWord 0x00010001#32 = .error .reservedBits ∧ decodeTableWord 32 0x00010001 = none ∧
    decodeTableWord 32 3 = some .decodea := by decide

/-! ## ENCODE -/

/-- V4: the tree, the codes, the packed word. -/
theorem test_encode_abc : (after .encode abc).node = nodes4 ∧ (after .encode abc).root = 4#9 ∧
    (after .encode abc).pack = [(0, 0xAFC0000000000000#64)] ∧ (after .encode abc).bitCnt = 14#40 ∧
    statusWord (after .encode abc) = 0x0003#16 := by decide +kernel

/-- V9: "mississippi" under TIE_REF. -/
theorem test_encode_mississippi :
    (after .encode (load [0x6D, 0x69, 0x73, 0x73, 0x69, 0x73, 0x73, 0x69, 0x70, 0x70, 0x69] (base .ref))).pack =
      [(0, 0x999DB80000000000#64)] := by decide +kernel

/-- R77: INIDX is past the last byte when FCOUNT and PACK are done; WIDX past the last word when UNPACK has handed on the word's
64 bits, and at the word where a decode ends inside it. -/
theorem test_counters : (fcount abc).inIdx = 9#32 ∧ (after .encode abc).inIdx = 9#32 ∧
    (after .decode { held with bitCnt := 65#40, origLen := 59#32 }).wIdx = 1#34 ∧ (after .decode held).wIdx = 0#34 := by
  decide +kernel

/-- Log 19: what the stack held before ENCODE is gone. -/
theorem test_stack_emptied : (after .encode { abc with stack := [⟨1#9, 0#255, 1#8⟩] }).stack = [] := by decide +kernel

/-! ## DECODE, DECODEA, OLEN, RELEASE -/

/-- V4: DECODE of the blob. -/
theorem test_decode_abc : (after .decode held).out = abc.inp ∧ (after .decode held).pos = 4#9 ∧
    (after .decode held).outPos = 9#32 ∧ statusWord (after .decode held) = 0x0003#16 := by decide +kernel

/-- V16, BITCNT 13: E_COUNT after eight symbols. -/
theorem test_decode_short_count :
    statusWord (after .decode { held with bitCnt := 13#40 }) = 0x0301#16 ∧
    (after .decode { held with bitCnt := 13#40 }).outPos = 8#32 := by decide +kernel

/-- R215: DECODEA appends at OUTFILL and advances it. -/
theorem test_decodea_appends : (after .decodea { held with outFill := 5#32 }).outFill = 14#32 ∧
    (after .decodea { held with outFill := 5#32 }).outAt 4 = 0#8 ∧
    (after .decodea { held with outFill := 5#32 }).outAt 5 = 0x61#8 ∧
    (after .decodea { held with outFill := 5#32 }).outAt 13 = 0x63#8 := by decide +kernel

/-- R216 (c): one more than the room is refused. -/
theorem test_decodea_refused : statusWord (after .decodea { held with outFill := 4088#32 }) = 0x0601#16 := by
  decide +kernel

/-- R221: OLEN of the blob of V4. -/
theorem test_olen : (after .olen held).result = 9#32 ∧ statusWord (after .olen held) = 0x0003#16 := by decide

/-- R222: RELEASE drops the blob and keeps the stores. -/
theorem test_release : (after .release held).present = false ∧ (after .release held).root = absent ∧
    (after .release held).pack = held.pack ∧ statusWord (after .release held) = 0x0002#16 := by decide

/-! ## The host and the step -/

theorem test_step_runs_placed_word :
    step (held.withFetchWord 32 4) = .next (after .olen held) := rfl
theorem test_illegal_word : statusWord (stateOf held (step (held.withFetchWord 32 6))) = 0x0A01#16 := by decide +kernel
theorem test_host_node_field : hostRead held 4 (8 * 4 + 4) = 3#255 ∧ hostRead held 4 (8 * 2 + 2) = 0x63#255 := by
  decide

/-! ## Witnesses: states that meet the hypotheses of the statements -/

theorem witness_encodeReady : EncodeReady abc := by unfold EncodeReady; decide +kernel
theorem witness_encode_next : exec .encode abc = .next (after .encode abc) := next_of_isNext (by decide +kernel)
theorem witness_encodes : Encodes abc (after .encode abc) :=
  ⟨witness_encodeReady, witness_encode_next, by decide +kernel⟩
theorem witness_encodes_single : Encodes aaa (after .encode aaa) :=
  ⟨by unfold EncodeReady; decide +kernel, next_of_isNext (by decide +kernel), by decide +kernel⟩
theorem witness_distinct : (after .encode abc).distinct = 3 ∧ (after .encode aaa).distinct = 1 := by decide +kernel
theorem witness_code_order : (0x63#8 : Sym) ∈ abc.input ∧ (0x61#8 : Sym) ∈ abc.input ∧
    ((after .encode abc).codeOf 0x63#8).clen ≤ ((after .encode abc).codeOf 0x61#8).clen ∧
    (after .encode abc).freqAt 0x61#8 ≠ 0#32 ∧ (after .encode abc).freqAt 0x61#8 < (after .encode abc).freqAt 0x63#8 := by
  decide +kernel

/-- An input that needs 65 bits in a PACK of one word (V15). -/
def tight : State := { load (List.replicate 65 0x61) (base .free) with packCap := 1#34 }
theorem witness_too_long_for_pack : EncodeReady tight ∧ (after .encode tight).cause = .packCap ∧
    64 * tight.packCap.toNat < bitsOf (after .encode tight) tight.input := by
  unfold EncodeReady; decide +kernel
theorem witness_fits_pack : bitsOf (after .encode abc) abc.input ≤ 64 * abc.packCap.toNat ∧
    255 * abc.len.toNat ≤ 64 * abc.packCap.toNat ∧ abc.len ≤ abc.outCap ∧
    abc.outFill.toNat + abc.len.toNat ≤ abc.outCap.toNat := by decide +kernel
theorem witness_single_symbol : (∀ i, i < aaa.len.toNat → aaa.inAt i = 0x61#8) ∧
    (aaa.len.toNat + 63) / 64 ≤ aaa.packCap.toNat ∧ aaa.len ≤ aaa.outCap := by decide +kernel
theorem witness_not_ready : ¬ EncodeReady State.reset ∧ Memory.wf State.reset = true ∧
    exec .encode State.reset = .next (after .encode State.reset) :=
  ⟨by unfold EncodeReady; decide, by decide, next_of_isNext (by decide +kernel)⟩

/-- The input of V4 in a machine whose stores hold other things. -/
def abcOther : State :=
  { abc with node := [(0, ⟨.internal, 7#32, 1#8, 2#9, 3#9, 4#8, 5#255⟩)], pack := [(0, 1#64), (9, 2#64)], freq := [(7, 8#32)]
             lut := [(1, 2#9)], out := [(3, 4#8)], bitCnt := 77#40 }
theorem witness_encodes_other : Encodes abcOther (after .encode abcOther) ∧ abc.tie = abcOther.tie ∧
    abc.input = abcOther.input :=
  ⟨⟨by unfold EncodeReady; decide +kernel, next_of_isNext (by decide +kernel), by decide +kernel⟩, rfl,
    by decide +kernel⟩

theorem witness_decodeReady : DecodeReady 0 held ∧ DecodeReady held.outFill.toNat held := by
  unfold DecodeReady; decide +kernel
theorem witness_decode_next : exec .decode held = .next (after .decode held) ∧
    exec .decodea held = .next (after .decodea held) :=
  ⟨next_of_isNext (by decide +kernel), next_of_isNext (by decide +kernel)⟩

/-- V16: one host-made blob for each cause a decode can end with. -/
theorem witness_decode_causes :
    (DecodeReady 0 { held with origLen := 10#32 } ∧ (after .decode { held with origLen := 10#32 }).cause = .count) ∧
    (DecodeReady 0 { held with bitCnt := 0#40 } ∧ (after .decode { held with bitCnt := 0#40 }).cause = .trailing) ∧
    (DecodeReady 0 { held with bitCnt := 1#40 } ∧ (after .decode { held with bitCnt := 1#40 }).cause = .trailing) ∧
    (DecodeReady 0 { held with root := 2#9 } ∧ (after .decode { held with root := 2#9 }).cause = .noChild) ∧
    (DecodeReady 0 { held with root := absent } ∧ (after .decode { held with root := absent }).cause = .noChild) ∧
    (DecodeReady 0 { held with origLen := 8#32 } ∧ (after .decode { held with origLen := 8#32 }).cause = .overrun) ∧
    (DecodeReady 0 { held with bitCnt := 65#40, origLen := 59#32 } ∧
      (after .decode { held with bitCnt := 65#40, origLen := 59#32 }).cause = .exhaust) := by
  unfold DecodeReady; decide +kernel

theorem witness_good_paths : ∃ ps, ps ≠ [] ∧ (∀ p ∈ ps, GoodPath held p) ∧ ps.length = held.origLen.toNat ∧
    held.bitCnt.toNat ≤ 64 * held.wordCnt.toNat ∧ held.streamBits held.bitCnt.toNat = ps.flatMap Prod.snd := by
  refine ⟨[(0#9, [true, false]), (0#9, [true, false]), (1#9, [true, true]), (1#9, [true, true]), (1#9, [true, true]),
    (2#9, [false]), (2#9, [false]), (2#9, [false]), (2#9, [false])], ?_⟩
  unfold GoodPath
  decide +kernel

/-- V6, bit 40: a flip in the padding. -/
def padded : State := { held with pack := [(0, 0xAFC0000000800000#64)] }
theorem witness_padding : Memory.wf padded = true ∧ padded = { held with pack := padded.pack } ∧
    ∀ k, k < held.bitCnt.toNat → padded.streamBit k = held.streamBit k := by decide +kernel

theorem witness_acceptance : held.faulted = false ∧ held.present = true ∧
    ({ held with outCap := 8#32 } : State).outCap < held.origLen ∧ ({ held with packCap := 0#34 } : State).packCap < held.wordCnt ∧
    held.origLen ≤ held.outCap ∧ ({ held with outFill := 4088#32 } : State).outCap.toNat < 4088 + held.origLen.toNat ∧
    State.reset.present = false ∧ State.reset.len = 0#32 ∧ ({ abc with inCap := 8#32 } : State).inCap < abc.len := by decide
theorem witness_faulted : ({ held with faulted := true, fcode := .noCode } : State).faulted = true := rfl
theorem witness_no_command : (∀ i, decodeWord 6#32 ≠ .ok i) ∧ (6#32 : CmdWord).extractLsb' 8 24 = 0#24 ∧
    5 < ((6#32 : CmdWord).extractLsb' 0 8).toNat ∧ (0x100#32 : CmdWord).extractLsb' 8 24 ≠ 0#24 ∧
    ((0x100#32 : CmdWord).extractLsb' 0 8).toNat < 1 :=
  ⟨fun i => by cases i <;> decide, by decide, by decide, by decide, by decide⟩
theorem witness_command_write : commandWrite 6#32 held = .next (stateOf held (commandWrite 6#32 held)) ∧
    commandWrite 4#32 held = .next (stateOf held (commandWrite 4#32 held)) :=
  ⟨next_of_isNext (by decide +kernel), next_of_isNext (by decide +kernel)⟩

theorem witness_scripts :
    ({ held with script := [.write 0 1 4] } : State).script = .write 0 1 (4#32).toNat :: [] ∧ decodeWord 4#32 = .ok .olen ∧
    decodeTableWord 32 4 = some .olen ∧ ({ held with script := [.read 0 2] } : State).script = .read 0 2 :: [] ∧
    ({ held with script := [.reset] } : State).script = .reset :: [] ∧ held.script = [] := by decide

/-- Elements at the ends of their spaces. -/
theorem witness_elements : held.element 0 0x03 = some (.csr .len) ∧ held.element 0 0x08 = some (.csr .blobCtl) ∧
    held.element 1 4095 = some (.inp 4095) ∧ held.element 2 0 = some (.out 0) ∧ held.element 3 511 = some (.pack 511) ∧
    held.element 4 4086 = some (.node 510 .pat) ∧ held.element 0 0x0D = some (.csr .pos) ∧
    held.element 5 255 = some (.freq 255) ∧ held.element 6 0 = some (.lut 0) ∧ held.element 0 1 = some (.csr .cmd) ∧
    Element.writable (.node 510 .pat) = true ∧ 1 < 2 ^ Element.width (.csr .blobCtl) ∧
    2 ^ Element.width (.csr .len) ≤ 4294967296 := by decide
theorem witness_out_of_range : held.element 7 0 = none ∧ held.element 0 0x0E = none ∧ held.element 1 4096 = none ∧
    held.element 4 4087 = none ∧ held.element 4 4088 = none ∧ held.element 5 256 = none := by decide

theorem witness_too_wide : held.element 0 0x08 = some (.csr .blobCtl) ∧ 2 ^ Element.width (.csr .blobCtl) ≤ 2 ∧
    held.element 1 0 = some (.inp 0) ∧ 2 ^ Element.width (.inp 0) ≤ 256 ∧ Memory.wf held = true := by decide
theorem witness_corner_blobs : held.wordCnt ≠ 0#34 ∧ held.bitCnt ≠ 0#40 ∧
    (held.nodeAt ({ held with root := 2#9 } : State).root).kind = .leaf ∧
    64 * held.wordCnt.toNat < ({ held with bitCnt := 65#40, origLen := 59#32 } : State).bitCnt.toNat := by decide +kernel
theorem witness_empty_input : (base .free).faulted = false ∧ (base .free).present = false ∧ (base .free).len = 0#32 := by
  decide

theorem witness_queue : ({ held with queue := [1#9, 0#9], nNode := 5#9 } : State).queue ≠ [] ∧
    2 ≤ ({ held with queue := [1#9, 0#9], nNode := 5#9 } : State).queue.length ∧
    ({ held with queue := [1#9, 0#9], nNode := 5#9 } : State).nNode.toNat < numNodes ∧
    Memory.wf { held with queue := [1#9, 0#9], nNode := 5#9 } = true ∧ (base .ref).tie = .ref ∧ (base .alt).tie = .alt := by
  decide +kernel

theorem witness_release : exec .release held = .next (after .release held) ∧
    exec .release State.reset = .next (after .release State.reset) ∧ exec .olen held = .next (after .olen held) :=
  ⟨next_of_isNext (by decide +kernel), next_of_isNext (by decide +kernel), next_of_isNext (by decide +kernel)⟩

theorem witness_invariant : Inv held ∧ Inv abc :=
  ⟨⟨by decide +kernel, rfl, rfl, rfl, by decide, by decide⟩, ⟨by decide +kernel, rfl, rfl, rfl, by decide, by decide⟩⟩

/-! ## Witnesses for the statements about a step -/

/-- What a step leaves when the host's next action is `a`. -/
def acted (a : HostAction) (s : State) : State := stateOf s (step { s with script := [a] })

theorem acted_next {a : HostAction} {s : State} (h : isNext (step { s with script := [a] }) = true) :
    step { s with script := [a] } = .next (acted a s) := by
  unfold acted
  revert h
  cases step { s with script := [a] } with
  | next t => exact fun _ => rfl
  | fault _ => exact fun h => nomatch h
  | refused _ => exact fun h => nomatch h

theorem witness_step :
    step { abc with script := [.write 0 1 1] } = .next (acted (.write 0 1 1) abc) ∧
    step { abc with script := [.write 0 8 1] } = .next (acted (.write 0 8 1) abc) ∧
    step { held with script := [.write 0 1 5] } = .next (acted (.write 0 1 5) held) ∧
    step { held with script := [.write 0 8 0] } = .next (acted (.write 0 8 0) held) ∧
    step { held with script := [.read 0 2] } = .next (acted (.read 0 2) held) :=
  ⟨acted_next (by decide +kernel), acted_next (by decide +kernel), acted_next (by decide +kernel),
    acted_next (by decide +kernel), acted_next (by decide +kernel)⟩

theorem witness_lifecycle :
    (abc.present = false ∧ (acted (.write 0 1 1) abc).present = true ∧ (acted (.write 0 8 1) abc).present = true) ∧
    (held.present = true ∧ (acted (.write 0 1 5) held).present = false ∧ (acted (.write 0 8 0) held).present = false ∧
      (acted .reset held).present = false) := by decide +kernel

/-- A machine that is FAULTED. -/
def stuck : State := { held with faulted := true, fcode := .noCode }
theorem witness_only_reset :
    step { stuck with script := [.write 0 1 1] } = .next (acted (.write 0 1 1) stuck) ∧
    step { stuck with script := [.reset] } = .next (acted .reset stuck) ∧ stuck.faulted = true :=
  ⟨acted_next (by decide +kernel), acted_next rfl, rfl⟩
theorem test_stuck : statusWord (acted (.write 0 1 1) stuck) = 0x3B05#16 := by decide +kernel
/-- Leaves with a code (R153: a fatal) and without, and an absent table entry (R169: a fatal). -/
theorem witness_fatal_checks : (held.nodeAt 0#9).clen ≠ 0#8 ∧ ((qinit (fcount abc)).nodeAt 0#9).clen = 0#8 ∧
    Memory.wf (qinit (fcount abc)) = true ∧ held.lutAt 0x61#8 = absent := by decide +kernel
theorem witness_at_reset : AtReset State.reset ∧ AtReset { State.reset with node := nodes4, script := [.write 0 1 4] } :=
  ⟨⟨by decide, rfl⟩, ⟨by decide, rfl⟩⟩
theorem witness_reaches :
    Reaches { State.reset with script := [.write 0 1 4] } (stateOf State.reset (step { State.reset with script := [.write 0 1 4] })) :=
  .more .start rfl

end Sys2Proof.Machine.Tests
end

/-! ## The open parameters are constant (R6, R132)

No micro-operation, command or host action names a capacity or the discipline on the left of an arrow. The proof follows the
model's own composition: one lemma per micro-operation says what its last state holds in `State.params`, however it ends, and the
lemmas are chained along the commands up to `step`. None of them needs the stores in canonical form. -/

namespace Sys2Proof.Machine

/-- The open parameters of the block: the three capacities (R6) and the queue discipline (R132). -/
def State.params (s : State) : Count × Count × WordCount × Tie := (s.inCap, s.outCap, s.packCap, s.tie)

theorem params_eq_iff (s t : State) : t.params = s.params ↔
    t.inCap = s.inCap ∧ t.outCap = s.outCap ∧ t.packCap = s.packCap ∧ t.tie = s.tie := by
  simp only [State.params, Prod.mk.injEq]

/-! ### Sequencing, loops and the ends of a command -/

/-- A condition asked of both kinds of ending is a condition on the state left. -/
theorem Flow.sat_const_iff (x : Flow) (P : State → Prop) : x.Sat P (fun _ => P) ↔ P x.state := by
  cases x <;> rfl

theorem params_andThen {f : State → Flow} (hf : ∀ s, (f s).state.params = s.params) (x : Flow) :
    (x.andThen f).state.params = x.state.params := by
  cases x with
  | go s => exact hf s
  | stop e s => rfl

theorem params_loopUp {f : Nat → State → State} (hf : ∀ i s, (f i s).params = s.params) (n a : Nat) (s : State) :
    (loopUp n a f s).params = s.params :=
  loopUp_inv (fun _ t => t.params = s.params) n a (fun i t _ _ ht => (hf i t).trans ht) s rfl

theorem params_loopFlow {f : Nat → State → Flow} (hf : ∀ i s, (f i s).state.params = s.params) (n a : Nat)
    (s : State) : (loopFlow n a f s).state.params = s.params :=
  (Flow.sat_const_iff _ (fun t => t.params = s.params)).1 <|
    sat_loopFlow (fun _ t => t.params = s.params) n a
      (fun i t _ _ ht => (Flow.sat_const_iff _ _).2 ((hf i t).trans ht)) s rfl

theorem params_of_conclude {x : Flow} {t : State} (h : conclude x = .next t) : t.params = x.state.params := by
  cases x with
  | go s => cases h; rfl
  | stop e s => cases e <;> cases h <;> rfl

theorem params_of_accept {s t : State} {run : State → Result} (hrun : run s = .next t → t.params = s.params)
    (h : accept s run = .next t) : t.params = s.params := by
  cases hf : s.faulted with
  | true => rw [accept_of_faulted hf] at h; cases h; rfl
  | false => exact hrun (accept_of_ready hf run ▸ h)

/-! ### FCOUNT and BUILD -/

theorem params_putFreq (s : State) (x : Sym) (v : Count) : (s.putFreq x v).params = s.params := rfl

theorem params_fcountByte (i : Nat) (s : State) : (fcountByte i s).params = s.params := rfl

theorem params_fcount (s : State) : (fcount s).params = s.params :=
  (params_loopUp params_fcountByte _ _ _).trans <|
    params_loopUp (fun i t => params_putFreq t (symOf i) 0#32) _ _ { s.enter .fcount with inIdx := 0#32 }

theorem params_of_pop {s t : State} {n : NodeIdx} (h : s.pop = some (n, t)) : t.params = s.params := by
  rw [(pop_some h).1]; rfl

theorem params_qinitSym (i : Nat) (s : State) : (qinitSym i s).params = s.params := by
  unfold qinitSym
  split <;> rfl

theorem params_qinit (s : State) : (qinit s).params = s.params :=
  params_loopUp params_qinitSym _ _ _

theorem params_merge (s : State) : (merge s).state.params = s.params := by
  unfold merge
  split
  · rfl
  next a s1 h1 =>
    have h1 : s1.params = (s.enter .merge).params := params_of_pop h1
    split
    · exact h1
    next b s2 h2 => exact (params_of_pop h2).trans h1

theorem params_wrap (s : State) : (wrap s).state.params = s.params := by
  unfold wrap
  split
  · rfl
  next a s1 h1 =>
    show s1.params = (s.enter .wrap).params
    exact params_of_pop h1

theorem params_rootsel (s : State) : (rootsel s).state.params = s.params := by
  unfold rootsel
  split
  · rfl
  next a s1 h1 =>
    show s1.params = (s.enter .rootsel).params
    exact params_of_pop h1

theorem params_wrapIfSole (s : State) : (wrapIfSole s).state.params = s.params := by
  unfold wrapIfSole
  split
  · exact params_wrap s
  · rfl

theorem params_mergeLoop (k : Nat) : ∀ s : State, (mergeLoop k s).state.params = s.params := by
  induction k with
  | zero => exact fun _ => rfl
  | succ k ih =>
    intro s
    unfold mergeLoop
    split
    · exact (params_andThen ih _).trans (params_merge s)
    · rfl

theorem params_mergeToOne (s : State) : (mergeToOne s).state.params = s.params :=
  (params_andThen (fun t => params_mergeLoop _ t) _).trans (params_wrapIfSole s)

theorem params_build (s : State) : (build s).state.params = s.params := by
  have hq := params_qinit s
  unfold build
  -- the loop of QINIT must not be run to compare two states
  generalize qinit s = q at hq
  dsimp only
  split
  · exact hq
  · exact (params_andThen params_rootsel _).trans ((params_mergeToOne q).trans hq)

/-! ### ASSIGN -/

theorem params_assignLeaf (n : NodeIdx) (pat : Pattern) (d : CodeLen) (s : State) :
    (assignLeaf n pat d s).state.params = s.params := by
  unfold assignLeaf
  split
  · rfl
  · split <;> rfl

theorem params_visit (k : Nat) : ∀ (n : NodeIdx) (pat : Pattern) (d : CodeLen) (s : State),
    (visit k n pat d s).state.params = s.params := by
  induction k with
  | zero => exact fun _ _ _ _ => rfl
  | succ k ih =>
    intro n pat d s
    unfold visit
    split
    · rfl
    · split
      · exact params_assignLeaf n pat d _
      · exact (params_andThen (fun _ => rfl) _).trans ((params_andThen (ih _ _ _) _).trans (ih _ _ _ _))

theorem params_assign (s : State) : (assign s).state.params = s.params := by
  rw [assign, params_visit]
  rfl

/-! ### PACK -/

theorem params_walkLut (k : Nat) : ∀ (n : NodeIdx) (s : State), (walkLut k n s).state.params = s.params := by
  induction k with
  | zero => exact fun _ _ => rfl
  | succ k ih =>
    intro n s
    unfold walkLut
    split
    · rfl
    · split
      · rfl
      · exact (params_andThen (ih _) _).trans (ih _ s)

theorem params_putLut (s : State) (x : Sym) (v : NodeIdx) : (s.putLut x v).params = s.params := rfl

theorem params_flatten (s : State) : (flatten s).state.params = s.params :=
  (params_walkLut walkFuel s.root _).trans <|
    params_loopUp (fun i t => params_putLut t (symOf i) absent) _ _ (s.enter .flatten)

theorem params_writeWord (s : State) : (writeWord s).state.params = s.params := by
  unfold writeWord
  split <;> rfl

theorem params_packBit (b : Bool) (s : State) : (packBit b s).state.params = s.params := by
  unfold packBit
  split
  · exact (params_andThen (fun _ => rfl) _).trans (params_writeWord _)
  · rfl

theorem params_packCode (k : Nat) (p : Pattern) : ∀ s : State, (packCode k p s).state.params = s.params := by
  induction k with
  | zero => exact fun _ => rfl
  | succ k ih => exact fun s => (params_andThen ih _).trans (params_packBit _ s)

theorem params_packSym (x : Sym) (s : State) : (packSym x s).state.params = s.params := by
  unfold packSym
  split
  · rfl
  · exact params_packCode _ _ _

theorem params_packByte (i : Nat) (s : State) : (packByte i s).state.params = s.params :=
  params_packSym _ _

theorem params_flush (s : State) : (flush s).state.params = s.params := by
  refine (params_andThen (fun _ => rfl) _).trans ?_
  split
  · rfl
  · exact params_writeWord _

theorem params_pack (s : State) : (pack s).state.params = s.params :=
  (params_andThen params_flush _).trans <|
    (params_andThen (fun t => params_loopFlow params_packByte t.len.toNat 0 (packInit t)) _).trans (params_flatten s)

/-! ### UNPACK -/

theorem DecodeFrame.params_eq {s t : State} (h : DecodeFrame s t) : t.params = s.params := by rw [h]; rfl

theorem params_unpackBit (b : Bool) (base : Nat) (s : State) : (unpackBit b base s).state.params = s.params :=
  ((Flow.sat_const_iff _ _).1 (unpackBit_frame b base s)).params_eq

theorem params_unpackStep (base i : Nat) (s : State) : (unpackStep base i s).state.params = s.params :=
  params_unpackBit _ _ _

theorem params_unpackWord (base w : Nat) (s : State) : (unpackWord base w s).state.params = s.params :=
  (params_andThen (fun _ => rfl) _).trans (params_loopFlow (params_unpackStep base) _ _ _)

theorem params_unpackExhaust (s : State) : (unpackExhaust s).state.params = s.params := by
  unfold unpackExhaust
  split
  · rfl
  · split <;> rfl

theorem params_unpack (base : Nat) (s : State) : (unpack base s).state.params = s.params :=
  (params_andThen params_unpackExhaust _).trans (params_loopFlow (params_unpackWord base) _ _ _)

/-! ### The commands -/

theorem params_encodePhases (s : State) : (encodePhases s).state.params = s.params :=
  (params_andThen params_pack _).trans <|
    (params_andThen params_assign _).trans ((params_build _).trans (params_fcount s))

theorem params_encodeFinish (x : Flow) : (encodeFinish x).state.params = x.state.params := by
  cases x with
  | go s => rfl
  | stop e s => cases e <;> rfl

theorem params_encodeBody (s : State) : (encodeBody s).state.params = s.params := by
  unfold encodeBody
  split_ifs
  · rfl
  · rfl
  · rfl
  · exact (params_encodeFinish _).trans (params_encodePhases s)

theorem params_decodeFrom (base : Nat) (s : State) : (decodeFrom base s).state.params = s.params := by
  unfold decodeFrom
  split_ifs
  · rfl
  · rfl
  · rfl
  · exact params_unpack base s

theorem params_advanceFill (x : Flow) : (advanceFill x).state.params = x.state.params := by
  cases x with
  | go s => rfl
  | stop e s => cases e <;> rfl

theorem params_decodeaBody (s : State) : (decodeaBody s).state.params = s.params := by
  unfold decodeaBody
  split
  · exact (params_advanceFill _).trans (params_decodeFrom _ s)
  · exact params_decodeFrom _ s

theorem params_of_accept_conclude {body : State → Flow} (hb : ∀ s, (body s).state.params = s.params) {s t : State}
    (h : accept s (fun u => conclude (body u)) = .next t) : t.params = s.params :=
  params_of_accept (fun e => (params_of_conclude e).trans (hb s)) h

theorem params_of_execOlen {s t : State} (h : execOlen s = .next t) : t.params = s.params := by
  unfold execOlen at h
  exact params_of_accept (fun e => by cases e; rfl) h

theorem params_of_execRelease {s t : State} (h : execRelease s = .next t) : t.params = s.params := by
  unfold execRelease at h
  refine params_of_accept (fun e => ?_) h
  cases e
  split <;> rfl

/-- Every command that answers a next state keeps the open parameters, whatever state it starts in. -/
theorem params_of_exec {i : Instr} {s t : State} (h : exec i s = .next t) : t.params = s.params := by
  cases i with
  | encode => exact params_of_accept_conclude params_encodeBody h
  | decode => exact params_of_accept_conclude (params_decodeFrom 0) h
  | decodea => exact params_of_accept_conclude params_decodeaBody h
  | olen => exact params_of_execOlen h
  | release => exact params_of_execRelease h

/-! ### The host port -/

theorem params_of_commandWrite {w : CmdWord} {s t : State} (h : commandWrite w s = .next t) :
    t.params = s.params := by
  unfold commandWrite at h
  split at h
  · exact params_of_exec h
  · exact params_of_accept (fun e => by cases e; rfl) h

theorem params_store (s : State) (e : Element) (v : Nat) : (s.store e v).params = s.params := by
  cases e with
  | csr r => cases r <;> rfl
  | _ => rfl

theorem params_of_writeElement {e : Element} {v : Nat} {s t : State} (h : writeElement e v s = .next t) :
    t.params = s.params := by
  unfold writeElement at h
  split at h
  · exact params_of_commandWrite h
  · cases h; exact params_store s e v

theorem params_of_hostWrite {space index v : Nat} {s t : State} (h : hostWrite space index v s = .next t) :
    t.params = s.params := by
  unfold hostWrite at h
  split at h
  · cases h; rfl
  · split at h
    · exact params_of_writeElement h
    · cases h

/-- Every action of the host that answers a next state, RESET among them, keeps the open parameters. -/
theorem params_of_act {a : HostAction} {s t : State} (h : act a s = .next t) : t.params = s.params := by
  cases a with
  | read space index => cases h; rfl
  | write space index v => exact params_of_hostWrite h
  | reset => cases h; rfl

theorem params_of_step {s t : State} (h : step s = .next t) : t.params = s.params := by
  unfold step takeAction at h
  split at h
  · cases h; rfl
  next a rest _ =>
    show t.params = State.params { s with script := rest }
    exact params_of_act h

/-- Settles O56: every step, the idle one among them, keeps `State.params`. -/
theorem parametersAreConstant : Obligations.ParametersAreConstant :=
  fun s t h => (params_eq_iff s t).1 (params_of_step h)

end Sys2Proof.Machine

/-! ## The STATUS word and its host port (R34, R61, R63)

`statusWord` is a concatenation, so a field is read by peeling off the parts below it. The three flags are one bit each; above them
stand CAUSE, FCODE and the zero field, at an offset of 3. -/

namespace Sys2Proof.Machine

/-! ### An access of an element in range -/

theorem hostRead_eq_value {s : State} {space index : Nat} {e : Element} (h : s.element space index = some e) :
    hostRead s space index = s.value e := by
  simp only [hostRead, h]

theorem hostWrite_eq_writeElement {s : State} {space index v : Nat} {e : Element}
    (h : s.element space index = some e) (hv : v < 2 ^ e.width) : hostWrite space index v s = writeElement e v s := by
  simp only [hostWrite, h, if_pos hv]

/-- A write of any element but CMD stores the value (R63). -/
theorem writeElement_eq_store {e : Element} (h : e ≠ .csr .cmd) (v : Nat) (s : State) :
    writeElement e v s = .next (s.store e v) :=
  if_neg h

theorem element_status (s : State) : s.element 0 2 = some (.csr .status) := rfl

/-- A host write to STATUS is ignored (R34). -/
theorem hostWrite_status {v : Nat} (hv : v < 2 ^ 16) (s : State) : hostWrite 0 2 v s = .next s :=
  calc hostWrite 0 2 v s
      = writeElement (.csr .status) v s := hostWrite_eq_writeElement (element_status s) hv
    _ = .next (s.store (.csr .status) v) := writeElement_eq_store (by decide) v s
    _ = .next s := rfl

theorem hostRead_status (s : State) : hostRead s 0 2 = (statusWord s).setWidth 255 :=
  hostRead_eq_value (element_status s)

/-! ### The flags, bits 2:0 -/

theorem statusWord_bit_present (s : State) : (statusWord s).getLsbD 0 = s.present := by
  simp only [statusWord, BitVec.getLsbD_append]
  simp

theorem statusWord_bit_ok (s : State) : (statusWord s).getLsbD 1 = s.ok := by
  simp only [statusWord, BitVec.getLsbD_append]
  simp

theorem statusWord_bit_faulted (s : State) : (statusWord s).getLsbD 2 = s.faulted := by
  simp only [statusWord, BitVec.getLsbD_append]
  simp

/-! ### The fields above the flags, bits 15:3 -/

/-- Above the three flags stand FCODE, CAUSE and the zero field. -/
theorem statusWord_extract_above_flags (s : State) (start len : Nat) :
    (statusWord s).extractLsb' (start + 3) len = (s.fcode.code ++ s.cause.code ++ 0#5).extractLsb' start len := by
  unfold statusWord
  rw [BitVec.extractLsb'_append_eq_of_le (by omega), BitVec.extractLsb'_append_eq_of_le (by omega),
    BitVec.extractLsb'_append_eq_of_le (by omega)]
  rfl

@[simp] theorem statusWord_zero_field (s : State) : (statusWord s).extractLsb' 3 5 = 0#5 :=
  (statusWord_extract_above_flags s 0 5).trans BitVec.extractLsb'_append_eq_right

@[simp] theorem statusWord_cause_field (s : State) : (statusWord s).extractLsb' 8 4 = s.cause.code := by
  rw [statusWord_extract_above_flags s 5 4, BitVec.extractLsb'_append_eq_of_le (by decide)]
  exact BitVec.extractLsb'_append_eq_right

@[simp] theorem statusWord_fcode_field (s : State) : (statusWord s).extractLsb' 12 4 = s.fcode.code := by
  rw [statusWord_extract_above_flags s 9 4, BitVec.extractLsb'_append_eq_of_le (by decide)]
  exact BitVec.extractLsb'_append_eq_left

/-- Settles O14: the code tables are evaluated; the word is taken apart field by field; the port reaches it as CSR 2. -/
theorem statusFields : Obligations.StatusFields :=
  ⟨by decide, by decide, fun s =>
    ⟨statusWord_bit_present s, statusWord_bit_ok s, statusWord_bit_faulted s, statusWord_zero_field s,
      statusWord_cause_field s, statusWord_fcode_field s, hostRead_status s, fun _ hv => hostWrite_status hv s⟩⟩

end Sys2Proof.Machine

/-! ## One step is one host action (R62, R74, R262)

The step takes the head of the host's list and hands it to `act`; a command is the write of its word to CMD (R33, R210). -/

namespace Sys2Proof.Machine

theorem step_of_script_nil {s : State} (h : s.script = []) : step s = .next s := by
  simp only [step, takeAction, h]

theorem step_of_script_cons {s : State} {a : HostAction} {rest : List HostAction} (h : s.script = a :: rest) :
    step s = act a { s with script := rest } := by
  simp only [step, takeAction, h]

/-- Settles O5: the step is `act` of the action taken off the list, and `act` says what each kind of action does. -/
theorem stepTakesOneAction : Obligations.StepTakesOneAction :=
  fun _ => ⟨step_of_script_nil, fun _ _ _ h => step_of_script_cons h, fun _ _ _ _ h => step_of_script_cons h,
    fun _ h => step_of_script_cons h⟩

/-! ### A write of CMD -/

theorem commandWrite_of_decodeWord {w : CmdWord} {i : Instr} (h : decodeWord w = .ok i) (s : State) :
    commandWrite w s = exec i s := by
  simp only [commandWrite, h]

theorem element_cmd (s : State) : s.element 0 1 = some (.csr .cmd) := rfl

/-- A host write of a word to CMD is CommandWrite of that word (R33, R210). -/
theorem hostWrite_cmd (w : CmdWord) (s : State) : hostWrite 0 1 w.toNat s = commandWrite w s :=
  calc hostWrite 0 1 w.toNat s
      = writeElement (.csr .cmd) w.toNat s := hostWrite_eq_writeElement (element_cmd s) w.isLt
    _ = commandWrite (BitVec.ofNat 32 w.toNat) s := rfl
    _ = commandWrite w s := by rw [BitVec.ofNat_toNat, BitVec.setWidth_eq]

/-- The table decoder reads the word it is given modulo 2^32. -/
theorem decodeWord_of_decodeTableWord {w : Nat} {i : Instr} (h : decodeTableWord 32 w = some i) :
    decodeWord (BitVec.ofNat 32 w) = .ok i := by
  have hword : BitVec.ofNat 32 (w % 2 ^ 32) = BitVec.ofNat 32 w := BitVec.eq_of_toNat_eq (by simp)
  simp only [decodeTableWord, Nat.mod_lt _ (Nat.two_pow_pos 32), if_true, hword] at h
  split at h
  next j hj => rw [hj, Option.some.inj h]
  · cases h

theorem withFetchWord_script (s : State) (w : Nat) :
    (s.withFetchWord 32 w).script = .write 0 1 (BitVec.ofNat 32 w).toNat :: s.script := by
  simp [State.withFetchWord, placeWord, cmdAction]

theorem step_of_command_write {s : State} {w : CmdWord} {i : Instr} {rest : List HostAction}
    (hd : decodeWord w = .ok i) (hs : s.script = .write 0 1 w.toNat :: rest) :
    step s = exec i { s with script := rest } :=
  calc step s
      = hostWrite 0 1 w.toNat { s with script := rest } := step_of_script_cons hs
    _ = commandWrite w { s with script := rest } := hostWrite_cmd w _
    _ = exec i { s with script := rest } := commandWrite_of_decodeWord hd _

/-- Settles O4: `withFetchWord` puts the write of the word before the host's list, so its clause follows from the first. -/
theorem stepRunsDecodedCommand : Obligations.StepRunsDecodedCommand :=
  ⟨fun _ _ _ _ hd hs => step_of_command_write hd hs,
    fun s w _ hd => step_of_command_write (decodeWord_of_decodeTableWord hd) (withFetchWord_script s w)⟩

end Sys2Proof.Machine

/-! ## The elements of the seven spaces (R31, R48, R50, R68)

Which pairs (space, index) name an element, and what an element in range may be. -/

namespace Sys2Proof.Machine

theorem Csr.ofNumber_eq_none_iff (n : Nat) : Csr.ofNumber n = none ↔ 14 ≤ n := by
  unfold Csr.ofNumber
  split <;> grind

theorem NodeField.ofNumber_eq_none_iff (k : Nat) : NodeField.ofNumber k = none ↔ 7 ≤ k := by
  unfold NodeField.ofNumber
  split <;> grind

theorem NodeField.lt_of_ofNumber {k : Nat} {f : NodeField} (h : NodeField.ofNumber k = some f) : k < 7 := by
  have hk := NodeField.ofNumber_eq_none_iff k
  rw [h] at hk
  simpa using hk

/-- Field `k` of record `n` stands at index 8·n + k of space 4 (R48). -/
theorem element_node {n k : Nat} {f : NodeField} (hn : n < numNodes) (hf : NodeField.ofNumber k = some f) (s : State) :
    s.element 4 (8 * n + k) = some (.node n f) := by
  have hk : k < 7 := NodeField.lt_of_ofNumber hf
  have hdiv : (8 * n + k) / 8 = n := by omega
  have hmod : (8 * n + k) % 8 = k := by omega
  simp only [State.element, hdiv, hmod, if_pos hn, hf, Option.map_some]

/-- The bound on the index an element carries: the size of its store (R50). -/
def Element.InRange (s : State) : Element → Prop
  | .csr _ => True
  | .inp i => i < s.inCap.toNat
  | .out i => i < s.outCap.toNat
  | .pack i => i < s.packCap.toNat
  | .node n _ => n < numNodes
  | .freq i => i < numSyms
  | .lut i => i < numSyms

theorem inRange_of_element {s : State} {space index : Nat} {e : Element} (h : s.element space index = some e) :
    e.InRange s := by
  match space, h with
  | 0, h =>
    obtain ⟨r, -, rfl⟩ := Option.map_eq_some_iff.1 h
    trivial
  | 1, h | 2, h | 3, h | 5, h | 6, h =>
    obtain ⟨hi, he⟩ := Option.ite_none_right_eq_some.1 h
    cases he
    exact hi
  | 4, h =>
    obtain ⟨hn, hf⟩ := Option.ite_none_right_eq_some.1 h
    obtain ⟨f, -, rfl⟩ := Option.map_eq_some_iff.1 hf
    exact hn
  | _ + 7, h => cases h

/-- Which element a pair names depends on the state through the capacities only. -/
theorem element_of_params_eq {s t : State} (h : t.params = s.params) (space index : Nat) :
    t.element space index = s.element space index := by
  obtain ⟨hin, hout, hpack, -⟩ := (params_eq_iff s t).1 h
  simp only [State.element, hin, hout, hpack]

@[simp] theorem element_store (s : State) (e : Element) (v space index : Nat) :
    (s.store e v).element space index = s.element space index :=
  element_of_params_eq (params_store s e v) space index

theorem element_eq_none_iff (s : State) (space index : Nat) :
    s.element space index = none ↔
      7 ≤ space ∨ (space = 0 ∧ 0x0E ≤ index) ∨ (space = 1 ∧ s.inCap.toNat ≤ index) ∨
      (space = 2 ∧ s.outCap.toNat ≤ index) ∨ (space = 3 ∧ s.packCap.toNat ≤ index) ∨
      (space = 4 ∧ (4088 ≤ index ∨ index % 8 = 7)) ∨ (space = 5 ∧ 256 ≤ index) ∨ (space = 6 ∧ 256 ≤ index) := by
  match space with
  | 0 => simp [State.element, Csr.ofNumber_eq_none_iff]
  | 1 | 2 | 3 | 5 | 6 => simp [State.element]
  | 4 =>
    simp [State.element, NodeField.ofNumber_eq_none_iff, numNodes]
    omega
  | n + 7 => simp [State.element]

/-! ### Accesses out of range, too wide, or of a read-only element (R60, R64, R68) -/

theorem hostRead_of_element_none {s : State} {space index : Nat} (h : s.element space index = none) :
    hostRead s space index = 0#255 := by
  simp only [hostRead, h]

theorem hostWrite_of_element_none {s : State} {space index : Nat} (h : s.element space index = none) (v : Nat) :
    hostWrite space index v s = .next s := by
  simp only [hostWrite, h]

/-- Settles O13: each of the seven spaces has its own bound; space 4 has no field 7. -/
theorem outOfRangeAccess : Obligations.OutOfRangeAccess :=
  fun s space index => ⟨element_eq_none_iff s space index,
    fun h => ⟨hostRead_of_element_none h, hostWrite_of_element_none h⟩⟩

/-- Settles O15: the width is checked before the element is written. -/
theorem tooWideValueRefused : Obligations.TooWideValueRefused := by
  intro s space index v e he hv
  simp only [hostWrite, he, if_neg (Nat.not_lt.2 hv)]

theorem hostWrite_eq_store {s : State} {space index v : Nat} {e : Element} (he : s.element space index = some e)
    (hc : e ≠ .csr .cmd) (hv : v < 2 ^ e.width) : hostWrite space index v s = .next (s.store e v) :=
  (hostWrite_eq_writeElement he hv).trans (writeElement_eq_store hc v s)

theorem store_of_not_writable {e : Element} (h : e.writable = false) (s : State) (v : Nat) : s.store e v = s := by
  cases e with
  | csr r =>
    cases r with
    | id | cmd | status | result | rem | outPos | pos => rfl
    | len | origLen | bitCnt | wordCnt | root | blobCtl | outFill => cases h
  | freq i | lut i => rfl
  | inp i | out i | pack i | node n f => cases h

theorem hostRead_cmd (s : State) : hostRead s 0 1 = 0#255 := hostRead_eq_value (element_cmd s)

/-- Settles O12: the elements R64 lists are the ones, CMD apart, whose stored value is no part of the state. -/
theorem readOnlyElementsIgnoreWrites : Obligations.ReadOnlyElementsIgnoreWrites := by
  intro s space index v e he hro hv
  have hkind : e.writable = false ∧ e ≠ .csr .cmd := by
    rcases hro with hreg | ⟨i, rfl⟩ | ⟨i, rfl⟩
    · exact (by decide : ∀ e ∈ [Element.csr .id, .csr .status, .csr .result, .csr .rem, .csr .outPos, .csr .pos],
        e.writable = false ∧ e ≠ .csr .cmd) e hreg
    · exact ⟨rfl, nofun⟩
    · exact ⟨rfl, nofun⟩
  exact ⟨(hostWrite_eq_store he hkind.2 hv).trans (congrArg _ (store_of_not_writable hkind.1 s v)), hostRead_cmd s⟩

end Sys2Proof.Machine

/-! ## What a host read returns (R61) -/

namespace Sys2Proof.Machine

theorem hostRead_csr (r : Csr) {n : Nat} (h : Csr.ofNumber n = some r) (s : State) : hostRead s 0 n = s.csrValue r :=
  hostRead_eq_value (e := .csr r) (by simp only [State.element, h, Option.map_some])

theorem hostRead_node (f : NodeField) {n k : Nat} (hn : n < numNodes) (hf : NodeField.ofNumber k = some f) (s : State) :
    hostRead s 4 (8 * n + k) = Node.field (s.nodeAt (BitVec.ofNat 9 n)) f :=
  hostRead_eq_value (element_node hn hf s)

theorem csrValue_blobCtl (s : State) : s.csrValue .blobCtl = if s.present then 1#255 else 0#255 := by
  cases h : s.present <;> simp [State.csrValue, h]

theorem Node.field_kind (r : Node) : Node.field r .kind = if r.kind = .leaf then 0#255 else 1#255 := by
  cases h : r.kind <;> simp [Node.field, Kind.bit, h]

/-- Settles O10: a read is `hostRead` into `readVal`; the pairs are looked up by `Csr.ofNumber`, `NodeField.ofNumber` and the
bounds of the four other kinds of space. -/
theorem hostReadChangesNothing : Obligations.HostReadChangesNothing := by
  refine ⟨fun s space index rest h => ?_, fun s => ?_, fun s n hn => ?_, fun s i => ?_⟩
  · exact ⟨_, step_of_script_cons h, rfl, fun e he => hostRead_eq_value (s := { s with script := rest }) he,
      fun he => hostRead_eq_value (s := { s with script := rest }) he⟩
  · exact ⟨hostRead_csr .id rfl s, hostRead_csr .cmd rfl s, hostRead_csr .status rfl s, hostRead_csr .len rfl s,
      hostRead_csr .origLen rfl s, hostRead_csr .bitCnt rfl s, hostRead_csr .wordCnt rfl s, hostRead_csr .root rfl s,
      (hostRead_csr .blobCtl rfl s).trans (csrValue_blobCtl s), hostRead_csr .outFill rfl s, hostRead_csr .result rfl s,
      hostRead_csr .rem rfl s, hostRead_csr .outPos rfl s, hostRead_csr .pos rfl s⟩
  · exact ⟨(hostRead_node .kind (k := 0) hn rfl s).trans (Node.field_kind _), hostRead_node .freq hn rfl s,
      hostRead_node .sym hn rfl s, hostRead_node .left hn rfl s, hostRead_node .right hn rfl s,
      hostRead_node .clen hn rfl s, hostRead_node .pat hn rfl s⟩
  · exact ⟨fun hi => hostRead_eq_value (e := .inp i) (if_pos hi), fun hi => hostRead_eq_value (e := .out i) (if_pos hi),
      fun hi => hostRead_eq_value (e := .pack i) (if_pos hi), fun hi =>
      ⟨hostRead_eq_value (e := .freq i) (if_pos hi), hostRead_eq_value (e := .lut i) (if_pos hi)⟩⟩

end Sys2Proof.Machine

/-! ## What a host write changes (R63)

The value of an element after a store is the written one for the element itself (`value_store_self`) and the old one for every
other (`value_store_of_ne`), STATUS after a write of BLOBCTL apart, which mirrors PRESENT (R40). Two elements of one store differ
in their index, and for records also in their field. -/

namespace Sys2Proof.Machine

/-! ### The parts: the one-bit codes, a field of a record, a register -/

@[simp] theorem ofBool_beq_one (b : BitVec 1) : BitVec.ofBool (b == 1#1) = b := by
  revert b; decide

@[simp] theorem Kind.bit_ofBit (b : BitVec 1) : Kind.bit (Kind.ofBit b) = b := by
  revert b; decide

theorem Node.field_setField_self (r : Node) (f : NodeField) (v : Nat) :
    Node.field (Node.setField r f v) f = (BitVec.ofNat f.width v).setWidth 255 := by
  cases f <;> simp [Node.field, Node.setField, NodeField.width]

theorem Node.field_setField_of_ne (r : Node) {f g : NodeField} (h : g ≠ f) (v : Nat) :
    Node.field (Node.setField r f v) g = Node.field r g := by
  cases f with
  | kind => cases g with | kind => exact absurd rfl h | _ => rfl
  | freq => cases g with | freq => exact absurd rfl h | _ => rfl
  | sym => cases g with | sym => exact absurd rfl h | _ => rfl
  | left => cases g with | left => exact absurd rfl h | _ => rfl
  | right => cases g with | right => exact absurd rfl h | _ => rfl
  | clen => cases g with | clen => exact absurd rfl h | _ => rfl
  | pat => cases g with | pat => exact absurd rfl h | _ => rfl

theorem csrValue_storeCsr_self {r : Csr} (h : Element.writable (.csr r) = true) (s : State) (v : Nat) :
    (s.storeCsr r v).csrValue r = (BitVec.ofNat r.width v).setWidth 255 := by
  cases r with
  | id | cmd | status | result | rem | outPos | pos => cases h
  | len | origLen | bitCnt | wordCnt | root | outFill => rfl
  | blobCtl => simp [State.csrValue, State.storeCsr, Csr.width]

theorem csrValue_storeCsr_of_ne {r r' : Csr} (h : r' ≠ r) (hst : r = .blobCtl → r' ≠ .status) (s : State) (v : Nat) :
    (s.storeCsr r v).csrValue r' = s.csrValue r' := by
  cases r with
  | id | cmd | status | result | rem | outPos | pos => rfl
  | len => cases r' with | len => exact absurd rfl h | _ => rfl
  | origLen => cases r' with | origLen => exact absurd rfl h | _ => rfl
  | bitCnt => cases r' with | bitCnt => exact absurd rfl h | _ => rfl
  | wordCnt => cases r' with | wordCnt => exact absurd rfl h | _ => rfl
  | root => cases r' with | root => exact absurd rfl h | _ => rfl
  | outFill => cases r' with | outFill => exact absurd rfl h | _ => rfl
  | blobCtl =>
    cases r' with
    | blobCtl => exact absurd rfl h
    | status => exact absurd rfl (hst rfl)
    | _ => rfl

theorem inAt_putIn {s : State} {c : Nat} (h : Store.wf unlisted.byte c s.inp = true) (i : Nat) (v : Sym) (j : Nat) :
    (s.putIn i v).inAt j = if j = i then v else s.inAt j := by
  unfold State.inAt
  rw [putIn_inp, Store.get_put h]

theorem ofNat_nodeIdx_ne {m n : Nat} (hm : m < numNodes) (hn : n < numNodes) (h : m ≠ n) :
    BitVec.ofNat 9 m ≠ BitVec.ofNat 9 n := by
  have hN : numNodes = 511 := rfl
  intro heq
  have := congrArg BitVec.toNat heq
  simp only [BitVec.toNat_ofNat] at this
  omega

/-! ### Read after store -/

theorem value_store_self {s : State} (hm : Memory.wf s = true) {e : Element} (hw : e.writable = true) (v : Nat) :
    (s.store e v).value e = (BitVec.ofNat e.width v).setWidth 255 := by
  obtain ⟨hin, hout, hpack, hnode, -, -⟩ := (Memory.wf_iff s).1 hm
  cases e with
  | csr r => exact csrValue_storeCsr_self hw s v
  | inp i => simp [State.value, State.store, Element.width, inAt_putIn hin]
  | out i => simp [State.value, State.store, Element.width, outAt_putOut hout]
  | pack i => simp [State.value, State.store, Element.width, packAt_putPack hpack]
  | node n f => simp [State.value, State.store, Element.width, nodeAt_putNode hnode, Node.field_setField_self]
  | freq i | lut i => cases hw

theorem value_store_of_ne {s : State} (hm : Memory.wf s = true) {e e' : Element} (he : e.InRange s) (he' : e'.InRange s)
    (hne : e' ≠ e) (hst : e = .csr .blobCtl → e' ≠ .csr .status) (v : Nat) : (s.store e v).value e' = s.value e' := by
  obtain ⟨hin, hout, hpack, hnode, -, -⟩ := (Memory.wf_iff s).1 hm
  cases e with
  | csr r =>
    cases e' with
    | csr r' => exact csrValue_storeCsr_of_ne (by simpa using hne) (by simpa using hst) s v
    | _ => cases r <;> rfl
  | inp i =>
    cases e' with
    | inp j =>
      have hji : j ≠ i := by rintro rfl; exact hne rfl
      simp [State.value, State.store, inAt_putIn hin, hji]
    | _ => rfl
  | out i =>
    cases e' with
    | out j =>
      have hji : j ≠ i := by rintro rfl; exact hne rfl
      simp [State.value, State.store, outAt_putOut hout, hji]
    | _ => rfl
  | pack i =>
    cases e' with
    | pack j =>
      have hji : j ≠ i := by rintro rfl; exact hne rfl
      simp [State.value, State.store, packAt_putPack hpack, hji]
    | _ => rfl
  | node n f =>
    cases e' with
    | node m g =>
      simp only [State.value, State.store, nodeAt_putNode hnode]
      by_cases hmn : m = n
      · subst hmn
        have hgf : g ≠ f := by rintro rfl; exact hne rfl
        rw [if_pos rfl, Node.field_setField_of_ne _ hgf]
      · rw [if_neg (ofNat_nodeIdx_ne he' he hmn)]
    | _ => rfl
  | freq i | lut i => rfl

/-- The fields of the state that a host write may touch; the hidden registers, the flags and the codes are not among them. -/
theorem store_frame (s : State) (e : Element) (v : Nat) :
    s.store e v = { s with
      present := (s.store e v).present, len := (s.store e v).len, origLen := (s.store e v).origLen
      bitCnt := (s.store e v).bitCnt, wordCnt := (s.store e v).wordCnt, root := (s.store e v).root
      outFill := (s.store e v).outFill, inp := (s.store e v).inp, out := (s.store e v).out
      pack := (s.store e v).pack, node := (s.store e v).node } := by
  cases e with
  | csr r => cases r <;> rfl
  | _ => rfl

/-! ### A write of BLOBCTL (R40) -/

theorem store_blobCtl {v : Nat} (hv : v < 2) (s : State) :
    s.store (.csr .blobCtl) v = { s with present := decide (v = 1) } := by
  have hbit : (BitVec.ofNat 1 v == 1#1) = decide (v = 1) := by
    revert v; decide
  rw [← hbit]
  rfl

theorem statusWord_getLsbD_setPresent (s : State) (b : Bool) {k : Nat} (hk : 1 ≤ k) :
    (statusWord { s with present := b }).getLsbD k = (statusWord s).getLsbD k := by
  have hk0 : ¬ k < 1 := by omega
  simp only [statusWord, BitVec.getLsbD_append, hk0, if_false]

/-! ### The statement -/

theorem Element.width_le (e : Element) : e.width ≤ 255 := by
  cases e with
  | csr r => cases r <;> simp [Element.width, Csr.width]
  | node n f => cases f <;> simp [Element.width, NodeField.width]
  | inp i | out i | pack i | freq i | lut i => simp [Element.width]

/-- A value that fits its element is read back as the number written. -/
theorem toNat_widened_ofNat {w v : Nat} (hw : w ≤ 255) (hv : v < 2 ^ w) :
    ((BitVec.ofNat w v).setWidth 255).toNat = v := by
  rw [BitVec.toNat_setWidth_of_le hw, BitVec.toNat_ofNat, Nat.mod_eq_of_lt hv]

/-- Settles O11: the write is `State.store`, so the clauses are the laws of `store` above, read through the port. -/
theorem hostWriteChangesOneElement : Obligations.HostWriteChangesOneElement := by
  refine ⟨fun s space index v e hm he hw hv => ?_, fun s w => hostWrite_cmd w s⟩
  have hc : e ≠ .csr .cmd := by rintro rfl; cases hw
  have hread : ∀ {sp i e'}, s.element sp i = some e' → hostRead (s.store e v) sp i = (s.store e v).value e' :=
    fun h => hostRead_eq_value ((element_store s e v _ _).trans h)
  refine ⟨s.store e v, hostWrite_eq_store he hc hv, ?_, store_frame s e v, ?_, ?_⟩
  · rw [hread he, value_store_self hm hw, toNat_widened_ofNat e.width_le hv]
  · intro space' index' e' he' hne hst
    rw [hread he', hostRead_eq_value he',
      value_store_of_ne hm (inRange_of_element he) (inRange_of_element he') hne hst]
  · rintro rfl
    rw [store_blobCtl hv]
    exact ⟨rfl, statusWord_bit_present _, fun k hk => statusWord_getLsbD_setPresent s _ hk⟩

end Sys2Proof.Machine

/-! ## The packed stream of a successful ENCODE (R65, R99) -/

namespace Sys2Proof.Machine

@[simp] theorem length_streamBits (s : State) (n : Nat) : (s.streamBits n).length = n := by
  simp only [State.streamBits, List.length_map, List.length_range]

/-- The first stream bits are a bit string when each of them is the bit of the string in its place. -/
theorem streamBits_length_eq {s : State} {bs : List Bool} (h : ∀ k (hk : k < bs.length), s.streamBit k = bs[k]) :
    s.streamBits bs.length = bs :=
  List.ext_getElem (length_streamBits s _) fun k _ hk => by
    simpa only [State.streamBits, List.getElem_map, List.getElem_range] using h k hk

/-- The WORDCNT words have room for all BITCNT bits. -/
theorem Encoded.bitCnt_le {s t : State} {T : Tree} (h : Encoded s t T) :
    t.bitCnt.toNat ≤ 64 * t.wordCnt.toNat := by
  rw [h.bitCnt, h.wordCnt]
  omega

/-- A stream bit of the WORDCNT words is the bit of the concatenated codes in its place, 0 after their end. -/
theorem Encoded.streamBit_eq {s t : State} {T : Tree} (h : Encoded s t T) {k : Nat}
    (hk : k < 64 * t.wordCnt.toNat) : t.streamBit k = ((streamOf t s.input)[k]?).getD false :=
  h.bits k (h.wordCnt ▸ hk)

/-- Settles O34: bit by bit, within the codes and after their end. -/
theorem streamIsTheCodesInOrder : Obligations.StreamIsTheCodesInOrder := by
  intro s t henc
  obtain ⟨T, h⟩ := encodes_spec henc
  refine ⟨?_, h.bitCnt.symm, fun k hend hk => ?_⟩
  · rw [h.bitCnt]
    refine streamBits_length_eq fun k hk => ?_
    have hroom : k < 64 * t.wordCnt.toNat := Nat.lt_of_lt_of_le (h.bitCnt ▸ hk) h.bitCnt_le
    rw [h.streamBit_eq hroom, List.getElem?_eq_getElem hk, Option.getD_some]
  · rw [h.streamBit_eq hk, List.getElem?_eq_none (h.bitCnt ▸ hend), Option.getD_none]

end Sys2Proof.Machine

/-! ## The blob under the other commands (R95)

Only a fatal ending clears the blob slot, so what has to be followed along DECODE and DECODEA is the blob and the kind of ending. -/

namespace Sys2Proof.Machine

/-- The blob: its slot, the four blob registers, the packed buffer and the tree (R93, R95). -/
def State.blob (s : State) : Bool × Count × BitCount × WordCount × NodeIdx × List (Nat × PackWord) × List (Nat × Node) :=
  (s.present, s.origLen, s.bitCnt, s.wordCnt, s.root, s.pack, s.node)

theorem blob_eq_iff (s t : State) : t.blob = s.blob ↔
    t.present = s.present ∧ t.origLen = s.origLen ∧ t.bitCnt = s.bitCnt ∧ t.wordCnt = s.wordCnt ∧ t.root = s.root ∧
      t.pack = s.pack ∧ t.node = s.node := by
  simp only [State.blob, Prod.mk.injEq]

/-- A piece of a command, begun with the blob of `o`, keeps it and does not end in a fatal. -/
def Flow.KeepsBlob (o : State) (x : Flow) : Prop :=
  x.Sat (fun t => t.blob = o.blob) (fun e t => t.blob = o.blob ∧ ∀ f, e ≠ .fatal f)

/-! ### Sequencing, loops and the ends of a command -/

theorem keepsBlob_go {o t : State} (h : t.blob = o.blob) : (Flow.go t).KeepsBlob o := h

theorem keepsBlob_stop {o t : State} {e : Ending} (h : t.blob = o.blob) (he : ∀ f, e ≠ .fatal f) :
    (Flow.stop e t).KeepsBlob o :=
  ⟨h, he⟩

theorem Flow.KeepsBlob.congr {o o' : State} {x : Flow} (h : x.KeepsBlob o) (ho : o.blob = o'.blob) : x.KeepsBlob o' := by
  unfold Flow.KeepsBlob at *
  rwa [← ho]

theorem Flow.KeepsBlob.andThen {o : State} {x : Flow} {f : State → Flow} (hx : x.KeepsBlob o)
    (hf : ∀ t, (f t).KeepsBlob t) : (x.andThen f).KeepsBlob o :=
  Flow.Sat.andThen hx fun t ht => (hf t).congr ht

theorem keepsBlob_loopFlow {f : Nat → State → Flow} (hf : ∀ i t, (f i t).KeepsBlob t) (n a : Nat) (s : State) :
    (loopFlow n a f s).KeepsBlob s :=
  sat_loopFlow (fun _ t => t.blob = s.blob) n a (fun i t _ _ ht => (hf i t).congr ht) s rfl

theorem blob_of_conclude {o t : State} {x : Flow} (hx : x.KeepsBlob o) (h : conclude x = .next t) : t.blob = o.blob := by
  cases x with
  | go s => cases h; exact hx
  | stop e s =>
    obtain ⟨hb, hfatal⟩ := hx
    cases e with
    | fatal f => exact absurd rfl (hfatal f)
    | done | refuse c | fail c => cases h; exact hb
    | undef r => cases h

theorem blob_of_accept {s t : State} {run : State → Result} (hrun : run s = .next t → t.blob = s.blob)
    (h : accept s run = .next t) : t.blob = s.blob := by
  cases hf : s.faulted with
  | true => rw [accept_of_faulted hf] at h; cases h; rfl
  | false => exact hrun (accept_of_ready hf run ▸ h)

theorem blob_of_accept_conclude {body : State → Flow} (hb : ∀ s, (body s).KeepsBlob s) {s t : State}
    (h : accept s (fun u => conclude (body u)) = .next t) : t.blob = s.blob :=
  blob_of_accept (blob_of_conclude (hb s)) h

/-! ### UNPACK -/

theorem keepsBlob_unpackLeaf (base : Nat) (s : State) : (unpackLeaf base s).KeepsBlob s := by
  unfold unpackLeaf
  split_ifs
  · exact keepsBlob_stop rfl nofun
  · exact keepsBlob_stop rfl nofun
  · exact keepsBlob_stop rfl nofun
  · exact keepsBlob_go rfl

theorem keepsBlob_unpackArrive (base : Nat) (s : State) : (unpackArrive base s).KeepsBlob s := by
  unfold unpackArrive
  split
  · exact keepsBlob_stop rfl nofun
  · split
    · exact keepsBlob_unpackLeaf base s
    · exact keepsBlob_go rfl

theorem keepsBlob_unpackBit (b : Bool) (base : Nat) (s : State) : (unpackBit b base s).KeepsBlob s := by
  unfold unpackBit
  split
  · exact keepsBlob_stop rfl nofun
  · exact (keepsBlob_unpackArrive base _).congr rfl

theorem keepsBlob_unpackStep (base i : Nat) (s : State) : (unpackStep base i s).KeepsBlob s :=
  (keepsBlob_unpackBit _ base _).congr rfl

theorem keepsBlob_unpackWord (base w : Nat) (s : State) : (unpackWord base w s).KeepsBlob s :=
  ((keepsBlob_loopFlow (keepsBlob_unpackStep base) _ _ _).congr rfl).andThen fun _ => keepsBlob_go rfl

theorem keepsBlob_unpackExhaust (s : State) : (unpackExhaust s).KeepsBlob s := by
  unfold unpackExhaust
  split_ifs <;> exact keepsBlob_stop rfl nofun

theorem keepsBlob_unpack (base : Nat) (s : State) : (unpack base s).KeepsBlob s :=
  ((keepsBlob_loopFlow (keepsBlob_unpackWord base) _ _ _).congr rfl).andThen keepsBlob_unpackExhaust

/-! ### The commands -/

theorem keepsBlob_decodeFrom (base : Nat) (s : State) : (decodeFrom base s).KeepsBlob s := by
  unfold decodeFrom
  split_ifs
  · exact keepsBlob_stop rfl nofun
  · exact keepsBlob_stop rfl nofun
  · exact keepsBlob_stop rfl nofun
  · exact keepsBlob_unpack base s

theorem keepsBlob_advanceFill {o : State} {x : Flow} (h : x.KeepsBlob o) : (advanceFill x).KeepsBlob o := by
  cases x with
  | go s => exact h
  | stop e s => cases e <;> exact h

theorem keepsBlob_decodeaBody (s : State) : (decodeaBody s).KeepsBlob s := by
  unfold decodeaBody
  split
  · exact keepsBlob_advanceFill (keepsBlob_decodeFrom _ s)
  · exact keepsBlob_decodeFrom _ s

theorem blob_of_execEncode {s t : State} (hp : s.present = true) (h : execEncode s = .next t) : t.blob = s.blob := by
  unfold execEncode at h
  refine blob_of_accept (fun e => ?_) h
  rw [encodeBody, if_pos hp] at e
  cases e
  rfl

theorem blob_of_execOlen {s t : State} (h : execOlen s = .next t) : t.blob = s.blob := by
  unfold execOlen at h
  exact blob_of_accept (fun e => by cases e; rfl) h

theorem blob_of_execRelease {s t : State} (hp : s.present = false) (h : execRelease s = .next t) : t.blob = s.blob := by
  unfold execRelease at h
  refine blob_of_accept (fun e => ?_) h
  rw [hp] at e
  cases e
  rfl

/-- Settles O53: ENCODE is refused where a blob is held, RELEASE does nothing where none is, and the other three keep
`State.blob` in any state. -/
theorem onlyEncodeAndReleaseWriteTheBlob : Obligations.OnlyEncodeAndReleaseWriteTheBlob := by
  intro i s t h henc hrel
  refine (blob_eq_iff s t).1 ?_
  cases i with
  | encode => exact blob_of_execEncode (henc.resolve_left (absurd rfl)) h
  | decode => exact blob_of_accept_conclude (keepsBlob_decodeFrom 0) h
  | decodea => exact blob_of_accept_conclude keepsBlob_decodeaBody h
  | olen => exact blob_of_execOlen h
  | release => exact blob_of_execRelease (hrel.resolve_left (absurd rfl)) h

end Sys2Proof.Machine

/-! ## The command word (R90, R91, R100 to R102) -/

namespace Sys2Proof

/-- The two fields of R90 make up the whole word. -/
theorem CmdWord.eq_iff_fields (w v : CmdWord) :
    w = v ↔ CmdWord.zeroField w = CmdWord.zeroField v ∧ CmdWord.opcode w = CmdWord.opcode v := by
  simp only [CmdWord.zeroField, CmdWord.opcode, ← BitVec.toNat_inj, BitVec.extractLsb'_toNat,
    Nat.shiftRight_eq_div_pow]
  omega

@[simp] theorem zeroField_encode (i : Instr) : CmdWord.zeroField (encode i) = 0#24 := by
  cases i <;> rfl

theorem decodeOpcode_eq_ok_iff (op : Nat) (i : Instr) :
    decodeOpcode op = .ok i ↔ op = (CmdWord.opcode (encode i)).toNat := by
  constructor
  · intro h
    unfold decodeOpcode at h
    split at h <;> cases h <;> rfl
  · rintro rfl
    cases i <;> rfl

theorem decodeOpcode_ne_ok_iff (op : Nat) : (∀ i, decodeOpcode op ≠ .ok i) ↔ op < 1 ∨ 5 < op := by
  unfold decodeOpcode
  split <;> grind

theorem decodeWord_of_zeroField {w : CmdWord} (h : CmdWord.zeroField w = 0#24) :
    decodeWord w = decodeOpcode (CmdWord.opcode w).toNat :=
  if_pos (beq_iff_eq.2 h)

theorem decodeWord_of_zeroField_ne {w : CmdWord} (h : CmdWord.zeroField w ≠ 0#24) :
    decodeWord w = .error .reservedBits :=
  if_neg (mt beq_iff_eq.1 h)

/-- Which words are a given command, field by field (R91, R100). -/
theorem decodeWord_eq_ok_iff_fields (w : CmdWord) (i : Instr) :
    decodeWord w = .ok i ↔ CmdWord.zeroField w = 0#24 ∧ CmdWord.opcode w = CmdWord.opcode (encode i) := by
  by_cases h : CmdWord.zeroField w = 0#24
  · rw [decodeWord_of_zeroField h, decodeOpcode_eq_ok_iff, BitVec.toNat_inj, and_iff_right h]
  · simp [decodeWord_of_zeroField_ne h, h]

/-- Which words are no command (R101, R102). -/
theorem decodeWord_ne_ok_iff (w : CmdWord) : (∀ i, decodeWord w ≠ .ok i) ↔
    CmdWord.zeroField w ≠ 0#24 ∨ (CmdWord.opcode w).toNat < 1 ∨ 5 < (CmdWord.opcode w).toNat := by
  by_cases h : CmdWord.zeroField w = 0#24
  · simp only [decodeWord_of_zeroField h, decodeOpcode_ne_ok_iff, ne_eq, h, not_true_eq_false, false_or]
  · simp [decodeWord_of_zeroField_ne h, h]

/-- A command is the reading of its own word and of no other (R100). -/
theorem decodeWord_eq_ok_iff (w : CmdWord) (i : Instr) : decodeWord w = .ok i ↔ w = encode i := by
  rw [decodeWord_eq_ok_iff_fields, CmdWord.eq_iff_fields, zeroField_encode]

theorem decodeWord_encode (i : Instr) : decodeWord (encode i) = .ok i := (decodeWord_eq_ok_iff _ i).2 rfl

theorem wf_encode (i : Instr) : CmdWord.wf (encode i) = true := by cases i <;> decide

theorem decodeTableWord_toNat {w : CmdWord} {i : Instr} (h : decodeWord w = .ok i) :
    decodeTableWord 32 w.toNat = some i := by
  simp [decodeTableWord, Nat.mod_eq_of_lt w.isLt, w.isLt, h]

/-- Settles O1: five of the words are written as `encode` writes them; the rejections of the other four are evaluated. -/
theorem writtenWordsDecode : Obligations.WrittenWordsDecode :=
  ⟨decodeWord_encode .encode, decodeWord_encode .decode, decodeWord_encode .decodea, decodeWord_encode .olen,
    decodeWord_encode .release, rfl, rfl, rfl, rfl⟩

/-- Settles O2: the word is taken by its two fields. -/
theorem commandMapComplete : Obligations.CommandMapComplete :=
  fun w => ⟨decodeWord_eq_ok_iff_fields w .encode, decodeWord_eq_ok_iff_fields w .decode,
    decodeWord_eq_ok_iff_fields w .decodea, decodeWord_eq_ok_iff_fields w .olen,
    decodeWord_eq_ok_iff_fields w .release, decodeWord_ne_ok_iff w⟩

/-- Settles O3: the table decoder reads a 32-bit word as the word decoder does. -/
theorem decodeEncodeAgree : Obligations.DecodeEncodeAgree :=
  fun i _ => ⟨wf_encode i, decodeWord_encode i, decodeTableWord_toNat (decodeWord_encode i),
    fun w => (decodeWord_eq_ok_iff w i).1⟩

end Sys2Proof

/-! ## Words that are refused (R101 to R103) -/

namespace Sys2Proof.Machine

theorem commandWrite_of_not_command {s : State} {w : CmdWord} (hf : s.faulted = false)
    (h : ∀ i, decodeWord w ≠ .ok i) : commandWrite w s = .next (report .illCmd s) := by
  unfold commandWrite
  split
  next i hd => exact absurd hd (h i)
  · exact accept_of_ready hf _

theorem exec_of_faulted {s : State} (hf : s.faulted = true) (i : Instr) : exec i s = .next (report .faulted s) := by
  cases i <;> simp only [exec, execEncode, execDecode, execDecodea, execOlen, execRelease, accept_of_faulted hf]

theorem commandWrite_of_faulted {s : State} (hf : s.faulted = true) (w : CmdWord) :
    commandWrite w s = .next (report .faulted s) := by
  unfold commandWrite
  split
  next i _ => exact exec_of_faulted hf i
  · exact accept_of_faulted hf _

/-- Settles O16: such a word is no command, by its fields. -/
theorem illegalWordRefused : Obligations.IllegalWordRefused :=
  fun _ w hf h => commandWrite_of_not_command hf ((decodeWord_ne_ok_iff w).2 h)

theorem element_node_field_seven (s : State) (n : Nat) : s.element 4 (8 * n + 7) = none :=
  (element_eq_none_iff s 4 _).2 (by omega)

/-- Settles O17: a word that is not the word of a command decodes to none; the code tables are evaluated. -/
theorem reservedValuesAndFaultedRefusal : Obligations.ReservedValuesAndFaultedRefusal :=
  ⟨fun _ w hf h => commandWrite_of_not_command hf fun i hd => h i ((decodeWord_eq_ok_iff w i).1 hd),
    fun c => by cases c <;> decide, fun f => by cases f <;> decide, statusWord_zero_field, element_node_field_seven,
    fun _ w hf => commandWrite_of_faulted hf w⟩

end Sys2Proof.Machine

/-! ## The frequencies after FCOUNT and after ENCODE (R121, R122) -/

namespace Sys2Proof.Machine

/-- The occurrences of a symbol in the input, counted over the indices of IN (R121). -/
theorem count_input_eq_length_filter (s : State) (x : Sym) :
    s.input.count x = ((List.range s.len.toNat).filter (fun i => s.inAt i = x)).length := by
  rw [State.input, List.count, List.countP_map, List.countP_eq_length_filter]
  rfl

/-- FREQ after ENCODE, whether PACK succeeds or fails with E_PACKCAP: BUILD, ASSIGN and PACK keep what FCOUNT counted (R212). -/
theorem freqAt_of_exec_encode {s t : State} (h : EncodeReady s) (he : exec .encode s = .next t) (x : Sym) :
    (t.freqAt x).toNat = s.input.count x := by
  obtain ⟨f, T, hcoded, -, -, -, hend⟩ := execEncode_ready h
  have hfreq : t.freq = f.freq := by
    obtain ⟨-, u, hu, hpack, -⟩ | ⟨-, u, hu, hpack, -⟩ := hend
    all_goals
      cases hu.symm.trans he
      rw [hpack]
      rfl
  rw [← hcoded.freq x, State.freqAt, State.freqAt, hfreq]

/-- Settles O24: FCOUNT by its own law, ENCODE because no later phase writes FREQ. -/
theorem fcountCounts : Obligations.FcountCounts := by
  refine ⟨fun s hm => ?_, fun s t h he x => ?_⟩
  · obtain ⟨-, -, -, -, hwf, -⟩ := (Memory.wf_iff s).1 hm
    obtain ⟨hframe, -, hcount⟩ := fcount_spec s hwf
    refine ⟨fun x => (hcount x).trans (count_input_eq_length_filter s x), ?_⟩
    have hseq : (fcount s).seq = .fcount := by rw [hframe]
    rw [hseq]
    exact hframe
  · exact (freqAt_of_exec_encode h he x).trans (count_input_eq_length_filter s x)

/-- Settles O25: each entry counts a part of the input, and every input byte is counted under exactly one symbol. -/
theorem frequenciesSumToLen : Obligations.FrequenciesSumToLen := by
  intro s t h he
  have hcount := freqAt_of_exec_encode h he
  refine ⟨fun x => ?_, ?_⟩
  · calc (t.freqAt x).toNat
        = s.input.count x := hcount x
      _ ≤ s.input.length := List.count_le_length
      _ = s.len.toNat := length_input s
  · calc ((List.range 256).map (fun i => (t.freqAt (symOf i)).toNat)).sum
        = (allSyms.map (fun x => s.input.count x)).sum := by
          simp only [hcount, allSyms, numSyms, List.map_map, Function.comp_def]
      _ = s.input.length := sum_count s.input
      _ = s.len.toNat := length_input s

end Sys2Proof.Machine

/-! ## The queue disciplines and MERGE (R131, R132, R136) -/

namespace Sys2Proof.Machine

theorem leastIdx_le (n : NodeIdx) (ns : List NodeIdx) : ∀ m ∈ n :: ns, leastIdx n ns ≤ m := by
  induction ns generalizing n with
  | nil => simp [leastIdx]
  | cons a as ih =>
    have htail := ih a
    rw [leastIdx, List.forall_mem_cons]
    split
    case isTrue hlt =>
      exact ⟨BitVec.le_refl n, fun m hm => BitVec.le_trans (BitVec.le_of_lt hlt) (htail m hm)⟩
    case isFalse hge => exact ⟨BitVec.not_lt.1 hge, htail⟩

theorem le_greatestIdx (n : NodeIdx) (ns : List NodeIdx) : ∀ m ∈ n :: ns, m ≤ greatestIdx n ns := by
  induction ns generalizing n with
  | nil => simp [greatestIdx]
  | cons a as ih =>
    have htail := ih a
    rw [greatestIdx, List.forall_mem_cons]
    split
    case isTrue hlt =>
      exact ⟨BitVec.le_refl n, fun m hm => BitVec.le_trans (htail m hm) (BitVec.le_of_lt hlt)⟩
    case isFalse hge => exact ⟨BitVec.not_lt.1 hge, htail⟩

theorem pick_ref (hist : List QEvent) (n : NodeIdx) (ns : List NodeIdx) : pick .ref hist n ns = leastIdx n ns := by
  cases ns <;> rfl

theorem pick_alt (hist : List QEvent) (n : NodeIdx) (ns : List NodeIdx) :
    pick .alt hist n ns = greatestIdx n ns := by
  cases ns <;> rfl

/-- `pop` takes the candidate TIE picks (R132). -/
theorem pop_of_candidates {s : State} {c : NodeIdx} {cs : List NodeIdx} (h : s.candidates = c :: cs) :
    s.pop = some (pick s.tie s.qHist c cs, s.popped (pick s.tie s.qHist c cs)) := by
  rw [State.pop, h]
  rfl

/-- Against a candidate, an index of the queue has a greater key or is a candidate of the same key. -/
theorem key_lt_or_mem_candidates {s : State} {n m : NodeIdx} (hn : n ∈ s.candidates) (hm : m ∈ s.queue) :
    s.key n < s.key m ∨ (s.key n = s.key m ∧ m ∈ s.candidates) := by
  obtain ⟨-, hle⟩ := (mem_candidates s n).1 hn
  by_cases hkey : s.key n = s.key m
  · exact .inr ⟨hkey, (mem_candidates s m).2 ⟨hm, fun k hk => hkey ▸ hle k hk⟩⟩
  · exact .inl (BitVec.lt_of_le_ne (hle m hm) hkey)

/-- Settles O22: TIE picks among the candidates, the reference discipline their least index, TIE_ALT their greatest. -/
theorem popTakesMinimal : Obligations.PopTakesMinimal := by
  intro s hq
  obtain ⟨c, cs, hc⟩ := List.exists_cons_of_ne_nil (candidates_ne_nil hq)
  have hcand : pick s.tie s.qHist c cs ∈ s.candidates := hc ▸ pick_mem s.tie s.qHist c cs
  obtain ⟨hmem, hle⟩ := (mem_candidates s _).1 hcand
  refine ⟨_, _, pop_of_candidates hc, hmem, hle, rfl, fun htie m hm => ?_, fun htie m hm => ?_⟩
  · refine (key_lt_or_mem_candidates hcand hm).imp_right (And.imp_right fun hm' => ?_)
    rw [htie, pick_ref]
    exact leastIdx_le c cs m (hc ▸ hm')
  · refine (key_lt_or_mem_candidates hcand hm).imp_right (And.imp_right fun hm' => ?_)
    rw [htie, pick_alt]
    exact le_greatestIdx c cs m (hc ▸ hm')

/-- MERGE after its two pops (R136). -/
theorem merge_of_pops {s s1 s2 : State} {a b : NodeIdx} (ha : (s.enter .merge).pop = some (a, s1))
    (hb : s1.pop = some (b, s2)) : merge s = .go (s2.allocPush (internalNode (s2.key a + s2.key b) a b)) := by
  rw [merge, ha]
  dsimp only
  rw [hb]

/-- Settles O23: the second pop sees the queue without the first index, and both pops keep the records. -/
theorem mergeJoinsTwoLeast : Obligations.MergeJoinsTwoLeast := by
  intro s hlen _ hm
  obtain ⟨-, -, -, hwf, -, -⟩ := (Memory.wf_iff s).1 hm
  have hq : s.queue ≠ [] := List.ne_nil_of_length_pos (by omega)
  obtain ⟨a, hpa, ha, hale⟩ := pop_spec (s.enter .merge) hq
  have hq1 : s.queue.erase a ≠ [] :=
    List.ne_nil_of_length_pos (by have := List.length_erase_add_one (l := s.queue) ha; omega)
  obtain ⟨b, hpb, hb, hble⟩ := pop_spec ((s.enter .merge).popped a) hq1
  have hnode := allocPush_nodeAt (s := ((s.enter .merge).popped a).popped b) hwf
    (internalNode (s.key a + s.key b) a b)
  exact ⟨a, _, b, _, _, hpa, hpb, merge_of_pops hpa hpb, ha, hb, hale b (List.mem_of_mem_erase hb),
    fun m hm => hble m (List.mem_of_mem_erase hm), (hnode _).trans (if_pos rfl),
    fun n hn => (hnode n).trans (if_neg hn), rfl, List.perm_append_singleton _ _, rfl⟩

end Sys2Proof.Machine

/-! ## The records of the tree ENCODE leaves (R138, R139)

A tree's records are counted by its links: every record but the root is the far end of one link. -/

namespace Sys2Proof.Machine

theorem presentSyms_sorted (g : Sym → Count) : (presentSyms g).Pairwise (· < ·) := allSyms_sorted.filter _

theorem Encoded.leafRec {s t : State} {T : Tree} (h : Encoded s t T) {k : Nat} (hk : k < t.distinct) :
    (t.nodeAt (BitVec.ofNat 9 k)).kind = .leaf ∧ (t.nodeAt (BitVec.ofNat 9 k)).sym = (presentSyms t.freqAt)[k]'hk ∧
      (t.nodeAt (BitVec.ofNat 9 k)).freq = t.freqAt ((presentSyms t.freqAt)[k]'hk) := by
  have hkN : (BitVec.ofNat 9 k).toNat = k := by
    have := h.size.2
    rw [BitVec.toNat_ofNat]
    omega
  obtain ⟨p, -, hp, -, -, hrec, -⟩ := h.code (BitVec.ofNat 9 k) (hkN.symm ▸ hk)
  rw [hrec, codedLeaf, hp, hkN, List.getD_eq_getElem _ _ hk]
  exact ⟨rfl, rfl, rfl⟩

/-- ROOT is the record allocated last (R138). -/
theorem Encoded.root_succ {s t : State} {T : Tree} (h : Encoded s t T) : t.root.toNat + 1 = t.nNode.toNat := by
  have hroot : t.root.toNat < t.nNode.toNat := by
    rw [h.coded.root, ← h.mem_idxs]
    exact T.root_mem_idxs
  have hlast : (t.nNode - 1#9).toNat ≤ t.root.toNat := h.root _ ((h.mem_idxs _).2 (by bv_omega))
  bv_omega

/-- With one symbol the tree is the synthetic root over the sole leaf (R137). -/
theorem Encoded.single {s t : State} {T : Tree} (h : Encoded s t T) (h1 : t.distinct = 1) :
    T = .wrap 1#9 (.leaf 0#9) ∧ t.nNode = 2#9 ∧ t.nodeAt 1#9 = internalNode (t.key 0#9) 0#9 absent := by
  obtain ⟨-, hshape⟩ | ⟨h2, -⟩ := h.coded.shape
  · exact hshape
  · exact absurd (h1 ▸ h2 : 2 ≤ 1) (by decide)

/-- With more symbols the tree is full, and every internal record joins two lower ones, LEFT of no greater frequency, and
holds their 32-bit sum (R136, R138). -/
theorem Encoded.many {s t : State} {T : Tree} (h : Encoded s t T) (h2 : 2 ≤ t.distinct) :
    T.Full ∧ t.nNode.toNat + 1 = 2 * t.distinct ∧
      ∀ n : NodeIdx, t.distinct ≤ n.toNat → n.toNat < t.nNode.toNat →
        (t.nodeAt n).left.toNat < n.toNat ∧ (t.nodeAt n).right.toNat < n.toNat ∧
        t.key (t.nodeAt n).left ≤ t.key (t.nodeAt n).right ∧
        t.key n = t.key (t.nodeAt n).left + t.key (t.nodeAt n).right := by
  obtain ⟨h1, -⟩ | ⟨-, hfull, hn, -, hjoin, -⟩ := h.coded.shape
  · exact absurd (h1 ▸ h2 : 2 ≤ 1) (by decide)
  · refine ⟨hfull, hn, fun n hlo hhi => ?_⟩
    obtain ⟨l, r, hrec, hl, hr, hle⟩ := hjoin n hlo hhi
    have hkey : t.key n = t.key l + t.key r := congrArg Node.freq hrec
    rw [hrec]
    exact ⟨hl, hr, hle, hkey⟩

theorem Encoded.nNode_le {s t : State} {T : Tree} (h : Encoded s t T) : t.nNode.toNat ≤ numNodes := by
  obtain ⟨h1, h256⟩ := h.size
  by_cases h2 : 2 ≤ t.distinct
  · obtain ⟨-, hn, -⟩ := h.many h2
    show _ ≤ 511
    omega
  · obtain ⟨-, hn, -⟩ := h.single (by omega)
    rw [hn]
    decide

/-- Settles O26: the leaves from ASSIGN's records, NNODE from the shape of the tree, ROOT as its last record. -/
theorem nodeNumbering : Obligations.NodeNumbering := by
  intro s t henc
  obtain ⟨T, h⟩ := encodes_spec henc
  have hroot := h.root_succ
  refine ⟨fun k hk => h.leafRec hk, fun j k hj hk hjk => ?_, fun h2 => ?_, fun h1 => ?_, h.size.1, h.nNode_le,
    fun n hlo hhi => ?_, h.coded.keep⟩
  · exact List.pairwise_iff_getElem.1 (presentSyms_sorted t.freqAt) j k hj hk hjk
  · obtain ⟨-, hn, -⟩ := h.many h2
    exact ⟨hn, by omega⟩
  · obtain ⟨-, hn, -⟩ := h.single h1
    exact ⟨hn, by bv_omega⟩
  · obtain ⟨hkind, hleft, hright, -⟩ := h.internal n hlo hhi
    exact ⟨hkind, hleft, hright⟩

/-! ### Frequencies (R136, R137, R139 c) -/

@[simp] theorem Tree.weight_node (L : List Sym) (g : Sym → Count) (n : NodeIdx) (l r : Tree) :
    (Tree.node n l r).weight L g = l.weight L g + r.weight L g := by
  simp only [Tree.weight, Tree.leaves, List.map_append, List.sum_append]

/-- The frequencies the records `f` hold for a tree: the leaves' own, and at every internal record the 32-bit sum of the
two children's (R133, R136). -/
structure Tree.Summed (L : List Sym) (g : Sym → Count) (f : NodeIdx → Node) (T : Tree) : Prop where
  leaf : ∀ n ∈ T.leaves, (f n).freq.toNat = leafWeight L g n
  internal : ∀ n ∈ T.idxs, (f n).kind = .internal → (f n).freq = (f (f n).left).freq + (f (f n).right).freq

theorem Tree.Summed.left {L : List Sym} {g : Sym → Count} {f : NodeIdx → Node} {n : NodeIdx} {l r : Tree}
    (h : (Tree.node n l r).Summed L g f) : l.Summed L g f :=
  ⟨fun m hm => h.leaf m (List.mem_append_left _ hm),
    fun m hm => h.internal m (List.mem_cons_of_mem _ (List.mem_append_left _ hm))⟩

theorem Tree.Summed.right {L : List Sym} {g : Sym → Count} {f : NodeIdx → Node} {n : NodeIdx} {l r : Tree}
    (h : (Tree.node n l r).Summed L g f) : r.Summed L g f :=
  ⟨fun m hm => h.leaf m (List.mem_append_right _ hm),
    fun m hm => h.internal m (List.mem_cons_of_mem _ (List.mem_append_right _ hm))⟩

/-- In a full tree that weighs less than 2^32 no sum wraps: the root's frequency is the weight. -/
theorem Tree.Summed.root_freq {L : List Sym} {g : Sym → Count} {f : NodeIdx → Node} {T : Tree}
    (h : T.Summed L g f) (hrep : T.Rep f) (hfull : T.Full) (hw : T.weight L g < 2 ^ 32) :
    (f T.root).freq.toNat = T.weight L g := by
  induction T with
  | leaf n => exact h.leaf n (List.mem_singleton_self n)
  | wrap n l ih => exact hfull.elim
  | node n l r ihl ihr =>
    rw [Tree.weight_node] at hw ⊢
    obtain ⟨-, hkind, hleft, hright, hrl, hrr⟩ := hrep
    have hsum := h.internal n (List.mem_cons_self ..) hkind
    rw [hleft, hright] at hsum
    have hl := ihl h.left hrl hfull.1 (by omega)
    have hr := ihr h.right hrr hfull.2 (by omega)
    show (f n).freq.toNat = _
    rw [hsum, BitVec.toNat_add, hl, hr, Nat.mod_eq_of_lt hw]

/-- In such a tree every internal record holds the exact sum of its two children. -/
theorem Tree.Summed.internal_freq {L : List Sym} {g : Sym → Count} {f : NodeIdx → Node} {T : Tree}
    (h : T.Summed L g f) (hrep : T.Rep f) (hfull : T.Full) (hw : T.weight L g < 2 ^ 32) :
    ∀ n ∈ T.idxs, (f n).kind = .internal →
      (f n).freq.toNat = (f (f n).left).freq.toNat + (f (f n).right).freq.toNat := by
  induction T with
  | leaf n =>
    intro m hm hkind
    rw [List.mem_singleton.1 hm, hrep.2] at hkind
    cases hkind
  | wrap n l ih => exact hfull.elim
  | node n l r ihl ihr =>
    have hroot := h.root_freq hrep hfull hw
    rw [Tree.weight_node] at hw hroot
    obtain ⟨-, -, hleft, hright, hrl, hrr⟩ := hrep
    have hl := h.left.root_freq hrl hfull.1 (by omega)
    have hr := h.right.root_freq hrr hfull.2 (by omega)
    intro m hm hkind
    obtain rfl | hm := List.mem_cons.1 hm
    · rw [hleft, hright, hl, hr]
      exact hroot
    · obtain hm | hm := List.mem_append.1 hm
      · exact ihl h.left hrl hfull.1 (by omega) m hm hkind
      · exact ihr h.right hrr hfull.2 (by omega) m hm hkind

/-- The tree of an input weighs LEN (R122). -/
theorem Encoded.weight_eq_len {s t : State} {T : Tree} (h : Encoded s t T) :
    T.weight (presentSyms t.freqAt) t.freqAt = s.len.toNat := by
  have hS : (presentSyms t.freqAt).length ≤ numNodes := (presentSyms_length_le _).trans (by decide)
  have htotal := total_weight (g := t.freqAt) (ts := [T]) hS (by simpa using h.coded.leaves)
  simpa using htotal.trans (sum_present h.coded.freq)

theorem Encoded.leaf_key {s t : State} {T : Tree} (h : Encoded s t T) {n : NodeIdx} (hn : n.toNat < t.distinct) :
    (t.key n).toNat = leafWeight (presentSyms t.freqAt) t.freqAt n := by
  obtain ⟨p, -, rfl, -, -, hrec, -⟩ := h.code n hn
  rw [State.key, hrec]
  rfl

/-- An allocated record is internal exactly when it lies above the leaves (R138). -/
theorem Encoded.internal_iff {s t : State} {T : Tree} (h : Encoded s t T) {n : NodeIdx} (hn : n.toNat < t.nNode.toNat) :
    (t.nodeAt n).kind = .internal ↔ t.distinct ≤ n.toNat := by
  refine ⟨fun hkind => Nat.le_of_not_lt fun hlt => ?_, fun hle => (h.internal n hle hn).1⟩
  rw [h.leafK n hlt] at hkind
  cases hkind

/-- The sole leaf has frequency LEN (R137, R139 c). -/
theorem Encoded.single_key {s t : State} {T : Tree} (h : Encoded s t T) (h1 : t.distinct = 1) :
    (t.key 0#9).toNat = s.len.toNat := by
  obtain ⟨rfl, -, -⟩ := h.single h1
  rw [← h.weight_eq_len]
  exact h.leaf_key (by rw [h1]; decide)

theorem Encoded.summed {s t : State} {T : Tree} (h : Encoded s t T) (h2 : 2 ≤ t.distinct) :
    T.Summed (presentSyms t.freqAt) t.freqAt t.nodeAt where
  leaf n hn := h.leaf_key ((h.coded.leaf_iff n).1 hn)
  internal n hn hkind := by
    have hhi := (h.mem_idxs n).1 hn
    obtain ⟨-, -, hjoin⟩ := h.many h2
    obtain ⟨-, -, -, hsum⟩ := hjoin n ((h.internal_iff hhi).1 hkind) hhi
    exact hsum

theorem Encoded.weight_lt {s t : State} {T : Tree} (h : Encoded s t T) :
    T.weight (presentSyms t.freqAt) t.freqAt < 2 ^ 32 := by
  rw [h.weight_eq_len]
  exact s.len.isLt

theorem Encoded.root_key {s t : State} {T : Tree} (h : Encoded s t T) : (t.key t.root).toNat = s.len.toNat := by
  obtain ⟨h1, -⟩ := h.size
  rw [h.coded.root]
  by_cases h2 : 2 ≤ t.distinct
  · obtain ⟨hfull, -, -⟩ := h.many h2
    exact ((h.summed h2).root_freq h.coded.rep hfull h.weight_lt).trans h.weight_eq_len
  · obtain ⟨rfl, -, hrec⟩ := h.single (by omega)
    have hkey : t.key 1#9 = t.key 0#9 := by rw [State.key, hrec, internalNode]
    exact (congrArg BitVec.toNat hkey).trans (h.single_key (by omega))

/-- Settles O27: the whole tree weighs LEN, which 32 bits hold, so no sum on the way up wraps. -/
theorem internalRecordsAreSums : Obligations.InternalRecordsAreSums := by
  intro s t henc
  obtain ⟨T, h⟩ := encodes_spec henc
  have hbound := h.nNode_le
  refine ⟨fun h2 n hlo hhi => ?_, fun h1 => ?_, h.root_key⟩
  · obtain ⟨hfull, -, hjoin⟩ := h.many h2
    obtain ⟨hl, hr, hle, -⟩ := hjoin n hlo hhi
    exact ⟨ne_absent_of_lt (by omega), ne_absent_of_lt (by omega), hle,
      (h.summed h2).internal_freq h.coded.rep hfull h.weight_lt n ((h.mem_idxs n).2 hhi) ((h.internal_iff hhi).2 hlo)⟩
  · have hkey := h.single_key h1
    have hleaf := h.leafK 0#9 (by rw [h1]; decide)
    obtain ⟨rfl, -, hrec⟩ := h.single h1
    exact ⟨by rw [h.coded.root]; exact hrec, hleaf, hkey⟩

/-! ### Links (R139 b) -/

/-- The links of a tree: the parent, the bit of the edge, the child. -/
def Tree.links : Tree → List (NodeIdx × Bool × NodeIdx)
  | .leaf _ => []
  | .wrap n l => (n, false, l.root) :: l.links
  | .node n l r => (n, false, l.root) :: (n, true, r.root) :: (l.links ++ r.links)

/-- The records of a tree are its root and the far ends of its links. -/
theorem Tree.root_cons_children_perm (T : Tree) : (T.root :: T.links.map (·.2.2)).Perm T.idxs := by
  induction T with
  | leaf n => exact .refl _
  | wrap n l ih => exact ih.cons n
  | node n l r ihl ihr =>
    simp only [links, List.map_cons, List.map_append]
    exact ((List.perm_middle.symm.cons _).trans (ihl.append ihr)).cons n

theorem child_of_internal {t : State} {p : NodeIdx} (hp : p ≠ absent) (hk : (t.nodeAt p).kind = .internal)
    (b : Bool) : t.child p b = if b then (t.nodeAt p).right else (t.nodeAt p).left := by
  rw [State.child, if_neg hp, hk]

/-- In a tree the store holds, the links to a record are what `Child` answers at the internal records (R191). -/
theorem Tree.mem_links_iff {t : State} {T : Tree} (h : T.Rep t.nodeAt) {n : NodeIdx} (hn : n ≠ absent)
    (p : NodeIdx) (b : Bool) : (p, b, n) ∈ T.links ↔ p ∈ T.idxs ∧ (t.nodeAt p).kind = .internal ∧ t.child p b = n := by
  induction T with
  | leaf m =>
    obtain ⟨-, hkind⟩ := h
    simp only [links, idxs, List.not_mem_nil, List.mem_singleton, false_iff]
    rintro ⟨rfl, hk, -⟩
    rw [hkind] at hk
    cases hk
  | wrap m l ih =>
    obtain ⟨hm, hkind, hleft, hright, hl⟩ := h
    have hchild := child_of_internal hm hkind b
    simp only [links, idxs, List.mem_cons, Prod.mk.injEq, ih hl]
    by_cases hp : p = m
    · -- at the root the edge's bit chooses the link
      subst hp
      cases b <;> grind
    · simp [hp]
  | node m l r ihl ihr =>
    obtain ⟨hm, hkind, hleft, hright, hl, hr⟩ := h
    have hchild := child_of_internal hm hkind b
    simp only [links, idxs, List.mem_cons, List.mem_append, Prod.mk.injEq, ihl hl, ihr hr]
    by_cases hp : p = m
    · -- at the root the edge's bit chooses the link
      subst hp
      cases b <;> grind
    · simp [hp, or_and_right]

/-- Settles O28: the records other than ROOT are the far ends of the links, each once, since the tree lists no
record twice. -/
theorem everyRecordHasOneParent : Obligations.EveryRecordHasOneParent := by
  intro s t henc named
  obtain ⟨T, h⟩ := encodes_spec henc
  have hbound := h.nNode_le
  have hnamed : ∀ {n}, n ≠ absent → ∀ p b, named n p b ↔ (p, b, n) ∈ T.links := fun hn p b => by
    rw [Tree.mem_links_iff h.coded.rep hn, h.mem_idxs]
  have hnodup : (T.root :: T.links.map (·.2.2)).Nodup := by
    rw [T.root_cons_children_perm.nodup_iff, h.coded.idxs.nodup_iff]
    exact nodup_idxRange hbound
  obtain ⟨hroot, hchildren⟩ := List.nodup_cons.1 hnodup
  refine ⟨fun n hlt hne => ?_, fun p b hpb => ?_⟩
  · have hn : n ≠ absent := ne_absent_of_lt (by omega)
    have hmem : n ∈ T.root :: T.links.map (·.2.2) := T.root_cons_children_perm.mem_iff.2 ((h.mem_idxs n).2 hlt)
    obtain ⟨⟨p, b, _⟩, hlink, rfl⟩ := List.mem_map.1 (List.mem_of_ne_of_mem (h.coded.root ▸ hne) hmem)
    refine ⟨p, b, (hnamed hn p b).2 hlink, fun p' b' hpb => ?_⟩
    have heq := List.inj_on_of_nodup_map hchildren ((hnamed hn p' b').1 hpb) hlink rfl
    simpa using heq
  · rw [h.coded.root, hnamed h.coded.rep.root_ne] at hpb
    exact hroot (List.mem_map_of_mem hpb)

end Sys2Proof.Machine

/-! ## The codes ENCODE leaves (R156, R157)

ASSIGN writes into every leaf the path to it as its code, so what is said here of codes is said of the paths of one tree. -/

namespace Sys2Proof.Machine

/-- The code of a leaf leads from ROOT to it (R156). -/
theorem Encoded.walk_codeBits {s t : State} {T : Tree} (h : Encoded s t T) {n : NodeIdx} (hn : n.toNat < t.distinct) :
    t.walk t.root (codeBits (t.nodeAt n)) = n := by
  obtain ⟨p, hp, rfl, -, -, -, hbits, -⟩ := h.code n hn
  obtain ⟨hwalk, -⟩ := Tree.walk_paths h.coded.rep p hp
  rw [h.coded.root, hbits, hwalk]

/-- The pattern of a leaf has no bit set at or above its length (R92). -/
theorem Encoded.pat_getLsbD {s t : State} {T : Tree} (h : Encoded s t T) {n : NodeIdx} (hn : n.toNat < t.distinct)
    {k : Nat} (hk : (t.nodeAt n).clen.toNat ≤ k) : (t.nodeAt n).pat.getLsbD k = false := by
  obtain ⟨p, -, -, -, -, hrec, -, hclen⟩ := h.code n hn
  have hpat : (t.nodeAt n).pat = pathPat 0#255 p.2 := congrArg Node.pat hrec
  rw [hpat]
  exact pathPat_high p.2 0#255 0 (fun _ _ => BitVec.getLsbD_zero) k (by omega)

/-- The sole leaf's path is the LEFT edge of the synthetic root, so its code is the one bit 0 (R152). -/
theorem Encoded.sole_code {s t : State} {T : Tree} (h : Encoded s t T) (h1 : t.distinct = 1) :
    (t.nodeAt 0#9).clen = 1#8 ∧ (t.nodeAt 0#9).pat = 0#255 := by
  obtain ⟨p, hp, -, -, -, hrec, -⟩ := h.code 0#9 (by rw [h1]; decide)
  obtain ⟨rfl, -⟩ := h.single h1
  obtain rfl : p = (0#9, [false]) := List.mem_singleton.1 hp
  have hpat : pathPat 0#255 [false] = 0#255 := by decide
  rw [hrec]
  exact ⟨rfl, hpat⟩

/-- Two leaves of which one has a code that begins the other's code are one leaf (R156). -/
theorem Encoded.eq_of_codeBits_prefix {s t : State} {T : Tree} (h : Encoded s t T) {m n : NodeIdx}
    (hm : m.toNat < t.distinct) (hn : n.toNat < t.distinct)
    (hpre : codeBits (t.nodeAt m) <+: codeBits (t.nodeAt n)) : m = n := by
  obtain ⟨p, hp, rfl, -, -, -, hpbits, -⟩ := h.code m hm
  obtain ⟨q, hq, rfl, -, -, -, hqbits, -⟩ := h.code n hn
  rw [hpbits, hqbits] at hpre
  exact paths_prefix h.coded.rep p hp q hq hpre

/-- Settles O30: the codes are the paths of the tree, and no path to a leaf goes on past it. -/
theorem codesArePaths : Obligations.CodesArePaths := by
  intro s t henc
  obtain ⟨T, h⟩ := encodes_spec henc
  obtain ⟨-, -, -, hfaulted⟩ := h.flags
  refine ⟨fun n hn => ⟨?_, h.walk_codeBits hn, fun k => h.pat_getLsbD hn⟩, h.sole_code, fun n hlo hhi => ?_,
    fun m n hm hn hne hpre => hne (h.eq_of_codeBits_prefix hm hn hpre), hfaulted⟩
  · obtain ⟨p, -, -, hpos, -, -, -, hclen⟩ := h.code n hn
    rwa [hclen]
  · obtain ⟨-, -, -, hcode⟩ := h.internal n hlo hhi
    exact hcode

/-! ### The length of a code (R139 e, R157) -/

/-- The tree is one edge deep over a sole leaf, else less deep than it has leaves. -/
theorem Encoded.height_le {s t : State} {T : Tree} (h : Encoded s t T) : T.height ≤ max 1 (t.distinct - 1) := by
  obtain ⟨h1, -⟩ := h.size
  by_cases h2 : 2 ≤ t.distinct
  · obtain ⟨hfull, -⟩ := h.many h2
    have hlt : T.height < T.leaves.length := Tree.height_lt_leaves hfull
    have hleaves : T.leaves.length = t.distinct := h.coded.leaves.length_eq.trans (length_idxRange _)
    omega
  · obtain ⟨rfl, -⟩ := h.single (by omega)
    exact Nat.le_max_left 1 _

/-- The code of a present symbol is as long as some path of the tree, the one to the symbol's leaf. -/
theorem Encoded.clen_codeOf {s t : State} {T : Tree} (h : Encoded s t T) {x : Sym} (hx : t.freqAt x ≠ 0#32) :
    ∃ p ∈ T.paths, (t.codeOf x).clen.toNat = p.2.length := by
  obtain ⟨p, hp, -, -, hbits⟩ := codeOf_spec h.coded h.tabled ((present_iff_mem h.coded.freq x).1 hx)
  exact ⟨p, hp, by rw [← hbits, codeBits, patBits_length]⟩

/-- Settles O31: a code is no longer than the tree is deep. -/
theorem codeLengthBound : Obligations.CodeLengthBound := by
  intro s t henc x hx
  obtain ⟨T, h⟩ := encodes_spec henc
  obtain ⟨p, hp, hclen⟩ := h.clen_codeOf hx
  have hdepth : p.2.length ≤ T.height := Tree.path_length_le p hp
  rw [hclen]
  exact ⟨hdepth.trans h.height_le, hdepth.trans h.coded.height⟩

end Sys2Proof.Machine

/-! ## The table, the bit counts and the completion of ENCODE (R166, R171, R174)

BITCNT is the length of the concatenated codes; every count here is read off that one list of bits. -/

namespace Sys2Proof.Machine

/-! ### The table (R166) -/

/-- A symbol that a leaf of the tree carries is present. -/
theorem Encoded.freqAt_sym_ne {s t : State} {T : Tree} (h : Encoded s t T) {n : NodeIdx} (hn : n ∈ T.leaves) :
    t.freqAt (t.nodeAt n).sym ≠ 0#32 := by
  have hlt : n.toNat < (presentSyms t.freqAt).length := (h.coded.leaf_iff n).1 hn
  rw [← mem_presentSyms, h.coded.leaf_sym hn, List.getD_eq_getElem _ _ hlt]
  exact List.getElem_mem hlt

theorem Encoded.leaf_ne_absent {s t : State} {T : Tree} (h : Encoded s t T) {n : NodeIdx} (hn : n ∈ T.leaves) :
    n ≠ absent :=
  ne_absent_of_lt (Nat.lt_of_lt_of_le ((h.mem_idxs n).1 (T.leaves_subset_idxs n hn)) h.nNode_le)

/-- Settles O29: a symbol has a leaf exactly when it is present, and FLATTEN enters exactly the leaves. -/
theorem lookupTable : Obligations.LookupTable := by
  intro s t henc
  obtain ⟨T, h⟩ := encodes_spec henc
  refine ⟨fun n hn => h.tabled.leaf n ((h.coded.leaf_iff n).2 hn),
    fun x => ⟨fun hentry hzero => ?_, fun hpresent => ?_⟩⟩
  · refine hentry (h.tabled.other x fun n hn hsym => h.freqAt_sym_ne hn ?_)
    rw [hsym, hzero]
  · obtain ⟨n, hn, rfl⟩ := h.coded.exists_leaf ((present_iff_mem h.coded.freq x).1 hpresent)
    rw [h.tabled.leaf n hn]
    exact h.leaf_ne_absent hn

/-! ### The bit counts (R171, R234) -/

theorem length_streamOf (t : State) (xs : List Sym) : (streamOf t xs).length = bitsOf t xs := by
  simp only [streamOf, bitsOf, List.length_flatMap, codeBits, patBits_length]

/-- A sum over a string of symbols, taken symbol by symbol. -/
theorem sum_map_eq_sum_count_mul (xs : List Sym) (f : Sym → Nat) :
    (xs.map f).sum = (allSyms.map (fun x => xs.count x * f x)).sum := by
  have habsent : ∀ x ∈ allSyms.toFinset, x ∉ xs.toFinset → xs.count x * f x = 0 := fun x _ hx => by
    rw [List.count_eq_zero_of_not_mem (mt List.mem_toFinset.2 hx), Nat.zero_mul]
  have hsub : xs.toFinset ⊆ allSyms.toFinset := fun x _ => List.mem_toFinset.2 (mem_allSyms x)
  calc (xs.map f).sum
      = ∑ x ∈ xs.toFinset, xs.count x * f x := Finset.sum_list_map_count xs f
    _ = ∑ x ∈ allSyms.toFinset, xs.count x * f x := Finset.sum_subset hsub habsent
    _ = (allSyms.map (fun x => xs.count x * f x)).sum := List.sum_toFinset _ nodup_allSyms

theorem Encoded.bitCnt_eq_bitsOf {s t : State} {T : Tree} (h : Encoded s t T) : t.bitCnt.toNat = bitsOf t s.input :=
  h.bitCnt.trans (length_streamOf t s.input)

theorem Encoded.bitsOf_eq_sum_freq {s t : State} {T : Tree} (h : Encoded s t T) :
    bitsOf t s.input =
      ((List.range 256).map (fun i => (t.freqAt (symOf i)).toNat * (t.codeOf (symOf i)).clen.toNat)).sum := by
  rw [bitsOf, sum_map_eq_sum_count_mul]
  simp only [h.coded.freq, allSyms, numSyms, List.map_map, Function.comp_def]

/-- Every input byte has a code of at least one bit. -/
theorem Encoded.len_le_bitsOf {s t : State} {T : Tree} (h : Encoded s t T) : s.len.toNat ≤ bitsOf t s.input := by
  have hone : ∀ k ∈ s.input.map (fun x => (t.codeOf x).clen.toNat), 1 ≤ k := by
    intro k hk
    obtain ⟨x, hx, rfl⟩ := List.mem_map.1 hk
    obtain ⟨p, hp, hclen⟩ := h.clen_codeOf ((present_iff_mem h.coded.freq x).2 hx)
    obtain ⟨-, hpos, -⟩ := h.coded.code p hp
    rwa [hclen]
  simpa [bitsOf] using List.card_nsmul_le_sum _ 1 hone

theorem EncodeReady.len_pos {s : State} (h : EncodeReady s) : 1 ≤ s.len.toNat := by
  obtain ⟨-, -, hlen, -⟩ := h
  bv_omega

/-- Settles O35: the sum over the input is the length of its codes, and sorted by symbol it is the sum of FREQ × CLEN. -/
theorem bitAccounting : Obligations.BitAccounting := by
  intro s t henc
  obtain ⟨T, h⟩ := encodes_spec henc
  have hbits := h.bitCnt_eq_bitsOf
  obtain ⟨-, -, hpadding⟩ := streamIsTheCodesInOrder s t henc
  obtain ⟨hready, -⟩ := henc
  exact ⟨hbits, hbits.trans h.bitsOf_eq_sum_freq, hbits ▸ h.len_le_bitsOf, hready.len_pos, h.bitCnt ▸ h.wordCnt,
    hpadding⟩

/-! ### Completion (R174 b, R211) -/

/-- Settles O37: no code has more than 255 bits, so the stream fits and ENCODE has only its successful end. -/
theorem encodeSucceedsInAmplePack : Obligations.EncodeSucceedsInAmplePack := by
  intro s hready hroom
  obtain ⟨f, T, hcoded, htabled, -, -, ⟨-, u, hu, -⟩ | ⟨hfull, -⟩⟩ := execEncode_ready hready
  · obtain ⟨_, h⟩ := encodes_spec ⟨hready, hu, rfl⟩
    obtain ⟨hpresent, hok, hcause, -⟩ := h.flags
    exact ⟨_, hu, hpresent, hok, hcause, h.orig⟩
  · have hstream : (streamOf f s.input).length ≤ 255 * s.len.toNat := streamOf_length_le hcoded htabled
    omega

end Sys2Proof.Machine

/-! ## What a decode that ran UNPACK answers (R197, R210, R213, R215)

DECODE and DECODEA end alike but for OUTFILL, so what the host finds after either is said once, in terms of the decoder
on a list of bits; the registers of R197 are then facts about that decoder. -/

namespace Sys2Proof.Machine

/-! ### Both commands -/

theorem decodeFrom_eq_unpack {base : Nat} {s : State} (h : DecodeReady base s) : decodeFrom base s = unpack base s := by
  obtain ⟨-, hpresent, hout, hpack, -⟩ := h
  rw [decodeFrom, if_neg (by simp [hpresent]), if_neg (Nat.not_lt.2 hout), if_neg (BitVec.not_lt.2 hpack)]

theorem DecodeReady.wf_out {base : Nat} {s : State} (h : DecodeReady base s) :
    Store.wf unlisted.byte s.outCap.toNat s.out = true := by
  obtain ⟨-, -, -, -, hmem⟩ := h
  obtain ⟨-, hwf, -⟩ := (Memory.wf_iff s).1 hmem
  exact hwf

/-- What a decode into OUT from index `base` that ran UNPACK leaves in `t`: flags, registers and OUT as `State.decoded` says. -/
structure DecodeAnswer (base : Nat) (s t : State) : Prop where
  ok : t.ok = decide (s.decoded.cause = .none)
  cause : t.cause = s.decoded.cause
  rem : t.rem.toNat = s.decoded.rem
  pos : t.pos = s.decoded.pos
  count : t.outPos.toNat = s.decoded.out.length
  bound : s.decoded.out.length ≤ s.origLen.toNat
  wf : Store.wf unlisted.byte s.outCap.toNat t.out = true
  bytes : ∀ j, t.outAt j =
    if base ≤ j ∧ j < base + s.decoded.out.length then s.decoded.out.getD (j - base) 0#8 else s.outAt j

/-- The end of a command on the ending of a decode (R210). -/
theorem conclude_decoded (c : Cause) (u : State) :
    conclude (.stop (if c = .none then .done else .fail c) u) =
      .next { u with ok := decide (c = .none), cause := c, seq := .idle } := by
  by_cases hc : c = .none
  · subst hc
    rfl
  · rw [if_neg hc, decide_eq_false hc]
    rfl

theorem EndsAs.answer {base : Nat} {s : State} {x : Flow} (h : EndsAs base s s.decoded x) :
    ∃ t, conclude x = .next t ∧ DecodeAnswer base s t := by
  obtain ⟨u, rfl, hemit, hrem, hpos⟩ := h
  exact ⟨_, conclude_decoded s.decoded.cause u,
    { ok := rfl, cause := rfl, rem := hrem, pos := hpos, count := hemit.count, bound := hemit.bound, wf := hemit.wf
      bytes := hemit.bytes }⟩

/-- All that DECODEA adds is a new OUTFILL (R215). -/
theorem conclude_advanceFill {x : Flow} {t : State} (h : conclude x = .next t) :
    ∃ fill, conclude (advanceFill x) = .next { t with outFill := fill } := by
  cases x with
  | go s => exact ⟨t.outFill, h⟩
  | stop e s =>
    cases e with
    | done => cases h; exact ⟨_, rfl⟩
    | refuse c | fail c | fatal f | undef r => exact ⟨t.outFill, h⟩

theorem DecodeAnswer.set_outFill {base : Nat} {s t : State} (h : DecodeAnswer base s t) (fill : Count) :
    DecodeAnswer base s { t with outFill := fill } :=
  ⟨h.ok, h.cause, h.rem, h.pos, h.count, h.bound, h.wf, h.bytes⟩

theorem exec_decode_answer {s : State} (h : DecodeReady 0 s) : ∃ t, exec .decode s = .next t ∧ DecodeAnswer 0 s t := by
  obtain ⟨t, ht, hanswer⟩ := (decodeFrom_ready h).answer
  obtain ⟨hsound, -⟩ := h
  exact ⟨t, (execDecode_of hsound).trans ht, hanswer⟩

theorem exec_decodea_answer {s : State} (h : DecodeReady s.outFill.toNat s) :
    ∃ t, exec .decodea s = .next t ∧ DecodeAnswer s.outFill.toNat s t := by
  obtain ⟨u, hu, hanswer⟩ := (decodeFrom_ready h).answer
  obtain ⟨fill, hfill⟩ := conclude_advanceFill hu
  obtain ⟨hsound, hpresent, -⟩ := h
  exact ⟨_, (execDecodea_of_present hsound hpresent).trans hfill, hanswer.set_outFill fill⟩

/-! ### A stream of paths (R198) -/

/-- Settles O44: UNPACK over the paths ends in success, and the end of the command changes neither OUT nor the registers. -/
theorem decodeOfPathsSucceeds : Obligations.DecodeOfPathsSucceeds := by
  intro s ps hready hne hpaths hcount hbits hstream
  have hlen : (ps.flatMap Prod.snd).length = s.bitCnt.toNat := by rw [← hstream, length_streamBits]
  have ⟨hsound, _, hroom, _⟩ := hready
  obtain ⟨u, hu, -, hrem, hpos, houtPos, -, hbytes⟩ :=
    unpack_paths 0 ps s hne hpaths hlen hbits hstream hcount hroom hready.wf_out
  have hexec : exec .decode s = .next (succeed (u.enter .idle)) :=
    (execDecode_of hsound).trans (by rw [decodeFrom_eq_unpack hready, hu, conclude_done])
  refine ⟨_, hexec, rfl, rfl, houtPos, hrem, hpos, fun i hi => (hbytes i).trans ?_, fun j hj => (hbytes j).trans ?_⟩
  · rw [if_pos (by omega), Nat.sub_zero, List.getD_eq_getElem _ _ hi]
  · rw [if_neg (by omega)]

/-! ### Where the decoder stops (R197) -/

/-- Where the decoder may stop, by cause, when it starts at `pos` with `rem` bits to consume and `n` bits before it. The
first two clauses bound what it consumed. -/
def State.StopsAt (s : State) (n : Nat) (pos : NodeIdx) (rem : Nat) (r : Decoded) : Prop :=
  r.rem ≤ rem ∧ rem ≤ r.rem + n ∧
  match r.cause with
  | .none => r.rem = 0 ∧ r.pos = s.root ∧ r.out.length = s.origLen.toNat
  | .count => r.rem = 0 ∧ r.pos = s.root ∧ r.out.length ≠ s.origLen.toNat
  | .trailing => r.rem = 0 ∧
      (rem = 0 ∧ r.pos = pos ∨ rem ≠ 0 ∧ r.pos ≠ absent ∧ (s.nodeAt r.pos).kind = .internal)
  | .noChild => r.rem < rem ∧ r.pos = absent
  | .overrun => r.rem < rem ∧ r.pos ≠ absent ∧ (s.nodeAt r.pos).kind = .leaf ∧ r.out.length = s.origLen.toNat
  | .exhaust => r.rem + n = rem ∧ (r.rem ≠ 0 ∨ r.pos ≠ s.root)
  | _ => False

/-- A bit that does not end the decode leaves the rest to go from the position `p` it leads to, an internal record where
it was the last one to consume. -/
theorem State.StopsAt.step {s : State} {n : Nat} {pos p : NodeIdx} {rem : Nat} {r : Decoded}
    (h : s.StopsAt n p (rem - 1) r) (hrem : rem ≠ 0)
    (hp : rem = 1 → p ≠ absent ∧ (s.nodeAt p).kind = .internal) : s.StopsAt (n + 1) pos rem r := by
  obtain ⟨hle, hn, hplace⟩ := h
  refine ⟨by omega, by omega, ?_⟩
  cases hc : r.cause <;> simp only [hc] at hplace ⊢
  case none | count => exact hplace
  case trailing =>
    obtain ⟨hzero, ⟨hlast, hpos⟩ | ⟨-, hinside⟩⟩ := hplace
    · exact ⟨hzero, .inr ⟨hrem, hpos ▸ hp (by omega)⟩⟩
    · exact ⟨hzero, .inr ⟨hrem, hinside⟩⟩
  case noChild | overrun => exact ⟨by omega, hplace.2⟩
  case exhaust => exact ⟨by omega, hplace.2⟩

theorem decodeBits_stopsAt (s : State) (bs : List Bool) : ∀ (pos : NodeIdx) (rem : Nat) (out : List Sym),
    s.StopsAt bs.length pos rem (s.decodeBits bs pos rem out) := by
  induction bs with
  | nil =>
    intro pos rem out
    rw [State.decodeBits]
    split_ifs with hopen hcount
    · exact ⟨Nat.le_refl _, Nat.le_refl _, rfl, hopen⟩
    · obtain ⟨rfl, rfl⟩ : rem = 0 ∧ pos = s.root := by simpa using hopen
      exact ⟨Nat.le_refl _, Nat.le_refl _, rfl, rfl, hcount⟩
    · obtain ⟨rfl, rfl⟩ : rem = 0 ∧ pos = s.root := by simpa using hopen
      exact ⟨Nat.le_refl _, Nat.le_refl _, rfl, rfl, hcount⟩
  | cons b bs ih =>
    intro pos rem out
    rw [State.decodeBits, List.length_cons]
    by_cases hrem : rem = 0
    · rw [if_pos hrem]
      exact ⟨Nat.zero_le _, by simp [hrem], rfl, .inl ⟨hrem, rfl⟩⟩
    have hlt : rem - 1 < rem := by omega
    have hused : rem ≤ rem - 1 + (bs.length + 1) := by omega
    by_cases hchild : s.child pos b = absent
    · rw [if_neg hrem, if_pos hchild]
      exact ⟨hlt.le, hused, hlt, rfl⟩
    rw [if_neg hrem, if_neg hchild]
    cases hkind : (s.nodeAt (s.child pos b)).kind with
    | internal => exact (ih _ _ _).step hrem fun _ => ⟨hchild, hkind⟩
    | leaf =>
      dsimp only
      split_ifs with hfull hlast hcount
      · exact ⟨hlt.le, hused, hlt, hchild, hkind, hfull⟩
      · exact ⟨Nat.zero_le _, by simp [hlast], rfl, rfl, by simpa using hcount⟩
      · exact ⟨Nat.zero_le _, by simp [hlast], rfl, rfl, by simpa using hcount⟩
      · exact (ih _ _ _).step hrem fun h => absurd h hlast

theorem decoded_stopsAt (s : State) : s.StopsAt (64 * s.wordCnt.toNat) s.root s.bitCnt.toNat s.decoded := by
  have h := decodeBits_stopsAt s (s.streamBits (64 * s.wordCnt.toNat)) s.root s.bitCnt.toNat []
  rwa [length_streamBits] at h

theorem exists_decodeAnswer {s t : State} (h : DecodeReady 0 s ∧ exec .decode s = .next t ∨
    DecodeReady s.outFill.toNat s ∧ exec .decodea s = .next t) : ∃ base, DecodeAnswer base s t := by
  rcases h with ⟨hready, ht⟩ | ⟨hready, ht⟩
  · obtain ⟨u, hu, hanswer⟩ := exec_decode_answer hready
    cases hu.symm.trans ht
    exact ⟨_, hanswer⟩
  · obtain ⟨u, hu, hanswer⟩ := exec_decodea_answer hready
    cases hu.symm.trans ht
    exact ⟨_, hanswer⟩

/-- Settles O43: the registers hold what `State.decoded` says, and that stops only where R197 has it. -/
theorem registersWhenDecodeEnds : Obligations.RegistersWhenDecodeEnds := by
  intro s t h
  obtain ⟨base, hanswer⟩ := exists_decodeAnswer h
  obtain ⟨hle, -, hplace⟩ := decoded_stopsAt s
  have hbound := hanswer.bound
  rw [← hanswer.rem] at hle hplace
  rw [← hanswer.cause, ← hanswer.pos, ← hanswer.count] at hplace
  rw [← hanswer.count] at hbound
  refine ⟨hanswer.cause ▸ decodeBits_cause s _ _ _ _, hle, fun hc => ?_, fun hc => ?_, fun hc => ?_, fun hc => ?_,
    fun hc => ?_, fun hc => ?_⟩ <;> rw [hc] at hplace
  · obtain ⟨hrem, hpos, hcount⟩ := hplace
    exact ⟨BitVec.eq_of_toNat_eq hrem, hpos, BitVec.eq_of_toNat_eq hcount⟩
  · obtain ⟨hrem, hpos, hcount⟩ := hplace
    exact ⟨BitVec.eq_of_toNat_eq hrem, hpos, BitVec.lt_def.2 (Nat.lt_of_le_of_ne hbound hcount)⟩
  · obtain ⟨hrem, hplace⟩ := hplace
    exact ⟨BitVec.eq_of_toNat_eq hrem, hplace.imp (And.imp_left BitVec.eq_of_toNat_eq)
      (And.imp_left fun hbits e => hbits (congrArg BitVec.toNat e))⟩
  · exact hplace
  · obtain ⟨hlt, hpos, hleaf, hcount⟩ := hplace
    exact ⟨hlt, hpos, hleaf, BitVec.eq_of_toNat_eq hcount⟩
  · obtain ⟨hrem, hopen⟩ := hplace
    exact ⟨hrem, hopen.imp_left fun hne e => hne (congrArg BitVec.toNat e)⟩

/-! ### Corner cases (R200) -/

theorem child_eq_absent {s : State} {p : NodeIdx} (h : p = absent ∨ (s.nodeAt p).kind = .leaf) (b : Bool) :
    s.child p b = absent := by
  rcases h with rfl | hleaf
  · rw [State.child, if_pos rfl]
  · rw [State.child, hleaf]
    exact ite_self absent

/-- With a word in the buffer there is a first bit. -/
theorem decoded_eq_cons {s : State} (h : s.wordCnt ≠ 0#34) :
    ∃ b bs, s.decoded = s.decodeBits (b :: bs) s.root s.bitCnt.toNat [] := by
  have hpos : 0 < (s.streamBits (64 * s.wordCnt.toNat)).length := by
    rw [length_streamBits]
    bv_omega
  obtain ⟨b, bs, hbits⟩ := List.exists_cons_of_length_pos hpos
  exact ⟨b, bs, by rw [State.decoded, hbits]⟩

/-- R200 (a): the first bit is a trailing one. -/
theorem decoded_of_no_bits {s : State} (hw : s.wordCnt ≠ 0#34) (hb : s.bitCnt = 0#40) :
    s.decoded = ⟨.trailing, [], 0, s.root⟩ := by
  obtain ⟨b, bs, h⟩ := decoded_eq_cons hw
  have hrem : s.bitCnt.toNat = 0 := congrArg BitVec.toNat hb
  rw [h, State.decodeBits, if_pos hrem]

/-- R200 (e): the first bit leads nowhere. -/
theorem decoded_of_no_tree {s : State} (hw : s.wordCnt ≠ 0#34) (hb : s.bitCnt ≠ 0#40)
    (hroot : s.root = absent ∨ (s.nodeAt s.root).kind = .leaf) :
    s.decoded = ⟨.noChild, [], s.bitCnt.toNat - 1, absent⟩ := by
  obtain ⟨b, bs, h⟩ := decoded_eq_cons hw
  have hrem : s.bitCnt.toNat ≠ 0 := fun e => hb (BitVec.eq_of_toNat_eq e)
  rw [h, State.decodeBits, if_neg hrem, if_pos (child_eq_absent hroot b)]

/-- R200 (c): the causes other than 2, 4 and 5 need all BITCNT bits consumed. -/
theorem decoded_cause_of_truncated {s : State} (h : 64 * s.wordCnt.toNat < s.bitCnt.toNat) :
    s.decoded.cause ∈ [Cause.exhaust, .noChild, .overrun] := by
  obtain ⟨-, hused, hplace⟩ := decoded_stopsAt s
  have hrem : s.decoded.rem ≠ 0 := by omega
  cases hc : s.decoded.cause <;> rw [hc] at hplace
  case exhaust | noChild | overrun => decide
  case none | count | trailing => exact absurd hplace.1 hrem
  all_goals exact hplace.elim

/-- A decode that emits nothing leaves OUT as it was. -/
theorem DecodeAnswer.out_eq {base : Nat} {s t : State} (h : DecodeAnswer base s t)
    (hwf : Store.wf unlisted.byte s.outCap.toNat s.out = true) (hnil : s.decoded.out = []) :
    t.outPos = 0#32 ∧ t.out = s.out := by
  have hzero : s.decoded.out.length = 0 := by rw [hnil, List.length_nil]
  exact ⟨BitVec.eq_of_toNat_eq (h.count.trans hzero),
    Store.ext_of_get h.wf hwf fun j => (h.bytes j).trans (if_neg (by omega))⟩

theorem DecodeAnswer.ok_eq_false {base : Nat} {s t : State} (h : DecodeAnswer base s t) (hc : t.cause ≠ .none) :
    t.ok = false := by
  rw [h.ok, ← h.cause, decide_eq_false hc]

/-- Settles O45: in the first two cases the first bit decides, in the third the buffer ends before REM is 0. -/
theorem decodeCornerCases : Obligations.DecodeCornerCases := by
  intro s hready hword
  obtain ⟨t, ht, hanswer⟩ := exec_decode_answer hready
  refine ⟨t, ht, fun hbits => ?_, fun hbits hroot => ?_, fun hshort => ?_⟩
  · have hd := decoded_of_no_bits hword hbits
    have hc : t.cause = .trailing := by rw [hanswer.cause, hd]
    exact ⟨hanswer.ok_eq_false (by simp [hc]), hc, hanswer.out_eq hready.wf_out (by rw [hd])⟩
  · have hd := decoded_of_no_tree hword hbits hroot
    have hc : t.cause = .noChild := by rw [hanswer.cause, hd]
    exact ⟨hanswer.ok_eq_false (by simp [hc]), hc, hanswer.out_eq hready.wf_out (by rw [hd])⟩
  · have hc : t.cause ∈ [Cause.exhaust, .noChild, .overrun] := hanswer.cause ▸ decoded_cause_of_truncated hshort
    exact ⟨hanswer.ok_eq_false (by rintro e; rw [e] at hc; simp at hc), hc⟩

end Sys2Proof.Machine

/-! ## Completion of ENCODE and what it leaves unchanged (R172, R211, R212)

ENCODE either stops at one of its checks, or runs its four phases; `execEncode_ready` says how these end. -/

namespace Sys2Proof.Machine

/-- The number of bits of an input depends on the tree and the table alone. -/
theorem bitsOf_congr {s t : State} (hnode : t.node = s.node) (hlut : t.lut = s.lut) (xs : List Sym) :
    bitsOf t xs = bitsOf s xs := by
  simp only [bitsOf, State.codeOf, State.nodeAt, State.lutAt, hnode, hlut]

theorem PackFrame.bitsOf_eq {f u : State} (h : PackFrame f u) (xs : List Sym) : bitsOf u xs = bitsOf f xs :=
  bitsOf_congr (by rw [h]) (by rw [h]) xs

/-- Settles O36: the words of the stream fit PACK exactly when its bits do, and each of the two ends of the phases has its
registers. -/
theorem encodeSucceedsExactlyWhenItFits : Obligations.EncodeSucceedsExactlyWhenItFits := by
  intro s hready
  obtain ⟨f, T, -, -, -, -, ⟨hfits, u, hu, -, hbuffer⟩ | ⟨hfull, u, hu, hpack, -⟩⟩ := execEncode_ready hready
  · obtain ⟨_, h⟩ := encodes_spec ⟨hready, hu, rfl⟩
    obtain ⟨hpresent, hok, hcause, -⟩ := h.flags
    have hbits : u.bitCnt.toNat = bitsOf (encodeSuccess u) s.input := h.bitCnt_eq_bitsOf
    rw [← hbuffer.bitCnt, hbits] at hfits
    exact ⟨_, hu, fun _ => ⟨hpresent, hok, hcause, h.orig, hbits, length_streamOf _ _ ▸ h.wordCnt⟩,
      fun hlong => by omega⟩
  · have hbits : bitsOf (encodeFailure u) s.input = bitsOf f s.input := hpack.bitsOf_eq s.input
    rw [length_streamOf, ← hbits] at hfull
    exact ⟨_, hu, fun hfits => by omega, fun _ => ⟨rfl, rfl, rfl, rfl, rfl, rfl, rfl⟩⟩

/-- ENCODE that does not reach its phases changes nothing but OK, CAUSE and SEQ (R249). -/
theorem exec_encode_of_not_ready {s t : State} (hm : Memory.wf s = true) (hready : ¬ EncodeReady s)
    (h : exec .encode s = .next t) : t = { s with ok := t.ok, cause := t.cause, seq := t.seq } := by
  by_cases hf : s.faulted = true
  · cases (exec_of_faulted hf .encode).symm.trans h
    rfl
  rw [Bool.not_eq_true] at hf
  by_cases hp : s.present = true
  · cases (execEncode_held hf hp).symm.trans h
    rfl
  rw [Bool.not_eq_true] at hp
  by_cases hlong : s.inCap < s.len
  · cases (execEncode_tooLong hf hp hlong).symm.trans h
    rfl
  by_cases hlen : s.len = 0#32
  · cases (execEncode_empty hf hp hlen).symm.trans h
    rfl
  · exact absurd ⟨hf, hp, hlen, BitVec.not_lt.1 hlong, hm⟩ hready

/-- The fields ENCODE may change (R212). -/
def EncodeFrame (s t : State) : Prop :=
  t = { s with present := t.present, ok := t.ok, cause := t.cause, origLen := t.origLen, bitCnt := t.bitCnt
               wordCnt := t.wordCnt, root := t.root, acc := t.acc, accCnt := t.accCnt, patReg := t.patReg
               depth := t.depth, wIdx := t.wIdx, inIdx := t.inIdx, nNode := t.nNode, seq := t.seq, queue := t.queue
               qHist := t.qHist, stack := t.stack, pack := t.pack, node := t.node, freq := t.freq, lut := t.lut }

theorem EncodeFrame.trans {s t u : State} (h : EncodeFrame s t) (h' : EncodeFrame t u) : EncodeFrame s u := by
  unfold EncodeFrame at *
  rw [h']
  rw [h]

theorem FrontFrame.encodeFrame {s f : State} (h : FrontFrame { s with lut := f.lut } f) : EncodeFrame s f := by
  unfold FrontFrame at h
  unfold EncodeFrame
  rw [h]

theorem PackDone.encodeFrame {f u : State} (h : PackDone f u) : EncodeFrame f u := by
  unfold PackDone at h
  unfold EncodeFrame
  rw [h]

theorem PackFrame.encodeFrame {f u : State} (h : PackFrame f u) : EncodeFrame f u := by
  unfold PackFrame at h
  unfold EncodeFrame
  rw [h]

/-- What ENCODE leaves unchanged when it runs its phases. -/
theorem exec_encode_frame {s t : State} (hready : EncodeReady s) (h : exec .encode s = .next t) :
    EncodeFrame s t ∧ ∀ n : NodeIdx, t.nNode.toNat ≤ n.toNat → t.nodeAt n = s.nodeAt n := by
  obtain ⟨f, T, hcoded, -, -, hfront, ⟨-, u, hu, hpack, -⟩ | ⟨-, u, hu, hpack, -⟩⟩ := execEncode_ready hready
  all_goals
    have hkeep : ∀ n : NodeIdx, u.nNode.toNat ≤ n.toNat → u.nodeAt n = s.nodeAt n := by
      rw [hpack]
      exact hcoded.keep
    cases hu.symm.trans h
    exact ⟨(hfront.encodeFrame.trans hpack.encodeFrame).trans rfl, hkeep⟩

/-- Settles O38: by whether ENCODE runs its phases; the words of PACK by the buffer of a successful one. -/
theorem encodeFrame : Obligations.EncodeFrame := by
  intro s t hm h
  by_cases hready : EncodeReady s
  · obtain ⟨hframe, hnode⟩ := exec_encode_frame hready h
    refine ⟨hframe, absurd hready, fun _ => ⟨hnode, fun hpresent i hi => ?_⟩⟩
    obtain ⟨_, henc⟩ := encodes_spec ⟨hready, h, hpresent⟩
    exact henc.keep i (henc.wordCnt ▸ hi)
  · have hframe := exec_encode_of_not_ready hm hready h
    exact ⟨by rw [hframe], fun _ => hframe, fun h => absurd h hready⟩

end Sys2Proof.Machine

/-! ## OLEN and RELEASE (R220 to R223) -/

namespace Sys2Proof.Machine

theorem exec_olen_of_present {s : State} (hf : s.faulted = false) (hp : s.present = true) :
    exec .olen s = .next (succeed { s with result := s.origLen }) :=
  (execOlen_of hf).trans (by rw [hp, if_pos rfl])

theorem exec_olen_of_absent {s : State} (hf : s.faulted = false) (hp : s.present = false) :
    exec .olen s = .next (succeed { s with result := 0#32 }) :=
  (execOlen_of hf).trans (by rw [hp, if_neg Bool.false_ne_true])

theorem exec_release_of_present {s : State} (hf : s.faulted = false) (hp : s.present = true) :
    exec .release s = .next (succeed (clearBlob s)) :=
  (execRelease_of hf).trans (by rw [if_pos hp])

theorem exec_release_of_absent {s : State} (hf : s.faulted = false) (hp : s.present = false) :
    exec .release s = .next (succeed s) :=
  (execRelease_of hf).trans (by rw [hp, if_neg Bool.false_ne_true])

theorem succeed_of_flags {t : State} (hok : t.ok = true) (hcause : t.cause = .none) : succeed t = t := by
  rw [succeed, ← hok, ← hcause]

/-- Settles O19: after ENCODE, ORIGLEN is LEN and the flags are those of success already. -/
theorem olenResult : Obligations.OlenResult := by
  refine ⟨decodeWord_encode .olen, fun s hf => ⟨exec_olen_of_present hf, exec_olen_of_absent hf⟩, fun s t henc => ?_⟩
  obtain ⟨_, h⟩ := encodes_spec henc
  obtain ⟨hpresent, hok, hcause, hf⟩ := h.flags
  rw [exec_olen_of_present hf hpresent, succeed_of_flags (t := { t with result := t.origLen }) hok hcause, h.orig]

/-- Settles O20, by whether a blob is held. -/
theorem releaseResult : Obligations.ReleaseResult :=
  ⟨decodeWord_encode .release, fun _ hf => ⟨exec_release_of_present hf, exec_release_of_absent hf⟩⟩

theorem exec_decode_absent {s : State} (hf : s.faulted = false) (hp : s.present = false) :
    exec .decode s = .next (succeed ((absentDecode s).enter .idle)) :=
  (execDecode_of hf).trans (by rw [decodeFrom_absent 0 hp, conclude_done])

theorem exec_decodea_absent {s : State} (hf : s.faulted = false) (hp : s.present = false) :
    exec .decodea s = .next (succeed ((absentDecode s).enter .idle)) :=
  (execDecodea_of_absent hf hp).trans (by rw [decodeFrom_absent _ hp, conclude_done])

/-- Whatever it starts from, RELEASE leaves no blob and the flags of success. -/
theorem absent_of_release {s t : State} (hf : s.faulted = false) (h : exec .release s = .next t) :
    t.faulted = false ∧ t.present = false ∧ succeed t = t := by
  cases hp : s.present with
  | true =>
    cases (exec_release_of_present hf hp).symm.trans h
    exact ⟨hf, rfl, rfl⟩
  | false =>
    cases (exec_release_of_absent hf hp).symm.trans h
    exact ⟨hf, hp, rfl⟩

/-- Settles O21: RELEASE leaves the absent blob, on which each of the four commands takes its short way. -/
theorem afterRelease : Obligations.AfterRelease := by
  intro s t hs h
  obtain ⟨hf, hp, hflags⟩ := absent_of_release hs h
  refine ⟨?_, ?_, fun i hi => ⟨succeed ((absentDecode t).enter .idle), ?_, rfl, rfl, rfl, rfl⟩⟩
  · rw [exec_release_of_absent hf hp, hflags]
  · rw [exec_olen_of_absent hf hp]
    exact congrArg (fun v : State => Host.Outcome.next { v with result := 0#32 }) hflags
  · obtain rfl | rfl : i = .decode ∨ i = .decodea := by simpa using hi
    · exact exec_decode_absent hf hp
    · exact exec_decodea_absent hf hp

end Sys2Proof.Machine

/-! ## DECODE and DECODEA in full (R213 to R216)

Both run UNPACK, which ends as `State.decoded` says; the state they answer is written out once, and the two commands differ in
where the symbols go and in OUTFILL. -/

namespace Sys2Proof.Machine

/-- The state DECODE answers when UNPACK ran on `s` and left OUT and the shifter's registers as in `u`. -/
def decodedState (s u : State) : State :=
  { s with ok := decide (s.decoded.cause = .none), cause := s.decoded.cause, rem := BitVec.ofNat 40 s.decoded.rem
           outPos := BitVec.ofNat 32 s.decoded.out.length, pos := s.decoded.pos, seq := .idle, out := u.out
           shReg := u.shReg, bitIdx := u.bitIdx, wIdx := u.wIdx }

theorem eq_ofNat_of_toNat_eq {w n : Nat} {x : BitVec w} (h : x.toNat = n) : x = BitVec.ofNat w n := by
  rw [← h, BitVec.ofNat_toNat, BitVec.setWidth_eq]

/-- The end of a decode that ran UNPACK. -/
theorem EndsAs.exists_decodedState {base : Nat} {s : State} {x : Flow} (h : EndsAs base s s.decoded x) :
    ∃ e u, x = .stop e u ∧ Emitting base s s.decoded.out u ∧ conclude x = .next (decodedState s u) := by
  obtain ⟨u, rfl, hemit, hrem, hpos⟩ := h
  refine ⟨_, u, rfl, hemit, (conclude_decoded _ u).trans (congrArg _ ?_)⟩
  have hframe : u = { s with out := u.out, rem := u.rem, pos := u.pos, outPos := u.outPos, shReg := u.shReg
                             bitIdx := u.bitIdx, wIdx := u.wIdx, seq := u.seq } := hemit.frame
  rw [decodedState, ← hpos, ← eq_ofNat_of_toNat_eq hrem, ← eq_ofNat_of_toNat_eq hemit.count, hframe]

/-- DECODEA adds to a decode that has ended the advance of OUTFILL, on success only (R215). -/
theorem conclude_advanceFill_stop {e : Ending} {u t : State} (h : conclude (.stop e u) = .next t) :
    conclude (advanceFill (.stop e u)) =
      .next { t with outFill := if t.ok = true then u.outFill + u.origLen else u.outFill } := by
  cases e with
  | undef r => cases h
  | done | refuse c | fail c | fatal f => cases h; rfl

/-! ### The refusals (R249) -/

theorem exec_decode_outCap {s : State} (hf : s.faulted = false) (hp : s.present = true) (ho : s.outCap < s.origLen) :
    exec .decode s = .next (report .outCap s) := by
  have hroom : s.outCap.toNat < 0 + s.origLen.toNat := (Nat.zero_add _).symm ▸ ho
  exact (execDecode_of hf).trans (by rw [decodeFrom_outCap hp hroom, conclude_refuse])

theorem exec_decode_packCap {s : State} (hf : s.faulted = false) (hp : s.present = true) (ho : s.origLen ≤ s.outCap)
    (hc : s.packCap < s.wordCnt) : exec .decode s = .next (report .packCap s) := by
  have hroom : 0 + s.origLen.toNat ≤ s.outCap.toNat := (Nat.zero_add _).symm ▸ ho
  exact (execDecode_of hf).trans (by rw [decodeFrom_packCap hp hroom hc, conclude_refuse])

@[simp] theorem advanceFill_refuse (c : Cause) (s : State) :
    advanceFill (.stop (.refuse c) s) = .stop (.refuse c) s := rfl

theorem exec_decodea_outCap {s : State} (hf : s.faulted = false) (hp : s.present = true)
    (ho : s.outCap.toNat < s.outFill.toNat + s.origLen.toNat) : exec .decodea s = .next (report .outCap s) :=
  (execDecodea_of_present hf hp).trans (by rw [decodeFrom_outCap hp ho, advanceFill_refuse, conclude_refuse])

theorem exec_decodea_packCap {s : State} (hf : s.faulted = false) (hp : s.present = true)
    (ho : s.outFill.toNat + s.origLen.toNat ≤ s.outCap.toNat) (hc : s.packCap < s.wordCnt) :
    exec .decodea s = .next (report .packCap s) :=
  (execDecodea_of_present hf hp).trans (by rw [decodeFrom_packCap hp ho hc, advanceFill_refuse, conclude_refuse])

/-! ### The decodes that run UNPACK (R187, R189) -/

theorem exec_decode_ready {s : State} (h : DecodeReady 0 s) :
    ∃ u, exec .decode s = .next (decodedState s u) ∧ Emitting 0 s s.decoded.out u := by
  obtain ⟨_, u, -, hemit, hend⟩ := (decodeFrom_ready h).exists_decodedState
  obtain ⟨hf, -⟩ := h
  exact ⟨u, (execDecode_of hf).trans hend, hemit⟩

theorem exec_decodea_ready {s : State} (h : DecodeReady s.outFill.toNat s) :
    ∃ u, exec .decodea s = .next { decodedState s u with
          outFill := if s.decoded.cause = .none then s.outFill + s.origLen else s.outFill } ∧
      Emitting s.outFill.toNat s s.decoded.out u := by
  obtain ⟨e, u, hx, hemit, hend⟩ := (decodeFrom_ready h).exists_decodedState
  obtain ⟨hf, hp, -⟩ := h
  refine ⟨u, (execDecodea_of_present hf hp).trans ?_, hemit⟩
  have hfill : u.outFill = s.outFill := by rw [hemit.frame]
  rw [hx] at hend ⊢
  rw [conclude_advanceFill_stop hend, hfill, hemit.frame.origLen_eq]
  simp only [decodedState, decide_eq_true_eq]

/-- Settles O41: one clause for each check of R213, the last by the bits. -/
theorem decodeDoesWhatTheBitsSay : Obligations.DecodeDoesWhatTheBitsSay := by
  refine ⟨decodeWord_encode .decode, fun s hf _ => ⟨exec_decode_absent hf, exec_decode_outCap hf,
    exec_decode_packCap hf, fun hready => ?_⟩⟩
  obtain ⟨u, hu, hemit⟩ := exec_decode_ready hready
  refine ⟨_, hu, rfl, fun j => (hemit.bytes j).trans ?_⟩
  simp only [Nat.zero_le, true_and, Nat.zero_add, Nat.sub_zero]

/-- Settles O42: as DECODE; OUTFILL + ORIGLEN does not wrap, since it is at most OUT_CAP. -/
theorem decodeaAppends : Obligations.DecodeaAppends := by
  refine ⟨decodeWord_encode .decodea, fun s hf _ => ⟨exec_decodea_absent hf, exec_decodea_outCap hf,
    exec_decodea_packCap hf, fun hready => ?_⟩⟩
  obtain ⟨u, hu, hemit⟩ := exec_decodea_ready hready
  refine ⟨_, hu, rfl, ?_, hemit.bytes⟩
  have hroom := hemit.room
  have hcap := s.outCap.isLt
  by_cases hc : s.decoded.cause = .none
  · simp only [if_pos hc, BitVec.toNat_add]
    exact Nat.mod_eq_of_lt (by omega)
  · simp only [if_neg hc, Nat.add_zero]

/-! ### DECODE repeated (R214) -/

/-- The decoder on a list of bits reads the tree, ROOT and ORIGLEN alone. -/
theorem decodeBits_congr {s t : State} (hnode : t.node = s.node) (hroot : t.root = s.root)
    (horig : t.origLen = s.origLen) (bs : List Bool) (pos : NodeIdx) (rem : Nat) (out : List Sym) :
    t.decodeBits bs pos rem out = s.decodeBits bs pos rem out := by
  have hrec : t.nodeAt = s.nodeAt := by funext n; rw [State.nodeAt, State.nodeAt, hnode]
  have hchild : t.child = s.child := by funext p b; rw [State.child, State.child, hrec]
  induction bs generalizing pos rem out with
  | nil => simp only [State.decodeBits, hroot, horig]
  | cons b bs ih => simp only [State.decodeBits, hrec, hchild, hroot, horig, ih]

/-- A decode changes nothing the decoder reads. -/
theorem decoded_decodedState (s u : State) : (decodedState s u).decoded = s.decoded :=
  decodeBits_congr (s := s) (t := decodedState s u) rfl rfl rfl _ _ _ _

theorem DecodeReady.after_decode {s u : State} (h : DecodeReady 0 s) (hu : exec .decode s = .next (decodedState s u)) :
    DecodeReady 0 (decodedState s u) := by
  obtain ⟨hf, hp, hroom, hpack, hm⟩ := h
  obtain ⟨v, hv, hpost⟩ := exec_post .decode s hm hf
  cases hv.symm.trans hu
  exact ⟨hf, hp, hroom, hpack, hpost.wf⟩

/-- Settles O47: the second DECODE emits the same symbols, into an OUT that holds them already. -/
theorem decodeMayBeRepeated : Obligations.DecodeMayBeRepeated := by
  intro s t hready h
  obtain ⟨u, hu, hemit⟩ := exec_decode_ready hready
  cases hu.symm.trans h
  obtain ⟨v, hv, hemit'⟩ := exec_decode_ready (hready.after_decode hu)
  have hdecoded := decoded_decodedState s u
  have hout : v.out = u.out := Store.ext_of_get hemit'.wf hemit.wf fun j => by
    have hbyte := hemit'.bytes j
    rw [hdecoded] at hbyte
    refine hbyte.trans ?_
    split_ifs with hj
    · exact (hemit.bytes j).trans (if_pos hj) |>.symm
    · rfl
  refine ⟨_, hv, ?_⟩
  rw [decodedState, hdecoded, hout]
  rfl

/-! ### DECODEA from OUTFILL = 0 (R216)

Here the stores need not be in canonical form, so what UNPACK leaves unchanged is followed through its loops. -/

theorem unpackStep_frame (base i : Nat) (s : State) :
    (unpackStep base i s).Sat (DecodeFrame s) (fun _ => DecodeFrame s) := by
  have hshift : DecodeFrame s { s with bitIdx := BitVec.ofNat 6 i, shReg := s.shReg <<< 1 } := rfl
  exact (unpackBit_frame _ base _).mono (fun _ => hshift.trans) (fun _ _ => hshift.trans)

theorem loopFlow_frame {f : Nat → State → Flow} (hf : ∀ i s, (f i s).Sat (DecodeFrame s) (fun _ => DecodeFrame s))
    (n a : Nat) {s t : State} (h : DecodeFrame s t) :
    (loopFlow n a f t).Sat (DecodeFrame s) (fun _ => DecodeFrame s) :=
  sat_loopFlow (fun _ => DecodeFrame s) n a
    (fun i v _ _ hv => (hf i v).mono (fun _ => hv.trans) (fun _ _ => hv.trans)) t h

theorem unpackWord_frame (base w : Nat) (s : State) :
    (unpackWord base w s).Sat (DecodeFrame s) (fun _ => DecodeFrame s) := by
  have hload : DecodeFrame s { s with wIdx := BitVec.ofNat 34 w, shReg := s.packAt w } := rfl
  exact (loopFlow_frame (unpackStep_frame base) 64 0 hload).andThen fun _ h => h.trans rfl

theorem unpackExhaust_frame (s : State) : (unpackExhaust s).Sat (fun _ => False) (fun _ => DecodeFrame s) := by
  unfold unpackExhaust
  split_ifs <;> exact decodeFrame_enter .unpackExhaust s

/-- UNPACK ends the command itself, and never writes outside its frame. -/
theorem unpack_frame (base : Nat) (s : State) : (unpack base s).Sat (fun _ => False) (fun _ => DecodeFrame s) := by
  have hinit : DecodeFrame s { unpackInit s with wIdx := 0#34 } := rfl
  exact (loopFlow_frame (unpackWord_frame base) s.wordCnt.toNat 0 hinit).andThen fun t h =>
    (unpackExhaust_frame t).mono (fun _ => id) (fun _ _ => h.trans)

theorem decodeFrom_frame (base : Nat) (s : State) :
    (decodeFrom base s).Sat (fun _ => False) (fun _ => DecodeFrame s) := by
  unfold decodeFrom
  split_ifs
  · exact id (α := DecodeFrame _ _) rfl
  · exact DecodeFrame.refl s
  · exact DecodeFrame.refl s
  · exact unpack_frame base s

theorem decodeFrom_eq_stop (base : Nat) (s : State) : ∃ e u, decodeFrom base s = .stop e u ∧ DecodeFrame s u := by
  have h := decodeFrom_frame base s
  cases hx : decodeFrom base s with
  | go u => rw [hx] at h; exact h.elim
  | stop e u => rw [hx] at h; exact ⟨e, u, rfl, h⟩

theorem outFill_of_conclude {e : Ending} {u t : State} (h : conclude (.stop e u) = .next t) : t.outFill = u.outFill := by
  cases e with
  | undef r => cases h
  | done | refuse c | fail c | fatal f => cases h; rfl

/-- Settles O48: both commands run the same checks and the same UNPACK; only DECODEA advances OUTFILL. -/
theorem decodeaFromZeroIsDecode : Obligations.DecodeaFromZeroIsDecode := by
  intro s t hf h
  obtain ⟨e, u, hx, hframe⟩ := decodeFrom_eq_stop 0 s
  have hend : conclude (.stop e u) = .next t := by rw [← hx, ← execDecode_of hf]; exact h
  have hfill : u.outFill = s.outFill := by rw [hframe]
  have hkept : t.outFill = s.outFill := (outFill_of_conclude hend).trans hfill
  refine ⟨hkept, fun hzero => ?_⟩
  have hbase : decodeFrom s.outFill.toNat s = .stop e u := by rw [hzero]; exact hx
  show execDecodea s = _
  cases hp : s.present with
  | true =>
    rw [execDecodea_of_present hf hp, hbase, conclude_advanceFill_stop hend, hfill, hzero, hframe.origLen_eq,
      BitVec.zero_add]
    simp only [true_and]
  | false =>
    rw [execDecodea_of_absent hf hp, hbase, hend, if_neg (by simp), ← hzero, ← hkept]

/-! ### The input side (R97, R214, R277)

DECODE, DECODEA, OLEN and RELEASE are followed on a machine whose input side was exchanged: every piece of them does what it does
on the machine itself. -/

/-- The machine with IN, FREQ, LUT, LEN and the queue discipline of another. -/
def withInput (o s : State) : State :=
  { s with inp := o.inp, freq := o.freq, lut := o.lut, len := o.len, tie := o.tie }

/-- A piece of a command with the state it leaves changed. -/
def Flow.map (F : State → State) : Flow → Flow
  | .go s => .go (F s)
  | .stop e s => .stop e (F s)

theorem Flow.map_andThen {F : State → State} {f : State → Flow} (hf : ∀ s, f (F s) = (f s).map F) (x : Flow) :
    (x.map F).andThen f = (x.andThen f).map F := by
  cases x with
  | go s => exact hf s
  | stop e s => rfl

theorem loopFlow_map {F : State → State} {f : Nat → State → Flow} (hf : ∀ i s, f i (F s) = (f i s).map F) (n a : Nat)
    (s : State) : loopFlow n a f (F s) = (loopFlow n a f s).map F := by
  induction n generalizing a s with
  | zero => rfl
  | succ n ih => rw [loopFlow_succ, loopFlow_succ, hf, Flow.map_andThen (ih (a + 1))]

section
variable (o : State)

theorem unpackLeaf_withInput (base : Nat) (s : State) :
    unpackLeaf base (withInput o s) = (unpackLeaf base s).map (withInput o) := by
  unfold unpackLeaf
  simp only [apply_ite (Flow.map (withInput o))]
  rfl

theorem unpackArrive_withInput (base : Nat) (s : State) :
    unpackArrive base (withInput o s) = (unpackArrive base s).map (withInput o) := by
  have hpos : (withInput o s).pos = s.pos := rfl
  have hrec : (withInput o s).nodeAt s.pos = s.nodeAt s.pos := rfl
  rw [unpackArrive, unpackArrive, hpos, hrec]
  by_cases habsent : s.pos = absent
  · rw [if_pos habsent, if_pos habsent]
    rfl
  rw [if_neg habsent, if_neg habsent]
  cases (s.nodeAt s.pos).kind with
  | leaf => exact unpackLeaf_withInput o base s
  | internal => rfl

theorem unpackBit_withInput (b : Bool) (base : Nat) (s : State) :
    unpackBit b base (withInput o s) = (unpackBit b base s).map (withInput o) := by
  unfold unpackBit
  simp only [apply_ite (Flow.map (withInput o)), ← unpackArrive_withInput]
  rfl

theorem unpackStep_withInput (base i : Nat) (s : State) :
    unpackStep base i (withInput o s) = (unpackStep base i s).map (withInput o) :=
  unpackBit_withInput o s.shReg.msb base { s with bitIdx := BitVec.ofNat 6 i, shReg := s.shReg <<< 1 }

theorem unpackWord_withInput (base w : Nat) (s : State) :
    unpackWord base w (withInput o s) = (unpackWord base w s).map (withInput o) := by
  have hloop := loopFlow_map (unpackStep_withInput o base) 64 0
    { s with wIdx := BitVec.ofNat 34 w, shReg := s.packAt w }
  exact (congrArg (Flow.andThen · _) hloop).trans (Flow.map_andThen (fun _ => rfl) _)

theorem unpackExhaust_withInput (s : State) :
    unpackExhaust (withInput o s) = (unpackExhaust s).map (withInput o) := by
  unfold unpackExhaust
  simp only [apply_ite (Flow.map (withInput o))]
  rfl

theorem unpack_withInput (base : Nat) (s : State) :
    unpack base (withInput o s) = (unpack base s).map (withInput o) := by
  have hloop := loopFlow_map (unpackWord_withInput o base) s.wordCnt.toNat 0 { unpackInit s with wIdx := 0#34 }
  exact (congrArg (Flow.andThen · _) hloop).trans (Flow.map_andThen (unpackExhaust_withInput o) _)

theorem decodeFrom_withInput (base : Nat) (s : State) :
    decodeFrom base (withInput o s) = (decodeFrom base s).map (withInput o) := by
  unfold decodeFrom
  simp only [apply_ite (Flow.map (withInput o)), ← unpack_withInput]
  rfl

theorem advanceFill_withInput (x : Flow) :
    advanceFill (x.map (withInput o)) = (advanceFill x).map (withInput o) := by
  cases x with
  | go s => rfl
  | stop e s => cases e <;> rfl

theorem decodeaBody_withInput (s : State) :
    decodeaBody (withInput o s) = (decodeaBody s).map (withInput o) := by
  unfold decodeaBody
  simp only [apply_ite (Flow.map (withInput o)), ← advanceFill_withInput, ← decodeFrom_withInput]
  rfl

theorem conclude_withInput {x : Flow} {t : State} (h : conclude x = .next t) :
    conclude (x.map (withInput o)) = .next (withInput o t) := by
  cases x with
  | go s => cases h; rfl
  | stop e s =>
    cases e with
    | undef r => cases h
    | done | refuse c | fail c | fatal f => cases h; rfl

theorem accept_withInput {run : State → Result} {s t : State}
    (hrun : run s = .next t → run (withInput o s) = .next (withInput o t)) (h : accept s run = .next t) :
    accept (withInput o s) run = .next (withInput o t) := by
  cases hf : s.faulted with
  | true =>
    rw [accept_of_faulted hf] at h
    cases h
    exact accept_of_faulted (s := withInput o s) hf run
  | false =>
    exact (accept_of_ready (s := withInput o s) hf run).trans (hrun ((accept_of_ready hf run).symm.trans h))

theorem accept_conclude_withInput {body : State → Flow}
    (hbody : ∀ s, body (withInput o s) = (body s).map (withInput o)) {s t : State}
    (h : accept s (fun u => conclude (body u)) = .next t) :
    accept (withInput o s) (fun u => conclude (body u)) = .next (withInput o t) :=
  accept_withInput o (fun h => (congrArg conclude (hbody s)).trans (conclude_withInput o h)) h

theorem execOlen_withInput {s t : State} (h : execOlen s = .next t) :
    execOlen (withInput o s) = .next (withInput o t) :=
  accept_withInput o (fun h => by cases h; rfl) h

theorem execRelease_withInput {s t : State} (h : execRelease s = .next t) :
    execRelease (withInput o s) = .next (withInput o t) := by
  have hdrop : (if (withInput o s).present then clearBlob (withInput o s) else withInput o s) =
      withInput o (if s.present then clearBlob s else s) := by
    rw [apply_ite (withInput o)]
    rfl
  refine accept_withInput o (fun h => ?_) h
  cases h
  exact congrArg (fun u => Host.Outcome.next (succeed u)) hdrop

theorem exec_withInput {i : Instr} (hi : i ≠ .encode) {s t : State} (h : exec i s = .next t) :
    exec i (withInput o s) = .next (withInput o t) := by
  cases i with
  | encode => exact absurd rfl hi
  | decode => exact accept_conclude_withInput o (decodeFrom_withInput o 0) h
  | decodea => exact accept_conclude_withInput o (decodeaBody_withInput o) h
  | olen => exact execOlen_withInput o h
  | release => exact execRelease_withInput o h

end

/-- Settles O49: exchanging the input side commutes with every command but ENCODE. -/
theorem otherCommandsIgnoreTheInput : Obligations.OtherCommandsIgnoreTheInput := by
  intro i hi s t inp freq lut len tie h
  have hne : i ≠ .encode := by
    rintro rfl
    simp at hi
  exact exec_withInput { s with inp := inp, freq := freq, lut := lut, len := len, tie := tie } hne h

end Sys2Proof.Machine

/-! ## The blob's lifecycle (R227)

Who sets PRESENT, and who clears it: first among the commands, then among the words written to CMD, then among the writes of the
host, then among its actions. -/

namespace Sys2Proof.Machine

/-! ### Commands and command words -/

/-- Where no blob is held, only ENCODE makes one, and only when it succeeds on a non-empty input. -/
theorem present_after_exec_of_absent {i : Instr} {s t : State} (hm : Memory.wf s = true) (hf : s.faulted = false)
    (hp : s.present = false) (h : exec i s = .next t) :
    t.present = true ↔ i = .encode ∧ t.ok = true ∧ s.len ≠ 0#32 := by
  by_cases hi : i = .encode
  case neg =>
    obtain ⟨hkept, -⟩ := onlyEncodeAndReleaseWriteTheBlob i s t h (.inl hi) (.inr hp)
    simp [hkept, hp, hi]
  subst hi
  by_cases hlen : s.len = 0#32
  · cases (execEncode_empty hf hp hlen).symm.trans h
    simp [hp, hlen]
  by_cases hlong : s.inCap < s.len
  · cases (execEncode_tooLong hf hp hlong).symm.trans h
    simp [hp]
  obtain ⟨_, _, -, -, -, -, ⟨-, u, hu, -⟩ | ⟨-, u, hu, -⟩⟩ :=
    execEncode_ready ⟨hf, hp, hlen, BitVec.not_lt.1 hlong, hm⟩
  · cases hu.symm.trans h
    exact iff_of_true rfl ⟨rfl, rfl, hlen⟩
  · cases hu.symm.trans h
    exact iff_of_false nofun nofun

/-- Where a blob is held, only RELEASE drops it. -/
theorem present_after_exec_of_held {i : Instr} {s t : State} (hf : s.faulted = false) (hp : s.present = true)
    (h : exec i s = .next t) : t.present = false ↔ i = .release := by
  by_cases hi : i = .release
  · subst hi
    cases (exec_release_of_present hf hp).symm.trans h
    exact iff_of_true rfl rfl
  · obtain ⟨hkept, -⟩ := onlyEncodeAndReleaseWriteTheBlob i s t h (.inr hp) (.inl hi)
    simp [hkept, hp, hi]

/-- A word written to CMD is the word of a command, which runs, or of none, and then PRESENT stays. -/
theorem commandWrite_cases {w : CmdWord} {s t : State} (hf : s.faulted = false) (h : commandWrite w s = .next t) :
    (∃ i, w = encode i ∧ exec i s = .next t) ∨ ((∀ i, w ≠ encode i) ∧ t.present = s.present) := by
  by_cases hw : ∃ i, w = encode i
  · obtain ⟨i, rfl⟩ := hw
    exact .inl ⟨i, rfl, (commandWrite_of_decodeWord (decodeWord_encode i) s).symm.trans h⟩
  · have hne : ∀ i, w ≠ encode i := fun i hi => hw ⟨i, hi⟩
    cases (commandWrite_of_not_command hf fun i hd => hne i ((decodeWord_eq_ok_iff w i).1 hd)).symm.trans h
    exact .inr ⟨hne, rfl⟩

theorem encode_injective : Function.Injective encode := fun i j h =>
  Except.ok.inj ((decodeWord_encode i).symm.trans (h ▸ decodeWord_encode j))

theorem present_after_commandWrite_of_absent {w : CmdWord} {s t : State} (hm : Memory.wf s = true)
    (hf : s.faulted = false) (hp : s.present = false) (h : commandWrite w s = .next t) :
    t.present = true ↔ w = encode .encode ∧ t.ok = true ∧ s.len ≠ 0#32 := by
  obtain ⟨i, rfl, hexec⟩ | ⟨hne, hkept⟩ := commandWrite_cases hf h
  · rw [present_after_exec_of_absent hm hf hp hexec, encode_injective.eq_iff]
  · simp [hkept, hp, hne]

theorem present_after_commandWrite_of_held {w : CmdWord} {s t : State} (hf : s.faulted = false)
    (hp : s.present = true) (h : commandWrite w s = .next t) : t.present = false ↔ w = encode .release := by
  obtain ⟨i, rfl, hexec⟩ | ⟨hne, hkept⟩ := commandWrite_cases hf h
  · rw [present_after_exec_of_held hf hp hexec, encode_injective.eq_iff]
  · simp [hkept, hp, hne]

/-! ### Writes of the host -/

theorem Csr.ofNumber_eq_cmd_iff (n : Nat) : Csr.ofNumber n = some .cmd ↔ n = 1 := by
  unfold Csr.ofNumber
  split <;> grind

theorem Csr.ofNumber_eq_blobCtl_iff (n : Nat) : Csr.ofNumber n = some .blobCtl ↔ n = 8 := by
  unfold Csr.ofNumber
  split <;> grind

/-- A register stands in space 0 at its number. -/
theorem element_eq_csr_iff (s : State) (space index : Nat) (r : Csr) :
    s.element space index = some (.csr r) ↔ space = 0 ∧ Csr.ofNumber index = some r := by
  match space with
  | 0 => simp [State.element]
  | 1 | 2 | 3 | 4 | 5 | 6 | _ + 7 => simp [State.element]

theorem present_store {e : Element} (h : e ≠ .csr .blobCtl) (s : State) (v : Nat) :
    (s.store e v).present = s.present := by
  cases e with
  | csr r =>
    cases r with
    | blobCtl => exact absurd rfl h
    | id | cmd | status | len | origLen | bitCnt | wordCnt | root | outFill | result | rem | outPos | pos => rfl
  | inp i | out i | pack i | node n f | freq i | lut i => rfl

/-- What a write of the host does to PRESENT: it writes CMD, or BLOBCTL, or anything else, and then PRESENT stays. -/
theorem hostWrite_cases {space index v : Nat} {s t : State} (h : hostWrite space index v s = .next t) :
    (space = 0 ∧ index = 1 ∧ v < 2 ^ 32 ∧ commandWrite (BitVec.ofNat 32 v) s = .next t) ∨
    (space = 0 ∧ index = 8 ∧ v < 2 ∧ t.present = decide (v = 1)) ∨
    (¬ (space = 0 ∧ (index = 1 ∨ index = 8)) ∧ t.present = s.present) := by
  cases he : s.element space index with
  | none =>
    cases (hostWrite_of_element_none he v).symm.trans h
    refine .inr (.inr ⟨?_, rfl⟩)
    rintro ⟨rfl, rfl | rfl⟩ <;> cases he
  | some e =>
    by_cases hv : v < 2 ^ e.width
    case neg => cases (tooWideValueRefused s space index v e he (Nat.not_lt.1 hv)).symm.trans h
    by_cases hcmd : e = .csr .cmd
    · subst hcmd
      obtain ⟨rfl, hn⟩ := (element_eq_csr_iff s space index .cmd).1 he
      exact .inl ⟨rfl, (Csr.ofNumber_eq_cmd_iff index).1 hn, hv, (hostWrite_eq_writeElement he hv).symm.trans h⟩
    cases (hostWrite_eq_store he hcmd hv).symm.trans h
    by_cases hblob : e = .csr .blobCtl
    · subst hblob
      obtain ⟨rfl, hn⟩ := (element_eq_csr_iff s space index .blobCtl).1 he
      exact .inr (.inl ⟨rfl, (Csr.ofNumber_eq_blobCtl_iff index).1 hn, hv, by rw [store_blobCtl hv]⟩)
    · refine .inr (.inr ⟨?_, present_store hblob s v⟩)
      rintro ⟨rfl, rfl | rfl⟩
      · exact hcmd (Option.some.inj he).symm
      · exact hblob (Option.some.inj he).symm

theorem ofNat_eq_encode_iff {v : Nat} (hv : v < 2 ^ 32) (i : Instr) :
    BitVec.ofNat 32 v = encode i ↔ v = (encode i).toNat := by
  rw [← BitVec.toNat_inj, BitVec.toNat_ofNat, Nat.mod_eq_of_lt hv]

/-! ### Actions and steps -/

theorem present_after_act_of_absent {a : HostAction} {s t : State} (hm : Memory.wf s = true) (hf : s.faulted = false)
    (hp : s.present = false) (h : act a s = .next t) :
    t.present = true ↔ a = .write 0 1 1 ∧ t.ok = true ∧ s.len ≠ 0#32 ∨ a = .write 0 8 1 := by
  cases a with
  | read space index =>
    cases h
    simp [hp]
  | reset =>
    cases h
    exact iff_of_false nofun nofun
  | write space index v =>
    rcases hostWrite_cases h with ⟨rfl, rfl, hv, hcmd⟩ | ⟨rfl, rfl, hv, hset⟩ | ⟨hother, hkept⟩
    · rw [present_after_commandWrite_of_absent hm hf hp hcmd, ofNat_eq_encode_iff hv]
      simp [encode]
    · simp [hset]
    · rw [hkept, hp]
      refine iff_of_false nofun ?_
      rintro (⟨hwrite, -⟩ | hwrite) <;> cases hwrite
      · exact hother ⟨rfl, .inl rfl⟩
      · exact hother ⟨rfl, .inr rfl⟩

theorem present_after_act_of_held {a : HostAction} {s t : State} (hf : s.faulted = false) (hp : s.present = true)
    (h : act a s = .next t) :
    t.present = false ↔ a = .write 0 1 5 ∨ a = .write 0 8 0 ∨ a = .reset := by
  cases a with
  | read space index =>
    cases h
    simp [hp]
  | reset =>
    cases h
    exact iff_of_true rfl (.inr (.inr rfl))
  | write space index v =>
    rcases hostWrite_cases h with ⟨rfl, rfl, hv, hcmd⟩ | ⟨rfl, rfl, hv, hset⟩ | ⟨hother, hkept⟩
    · rw [present_after_commandWrite_of_held hf hp hcmd, ofNat_eq_encode_iff hv]
      simp [encode]
    · have hzero : v ≠ 1 ↔ v = 0 := by omega
      simp [hset, hzero]
    · rw [hkept, hp]
      refine iff_of_false nofun ?_
      rintro (hwrite | hwrite | hwrite) <;> cases hwrite
      · exact hother ⟨rfl, .inl rfl⟩
      · exact hother ⟨rfl, .inr rfl⟩

/-- Settles O54: the step takes one action, and the action says what becomes of PRESENT. -/
theorem blobLifecycle : Obligations.BlobLifecycle := by
  intro s t hinv h
  cases hscript : s.script with
  | nil =>
    cases (step_of_script_nil hscript).symm.trans h
    exact ⟨fun hp => by simp [hp], fun hp => by simp [hp]⟩
  | cons a rest =>
    have hact : act a { s with script := rest } = .next t := (step_of_script_cons hscript).symm.trans h
    refine ⟨fun hp => ?_, fun hp => ?_⟩
    · rw [present_after_act_of_absent (s := { s with script := rest }) hinv.memory hinv.sound hp hact]
      simp
    · rw [present_after_act_of_held (s := { s with script := rest }) hinv.sound hp hact]
      simp

end Sys2Proof.Machine

/-! ## Codes in order (R233, R236) -/

namespace Sys2Proof.Machine

/-! ### No code begins another (R233) -/

/-- A pattern shifted right by `d` keeps the first bits of its code. -/
theorem patBits_ushiftRight_prefix (n d : Nat) (p : Pattern) : patBits n (p >>> d) <+: patBits (n + d) p := by
  induction n with
  | zero => exact List.nil_prefix
  | succ n ih =>
    have hbit : (p >>> d).getLsbD n = p.getLsbD (n + d) := by rw [BitVec.getLsbD_ushiftRight, Nat.add_comm]
    rw [Nat.add_right_comm, patBits, patBits, hbit, List.prefix_cons_inj]
    exact ih

/-- The code of an input symbol stands in the record of a leaf, which carries the symbol. -/
theorem Encoded.leaf_of_mem {s t : State} {T : Tree} (h : Encoded s t T) {x : Sym} (hx : x ∈ s.input) :
    ∃ n : NodeIdx, n.toNat < t.distinct ∧ t.codeOf x = t.nodeAt n ∧ (t.nodeAt n).sym = x := by
  obtain ⟨n, hn, rfl⟩ := h.coded.exists_leaf hx
  exact ⟨n, (h.coded.leaf_iff n).1 hn, congrArg t.nodeAt (h.tabled.leaf n hn), rfl⟩

/-- Settles O32: were the shifted pattern the shorter one, the shorter code would begin the longer, so both would be the code
of one leaf. -/
theorem codesArePrefixFree : Obligations.CodesArePrefixFree := by
  intro s t henc x y hx hy hne hle hpat
  obtain ⟨T, h⟩ := encodes_spec henc
  obtain ⟨m, hm, hcx, hsx⟩ := h.leaf_of_mem hx
  obtain ⟨n, hn, hcy, hsy⟩ := h.leaf_of_mem hy
  have hpre : codeBits (t.codeOf x) <+: codeBits (t.codeOf y) := by
    have hshift := patBits_ushiftRight_prefix (t.codeOf x).clen.toNat
      ((t.codeOf y).clen.toNat - (t.codeOf x).clen.toNat) (t.codeOf y).pat
    rwa [hpat, Nat.add_sub_cancel' hle] at hshift
  rw [hcx, hcy] at hpre
  have hmn : m = n := h.eq_of_codeBits_prefix hm hn hpre
  exact hne (by rw [← hsx, ← hsy, hmn])

/-! ### The levels of the tree (R236)

The merges go in order of frequency, so a record deeper in the tree weighs no more than one nearer to ROOT. -/

/-- The records `d` edges below the root. -/
def Tree.level : Nat → Tree → List NodeIdx
  | 0, T => [T.root]
  | _ + 1, .leaf _ => []
  | d + 1, .wrap _ l => l.level d
  | d + 1, .node _ l r => l.level d ++ r.level d

theorem Tree.level_subset_idxs (T : Tree) (d : Nat) : T.level d ⊆ T.idxs := by
  induction d generalizing T with
  | zero => simpa [level] using T.root_mem_idxs
  | succ d ih =>
    cases T with
    | leaf n => simp [level]
    | wrap n l => exact List.subset_cons_of_subset n (ih l)
    | node n l r =>
      refine List.subset_cons_of_subset n ?_
      exact List.append_subset.2 ⟨List.subset_append_of_subset_left _ (ih l), List.subset_append_of_subset_right _ (ih r)⟩

/-- A record stands on one level only. -/
theorem Tree.level_unique {T : Tree} (h : T.idxs.Nodup) {n : NodeIdx} {d e : Nat} (hd : n ∈ T.level d)
    (he : n ∈ T.level e) : d = e := by
  induction T generalizing d e with
  | leaf m =>
    match d, e with
    | 0, 0 => rfl
    | 0, _ + 1 => cases he
    | _ + 1, _ => cases hd
  | wrap m l ih =>
    obtain ⟨hm, hl⟩ := List.nodup_cons.1 h
    have hsub : ∀ {k}, n ∈ l.level k → n ≠ m := fun hk e => hm (e ▸ l.level_subset_idxs _ hk)
    match d, e with
    | 0, 0 => rfl
    | 0, e + 1 => exact absurd (List.mem_singleton.1 hd) (hsub he)
    | d + 1, 0 => exact absurd (List.mem_singleton.1 he) (hsub hd)
    | d + 1, e + 1 => exact congrArg (· + 1) (ih hl hd he)
  | node m l r ihl ihr =>
    obtain ⟨hm, hlr⟩ := List.nodup_cons.1 h
    obtain ⟨hl, hr, hdis⟩ := List.nodup_append.1 hlr
    have hsub : ∀ {k}, n ∈ l.level k ++ r.level k → n ≠ m := fun hk e => hm <| e ▸
      (List.mem_append.2 ((List.mem_append.1 hk).imp (fun h => l.level_subset_idxs _ h) fun h => r.level_subset_idxs _ h))
    match d, e with
    | 0, 0 => rfl
    | 0, e + 1 => exact absurd (List.mem_singleton.1 hd) (hsub he)
    | d + 1, 0 => exact absurd (List.mem_singleton.1 he) (hsub hd)
    | d + 1, e + 1 =>
      refine congrArg (· + 1) ?_
      rcases List.mem_append.1 hd with hd | hd <;> rcases List.mem_append.1 he with he | he
      · exact ihl hl hd he
      · exact absurd rfl (hdis n (l.level_subset_idxs _ hd) n (r.level_subset_idxs _ he))
      · exact absurd rfl (hdis n (l.level_subset_idxs _ he) n (r.level_subset_idxs _ hd))
      · exact ihr hr hd he

/-- A record below the root is a child of an internal record one level up. -/
theorem Tree.exists_parent {f : NodeIdx → Node} {T : Tree} (h : T.Rep f) {n : NodeIdx} {d : Nat}
    (hn : n ∈ T.level (d + 1)) :
    ∃ p ∈ T.level d, (f p).kind = .internal ∧ ((f p).left = n ∨ (f p).right = n) := by
  induction d generalizing T with
  | zero =>
    cases T with
    | leaf m => simp [level] at hn
    | wrap m l =>
      obtain ⟨-, hkind, hleft, -⟩ := h
      exact ⟨m, by simp [level, root], hkind, .inl (hleft.trans (List.mem_singleton.1 hn).symm)⟩
    | node m l r =>
      obtain ⟨-, hkind, hleft, hright, -⟩ := h
      refine ⟨m, by simp [level, root], hkind, ?_⟩
      exact (List.mem_append.1 hn).imp (fun hn => hleft.trans (List.mem_singleton.1 hn).symm)
        fun hn => hright.trans (List.mem_singleton.1 hn).symm
  | succ d ih =>
    cases T with
    | leaf m => simp [level] at hn
    | wrap m l =>
      obtain ⟨-, -, -, -, hl⟩ := h
      exact ih hl hn
    | node m l r =>
      obtain ⟨-, -, -, -, hl, hr⟩ := h
      rcases List.mem_append.1 hn with hn | hn
      · obtain ⟨p, hp, hlink⟩ := ih hl hn
        exact ⟨p, List.mem_append_left _ hp, hlink⟩
      · obtain ⟨p, hp, hlink⟩ := ih hr hn
        exact ⟨p, List.mem_append_right _ hp, hlink⟩

/-- A leaf stands on the level its path is long. -/
theorem Tree.mem_level_of_mem_paths {T : Tree} : ∀ p ∈ T.paths, p.1 ∈ T.level p.2.length := by
  induction T with
  | leaf n => simp [paths, level, root]
  | wrap n l ih =>
    intro p hp
    obtain ⟨q, hq, rfl⟩ := List.mem_map.1 hp
    exact ih q hq
  | node n l r ihl ihr =>
    intro p hp
    rcases List.mem_append.1 hp with hp | hp <;> obtain ⟨q, hq, rfl⟩ := List.mem_map.1 hp
    · exact List.mem_append_left _ (ihl q hq)
    · exact List.mem_append_right _ (ihr q hq)

/-- The frequencies of a full tree whose merges went in order: an internal record holds the exact sum of its children, LEFT of
no greater frequency than RIGHT, and the children of an earlier merge weigh no more than those of a later one (R136, R139). -/
structure Tree.Ordered (f : NodeIdx → Node) (T : Tree) : Prop where
  sum : ∀ n ∈ T.idxs, (f n).kind = .internal →
    (f n).freq.toNat = (f (f n).left).freq.toNat + (f (f n).right).freq.toNat
  sorted : ∀ n ∈ T.idxs, (f n).kind = .internal → (f (f n).left).freq ≤ (f (f n).right).freq
  merges : ∀ n ∈ T.idxs, ∀ m ∈ T.idxs, (f n).kind = .internal → (f m).kind = .internal → n.toNat < m.toNat →
    (f (f n).right).freq ≤ (f (f m).left).freq

/-- A child weighs at least the parent's LEFT child, at most its RIGHT one, and no more than the parent. -/
theorem Tree.Ordered.child_freq {f : NodeIdx → Node} {T : Tree} (h : T.Ordered f) {p n : NodeIdx} (hp : p ∈ T.idxs)
    (hk : (f p).kind = .internal) (hn : (f p).left = n ∨ (f p).right = n) :
    (f (f p).left).freq.toNat ≤ (f n).freq.toNat ∧ (f n).freq.toNat ≤ (f (f p).right).freq.toNat ∧
      (f n).freq.toNat ≤ (f p).freq.toNat := by
  have hsum := h.sum p hp hk
  have hle := BitVec.le_def.1 (h.sorted p hp hk)
  rcases hn with rfl | rfl <;> omega

theorem Tree.Ordered.freq_le_root {f : NodeIdx → Node} {T : Tree} (h : T.Ordered f) (hrep : T.Rep f) {e : Nat}
    {v : NodeIdx} (hv : v ∈ T.level e) : (f v).freq.toNat ≤ (f T.root).freq.toNat := by
  induction e generalizing v with
  | zero => rw [List.mem_singleton.1 hv]
  | succ e ih =>
    obtain ⟨p, hp, hk, hlink⟩ := Tree.exists_parent hrep hv
    obtain ⟨-, -, hle⟩ := h.child_freq (T.level_subset_idxs e hp) hk hlink
    exact hle.trans (ih hp)

/-- A record on a deeper level weighs no more. Where the parent of the deeper one was merged later, the sums of the two parents
force all four children to one frequency. -/
theorem Tree.Ordered.freq_le {f : NodeIdx → Node} {T : Tree} (h : T.Ordered f) (hrep : T.Rep f) (hnd : T.idxs.Nodup)
    {d e : Nat} {u v : NodeIdx} (hde : d < e) (hu : u ∈ T.level d) (hv : v ∈ T.level e) :
    (f v).freq.toNat ≤ (f u).freq.toNat := by
  induction d generalizing e u v with
  | zero =>
    rw [List.mem_singleton.1 hu]
    exact h.freq_le_root hrep hv
  | succ d ih =>
    obtain ⟨e, rfl⟩ : ∃ k, e = k + 1 := ⟨e - 1, by omega⟩
    obtain ⟨p, hp, hpk, hpu⟩ := Tree.exists_parent hrep hu
    obtain ⟨q, hq, hqk, hqv⟩ := Tree.exists_parent hrep hv
    have hpT := T.level_subset_idxs d hp
    have hqT := T.level_subset_idxs e hq
    obtain ⟨hlu, -, -⟩ := h.child_freq hpT hpk hpu
    obtain ⟨-, hvr, -⟩ := h.child_freq hqT hqk hqv
    have hne : p.toNat ≠ q.toNat := fun heq => by
      have := Tree.level_unique hnd hp (BitVec.eq_of_toNat_eq heq ▸ hq)
      omega
    rcases Nat.lt_or_gt_of_ne hne with hlt | hlt
    · have hparents := ih (by omega) hp hq
      have hmerge := BitVec.le_def.1 (h.merges p hpT q hqT hpk hqk hlt)
      have hp2 := BitVec.le_def.1 (h.sorted p hpT hpk)
      have hq2 := BitVec.le_def.1 (h.sorted q hqT hqk)
      have hpsum := h.sum p hpT hpk
      have hqsum := h.sum q hqT hqk
      omega
    · have hmerge := BitVec.le_def.1 (h.merges q hqT p hpT hqk hpk hlt)
      omega

theorem Encoded.ordered {s t : State} {T : Tree} (h : Encoded s t T) (h2 : 2 ≤ t.distinct) : T.Ordered t.nodeAt := by
  obtain ⟨hfull, -, hjoin⟩ := h.many h2
  obtain ⟨h1, -⟩ | ⟨-, -, -, -, -, hmerges⟩ := h.coded.shape
  · exact absurd (h1 ▸ h2 : 2 ≤ 1) (by decide)
  have hlt : ∀ {n}, n ∈ T.idxs → n.toNat < t.nNode.toNat := fun hn => (h.mem_idxs _).1 hn
  have hint : ∀ {n}, n ∈ T.idxs → (t.nodeAt n).kind = .internal → t.distinct ≤ n.toNat := fun hn =>
    (h.internal_iff (hlt hn)).1
  exact
    { sum := (h.summed h2).internal_freq h.coded.rep hfull h.weight_lt
      sorted := fun n hn hk => by
        obtain ⟨-, -, hle, -⟩ := hjoin n (hint hn hk) (hlt hn)
        exact hle
      merges := fun n hn m hm hnk _ hnm => hmerges n m (hint hn hnk) hnm (hlt hm) }

/-- The code of a present symbol is as long as the path to a leaf that holds the symbol's frequency. -/
theorem Encoded.path_of_present {s t : State} {T : Tree} (h : Encoded s t T) {x : Sym} (hx : t.freqAt x ≠ 0#32) :
    ∃ p ∈ T.paths, (t.codeOf x).clen.toNat = p.2.length ∧ (t.nodeAt p.1).freq = t.freqAt x := by
  obtain ⟨p, hp, -, hsym, hbits⟩ := codeOf_spec h.coded h.tabled ((present_iff_mem h.coded.freq x).1 hx)
  obtain ⟨-, -, -, hrec⟩ := h.coded.code p hp
  refine ⟨p, hp, by rw [← hbits, codeBits, patBits_length], ?_⟩
  rw [← hsym, hrec]
  rfl

/-- Settles O33: of two leaves the one nearer to ROOT weighs at least as much as the deeper one. -/
theorem higherFrequencyNoLongerCode : Obligations.HigherFrequencyNoLongerCode := by
  intro s t henc x y hy hlt
  obtain ⟨T, h⟩ := encodes_spec henc
  have hx : t.freqAt x ≠ 0#32 := fun e => by
    rw [e] at hlt
    exact absurd hlt BitVec.not_lt_zero
  obtain ⟨p, hp, hpl, hpf⟩ := h.path_of_present hx
  obtain ⟨q, hq, hql, hqf⟩ := h.path_of_present hy
  rw [BitVec.le_def, hpl, hql]
  by_cases h2 : 2 ≤ t.distinct
  · by_contra hshort
    have hnd : T.idxs.Nodup := h.coded.idxs.nodup_iff.2 (nodup_idxRange h.nNode_le)
    have hle := (h.ordered h2).freq_le h.coded.rep hnd (Nat.not_le.1 hshort) (Tree.mem_level_of_mem_paths q hq)
      (Tree.mem_level_of_mem_paths p hp)
    rw [hpf, hqf] at hle
    exact absurd (BitVec.lt_def.1 hlt) (Nat.not_lt.2 hle)
  · have := h.size
    obtain ⟨rfl, -⟩ := h.single (by omega)
    rw [List.mem_singleton.1 hp, List.mem_singleton.1 hq]

end Sys2Proof.Machine

/-! ## BUILD on two machines (R132, R134, R235)

Two machines with the same counts and the same queue discipline take the same way through BUILD, whatever their stores held before:
the queue is empty when it begins, and it reads only the records it has allocated itself. -/

namespace Sys2Proof.Machine

/-- Two pieces of a command that end alike: in states that `R` relates, or early with the same ending. -/
inductive Flow.Related (R : State → State → Prop) : Flow → Flow → Prop
  | go {s s' : State} (h : R s s') : Related R (.go s) (.go s')
  | stop (e : Ending) (s s' : State) : Related R (.stop e s) (.stop e s')

theorem Flow.related_go_iff {R : State → State → Prop} {s s' : State} : (Flow.go s).Related R (.go s') ↔ R s s' :=
  ⟨fun h => by cases h; assumption, .go⟩

theorem Flow.Related.andThen {R Q : State → State → Prop} {x x' : Flow} {f f' : State → Flow} (h : x.Related R x')
    (hf : ∀ s s', R s s' → (f s).Related Q (f' s')) : (x.andThen f).Related Q (x'.andThen f') := by
  cases h with
  | go h => exact hf _ _ h
  | stop e s s' => exact .stop e s s'

/-- The loop rule for two runs of a body that always falls off its end. -/
theorem loopUp_related {f : Nat → State → State} (R : Nat → State → State → Prop) (n a : Nat)
    (step : ∀ i s s', a ≤ i → i < a + n → R i s s' → R (i + 1) (f i s) (f i s')) {s s' : State} (h : R a s s') :
    R (a + n) (loopUp n a f s) (loopUp n a f s') := by
  induction n generalizing a s s' with
  | zero => exact h
  | succ n ih =>
    have := ih (a + 1) (fun i s s' h1 h2 => step i s s' (by omega) (by omega))
      (step a s s' (Nat.le_refl a) (by omega) h)
    rwa [show a + 1 + n = a + (n + 1) by omega] at this

/-- Two machines in the midst of BUILD: the same counts, discipline and queue, and the same allocated records, which the queue
names. -/
structure SameBuild (s s' : State) : Prop where
  wf : Store.wf unlisted.node numNodes s.node = true
  wf' : Store.wf unlisted.node numNodes s'.node = true
  freq : s'.freqAt = s.freqAt
  tie : s'.tie = s.tie
  nNode : s'.nNode = s.nNode
  queue : s'.queue = s.queue
  hist : s'.qHist = s.qHist
  live : ∀ n ∈ s.queue, n.toNat < s.nNode.toNat
  recs : ∀ n : NodeIdx, n.toNat < s.nNode.toNat → s'.nodeAt n = s.nodeAt n

theorem SameBuild.key {s s' : State} (h : SameBuild s s') {n : NodeIdx} (hn : n ∈ s.queue) : s'.key n = s.key n :=
  congrArg Node.freq (h.recs n (h.live n hn))

theorem SameBuild.enter {s s' : State} (h : SameBuild s s') (m : Seq) : SameBuild (s.enter m) (s'.enter m) :=
  ⟨h.wf, h.wf', h.freq, h.tie, h.nNode, h.queue, h.hist, h.live, h.recs⟩

theorem SameBuild.popped {s s' : State} (h : SameBuild s s') (n : NodeIdx) : SameBuild (s.popped n) (s'.popped n) where
  wf := h.wf
  wf' := h.wf'
  freq := h.freq
  tie := h.tie
  nNode := h.nNode
  queue := congrArg (List.erase · n) h.queue
  hist := congrArg (QEvent.popped n :: ·) h.hist
  live m hm := h.live m (List.mem_of_mem_erase hm)
  recs := h.recs

theorem toNat_nNode_allocPush {s : State} (hroom : s.nNode.toNat < numNodes) (r : Node) :
    (s.allocPush r).nNode.toNat = s.nNode.toNat + 1 := by
  have hN : numNodes = 511 := rfl
  rw [allocPush_nNode, BitVec.toNat_add, BitVec.toNat_ofNat]
  omega

theorem length_queue_allocPush (s : State) (r : Node) : (s.allocPush r).queue.length = s.queue.length + 1 := by
  rw [allocPush_queue, List.length_append, List.length_singleton]

theorem qHist_allocPush {s : State} (hw : Store.wf unlisted.node numNodes s.node = true) (r : Node) :
    (s.allocPush r).qHist = .pushed s.nNode r.freq :: s.qHist := by
  have hnew := nodeAt_putNode hw s.nNode r s.nNode
  rw [if_pos rfl] at hnew
  exact congrArg (fun k : Node => QEvent.pushed s.nNode k.freq :: s.qHist) hnew

/-- Both machines allocate the same record (R133, R136, R137). -/
theorem SameBuild.allocPush {s s' : State} (h : SameBuild s s') (hroom : s.nNode.toNat < numNodes) (r : Node) :
    SameBuild (s.allocPush r) (s'.allocPush r) := by
  have hsucc := toNat_nNode_allocPush hroom r
  refine
    { wf := wf_putNode h.wf r hroom
      wf' := wf_putNode h.wf' r (h.nNode ▸ hroom)
      freq := h.freq
      tie := h.tie
      nNode := by rw [allocPush_nNode, allocPush_nNode, h.nNode]
      queue := by rw [allocPush_queue, allocPush_queue, h.queue, h.nNode]
      hist := by rw [qHist_allocPush h.wf, qHist_allocPush h.wf', h.hist, h.nNode]
      live := fun n hn => ?_
      recs := fun n hn => ?_ }
  · rw [allocPush_queue, List.mem_append, List.mem_singleton] at hn
    rcases hn with hn | rfl
    · have := h.live n hn
      omega
    · omega
  · rw [allocPush_nodeAt h.wf, allocPush_nodeAt h.wf', h.nNode]
    split_ifs with hnew
    · rfl
    · have hne : n.toNat ≠ s.nNode.toNat := fun e => hnew (BitVec.eq_of_toNat_eq e)
      exact h.recs n (by omega)

/-! ### The queue (R131, R132) -/

theorem minKey_congr {s s' : State} (n : NodeIdx) (ns : List NodeIdx) (h : ∀ m ∈ n :: ns, s'.key m = s.key m) :
    s'.minKey n ns = s.minKey n ns := by
  induction ns generalizing n with
  | nil => exact h n (List.mem_cons_self ..)
  | cons a as ih =>
    obtain ⟨hn, hrest⟩ := List.forall_mem_cons.1 h
    simp only [State.minKey, hn, ih a hrest]

theorem SameBuild.candidates {s s' : State} (h : SameBuild s s') : s'.candidates = s.candidates := by
  rw [State.candidates, State.candidates, h.queue]
  have hkey : ∀ m ∈ s.queue, s'.key m = s.key m := fun m hm => h.key hm
  generalize s.queue = q at hkey
  cases q with
  | nil => rfl
  | cons n ns => exact List.filter_congr fun m hm => by rw [hkey m hm, minKey_congr n ns hkey]

/-- Both machines pop the same index, or neither pops one (R132). -/
theorem SameBuild.pop {s s' : State} (h : SameBuild s s') :
    (s.pop = none ∧ s'.pop = none) ∨
    ∃ n ∈ s.queue, s.pop = some (n, s.popped n) ∧ s'.pop = some (n, s'.popped n) := by
  cases hc : s.candidates with
  | nil =>
    have hc' := h.candidates.trans hc
    exact .inl ⟨by rw [State.pop, hc], by rw [State.pop, hc']⟩
  | cons c cs =>
    have hpop := pop_of_candidates hc
    have hpop' := pop_of_candidates (h.candidates.trans hc)
    rw [h.tie, h.hist] at hpop'
    obtain ⟨-, hmem, -⟩ := pop_some hpop
    exact .inr ⟨_, hmem, hpop, hpop'⟩

/-! ### The micro-operations -/

theorem SameBuild.qinitSym {s s' : State} (h : SameBuild s s') (hroom : s.nNode.toNat < numNodes) (i : Nat) :
    SameBuild (qinitSym i s) (qinitSym i s') := by
  unfold Machine.qinitSym
  rw [h.freq]
  split_ifs
  · exact h
  · exact h.allocPush hroom _

/-- After QINIT both machines hold the same leaves; the bounds leave room for the records to come. -/
theorem qinit_related {s s' : State} (hw : Store.wf unlisted.node numNodes s.node = true)
    (hw' : Store.wf unlisted.node numNodes s'.node = true) (hfreq : s'.freqAt = s.freqAt) (htie : s'.tie = s.tie) :
    SameBuild (qinit s) (qinit s') ∧ (qinit s).nNode.toNat ≤ 256 ∧ (qinit s).queue.length ≤ 256 := by
  have key := loopUp_related (f := qinitSym)
    (fun i t t' => SameBuild t t' ∧ t.nNode.toNat ≤ i ∧ t.queue.length ≤ i) numSyms 0
    (fun i t t' _ hi ⟨h, hn, hq⟩ => by
      have hi' : i < 256 := by simpa using hi
      have hN : numNodes = 511 := rfl
      have hroom : t.nNode.toNat < numNodes := by omega
      refine ⟨h.qinitSym hroom i, ?_⟩
      unfold qinitSym
      split_ifs
      · omega
      · rw [toNat_nNode_allocPush hroom, length_queue_allocPush]
        omega)
    (s := { s.enter .qinit with queue := [], qHist := [], nNode := 0#9 })
    (s' := { s'.enter .qinit with queue := [], qHist := [], nNode := 0#9 })
    ⟨⟨hw, hw', hfreq, htie, rfl, rfl, rfl, fun n hn => absurd hn List.not_mem_nil,
      fun n hn => absurd hn (Nat.not_lt_zero _)⟩, Nat.le_refl 0, Nat.le_refl 0⟩
  rwa [Nat.zero_add] at key

/-- Two machines in the midst of the merging, with room for the records still to come. -/
def SameMerge (s s' : State) : Prop := SameBuild s s' ∧ s.nNode.toNat + s.queue.length ≤ 512

theorem SameBuild.allocPush_sameMerge {s s' : State} (h : SameBuild s s')
    (hbound : s.nNode.toNat + s.queue.length + 2 ≤ 512) (r : Node) : SameMerge (s.allocPush r) (s'.allocPush r) := by
  have hroom : s.nNode.toNat < numNodes := by
    show s.nNode.toNat < 511
    omega
  refine ⟨h.allocPush hroom r, ?_⟩
  rw [toNat_nNode_allocPush hroom, length_queue_allocPush]
  omega

theorem wrapIfSole_related {s s' : State} (h : SameBuild s s') (hn : s.nNode.toNat ≤ 256) (hq : s.queue.length ≤ 256) :
    (wrapIfSole s).Related SameMerge (wrapIfSole s') := by
  unfold wrapIfSole
  rw [h.queue]
  split_ifs
  · unfold wrap
    obtain ⟨e, e'⟩ | ⟨a, ha, e, e'⟩ := (h.enter .wrap).pop
    · rw [e, e']
      exact .stop _ _ _
    · rw [e, e']
      have hkey : s'.key a = s.key a := h.key ha
      have hlen : (s.queue.erase a).length ≤ s.queue.length := List.length_erase_le
      have hbound : s.nNode.toNat + (s.queue.erase a).length + 2 ≤ 512 := by omega
      have hnew := ((h.enter .wrap).popped a).allocPush_sameMerge hbound (internalNode (s.key a) a absent)
      refine .go ?_
      rw [show ((s'.enter .wrap).popped a).key a = s.key a from hkey]
      exact hnew
  · exact .go ⟨h, by omega⟩

theorem merge_related {s s' : State} (h : SameMerge s s') : (merge s).Related SameMerge (merge s') := by
  obtain ⟨h, hsize⟩ := h
  unfold merge
  obtain ⟨e, e'⟩ | ⟨a, ha, e, e'⟩ := (h.enter .merge).pop
  · rw [e, e']
    exact .stop _ _ _
  have ha : a ∈ s.queue := ha
  have h1 := (h.enter .merge).popped a
  rw [e, e']
  dsimp only
  obtain ⟨e, e'⟩ | ⟨b, hb, e, e'⟩ := h1.pop
  · rw [e, e']
    exact .stop _ _ _
  have hb : b ∈ s.queue.erase a := hb
  rw [e, e']
  have hkey : s'.key a + s'.key b = s.key a + s.key b := by rw [h.key ha, h.key (List.mem_of_mem_erase hb)]
  have hlen := List.length_erase_add_one ha
  have hlen' := List.length_erase_add_one hb
  have hbound : s.nNode.toNat + ((s.queue.erase a).erase b).length + 2 ≤ 512 := by omega
  have hnew := (h1.popped b).allocPush_sameMerge hbound (internalNode (s.key a + s.key b) a b)
  refine .go ?_
  show SameMerge _ ((((s'.enter .merge).popped a).popped b).allocPush (internalNode (s'.key a + s'.key b) a b))
  rw [hkey]
  exact hnew

theorem mergeLoop_related (k : Nat) {s s' : State} (h : SameMerge s s') :
    (mergeLoop k s).Related SameMerge (mergeLoop k s') := by
  induction k generalizing s s' with
  | zero => exact .go h
  | succ k ih =>
    have ⟨hsame, _⟩ := h
    unfold mergeLoop
    rw [hsame.queue]
    split_ifs
    · exact (merge_related h).andThen fun _ _ => ih
    · exact .go h

/-- Two machines on which BUILD has made the same tree of the same records. -/
structure SameTree (s s' : State) : Prop where
  wf : Store.wf unlisted.node numNodes s.node = true
  wf' : Store.wf unlisted.node numNodes s'.node = true
  root : s'.root = s.root
  nNode : s'.nNode = s.nNode
  recs : ∀ n : NodeIdx, n.toNat < s.nNode.toNat → s'.nodeAt n = s.nodeAt n

theorem rootsel_related {s s' : State} (h : SameBuild s s') : (rootsel s).Related SameTree (rootsel s') := by
  unfold rootsel
  obtain ⟨e, e'⟩ | ⟨a, -, e, e'⟩ := (h.enter .rootsel).pop
  · rw [e, e']
    exact .stop _ _ _
  · rw [e, e']
    exact .go ⟨h.wf, h.wf', rfl, h.nNode, h.recs⟩

/-- BUILD makes the same tree on two machines with the same counts under the same discipline (R235). -/
theorem build_related {s s' : State} (hw : Store.wf unlisted.node numNodes s.node = true)
    (hw' : Store.wf unlisted.node numNodes s'.node = true) (hfreq : s'.freqAt = s.freqAt) (htie : s'.tie = s.tie) :
    (build s).Related SameTree (build s') := by
  have hqinit := qinit_related hw hw' hfreq htie
  unfold build
  -- the loop of QINIT must not be run to compare two states
  generalize qinit s = q at *
  generalize qinit s' = q' at *
  obtain ⟨h, hn, hq⟩ := hqinit
  dsimp only
  rw [h.queue]
  split_ifs
  · exact .stop _ _ _
  · have hmerged : (mergeToOne q).Related SameMerge (mergeToOne q') :=
      (wrapIfSole_related h hn hq).andThen fun t t' ht => by
        have ⟨hsame, _⟩ := ht
        rw [hsame.queue]
        exact mergeLoop_related _ ht
    exact hmerged.andThen fun _ _ ⟨hsame, _⟩ => rootsel_related hsame

end Sys2Proof.Machine

/-! ## The blob depends on the input and the discipline alone (R212, R235)

ASSIGN writes only codes and PACK no record, so the tree BUILD made stands in the blob; a tree in the store is determined by its
root and its links, and the codes, the table and the stream by the tree. -/

namespace Sys2Proof.Machine

/-! ### What the later phases keep of the tree (R150, R165) -/

theorem Flow.proj_andThen {β : Type} {g : State → β} {f : State → Flow} (hf : ∀ s, g (f s).state = g s) (x : Flow) :
    g (x.andThen f).state = g x.state := by
  cases x with
  | go s => exact hf s
  | stop e s => rfl

theorem proj_loopUp {β : Type} {g : State → β} {f : Nat → State → State} (hf : ∀ i s, g (f i s) = g s) (n a : Nat)
    (s : State) : g (loopUp n a f s) = g s :=
  loopUp_inv (fun _ t => g t = g s) n a (fun i t _ _ ht => (hf i t).trans ht) s rfl

theorem proj_loopFlow {β : Type} {g : State → β} {f : Nat → State → Flow} (hf : ∀ i s, g (f i s).state = g s) (n a : Nat)
    (s : State) : g (loopFlow n a f s).state = g s :=
  (Flow.sat_const_iff _ (fun t => g t = g s)).1 <|
    sat_loopFlow (fun _ t => g t = g s) n a
      (fun i t _ _ ht => (Flow.sat_const_iff _ _).2 ((hf i t).trans ht)) s rfl

/-- The tree as the machine holds it: ROOT, NNODE and the node store. -/
def State.tree (s : State) : NodeIdx × NodeIdx × List (Nat × Node) := (s.root, s.nNode, s.node)

theorem tree_putLut (s : State) (x : Sym) (v : NodeIdx) : (s.putLut x v).tree = s.tree := rfl

theorem tree_walkLut (k : Nat) : ∀ (n : NodeIdx) (s : State), (walkLut k n s).state.tree = s.tree := by
  induction k with
  | zero => exact fun _ _ => rfl
  | succ k ih =>
    intro n s
    unfold walkLut
    split
    · rfl
    · split
      · rfl
      · exact (Flow.proj_andThen (ih _) _).trans (ih _ s)

theorem tree_flatten (s : State) : (flatten s).state.tree = s.tree :=
  (tree_walkLut walkFuel s.root _).trans <|
    proj_loopUp (fun i t => tree_putLut t (symOf i) absent) _ _ (s.enter .flatten)

theorem tree_writeWord (s : State) : (writeWord s).state.tree = s.tree := by
  unfold writeWord
  split <;> rfl

theorem tree_packBit (b : Bool) (s : State) : (packBit b s).state.tree = s.tree := by
  unfold packBit
  split
  · exact (Flow.proj_andThen (fun _ => rfl) _).trans (tree_writeWord _)
  · rfl

theorem tree_packCode (k : Nat) (p : Pattern) : ∀ s : State, (packCode k p s).state.tree = s.tree := by
  induction k with
  | zero => exact fun _ => rfl
  | succ k ih => exact fun s => (Flow.proj_andThen ih _).trans (tree_packBit _ s)

theorem tree_packByte (i : Nat) (s : State) : (packByte i s).state.tree = s.tree := by
  unfold packByte packSym
  split
  · rfl
  · exact tree_packCode _ _ _

theorem tree_flush (s : State) : (flush s).state.tree = s.tree := by
  refine (Flow.proj_andThen (fun _ => rfl) _).trans ?_
  split
  · rfl
  · exact tree_writeWord _

theorem tree_pack (s : State) : (pack s).state.tree = s.tree :=
  (Flow.proj_andThen tree_flush _).trans <|
    (Flow.proj_andThen (fun t => proj_loopFlow tree_packByte t.len.toNat 0 (packInit t)) _).trans (tree_flatten s)

/-- What BUILD puts into a record for good: kind, frequency and links. -/
def skeleton (r : Node) : Kind × Count × NodeIdx × NodeIdx := (r.kind, r.freq, r.left, r.right)

theorem skeleton_eq_iff {r r' : Node} : skeleton r' = skeleton r ↔
    r'.kind = r.kind ∧ r'.freq = r.freq ∧ r'.left = r.left ∧ r'.right = r.right := by
  simp only [skeleton, Prod.mk.injEq]

/-- `t` holds the tree of `s`, with other codes at most. -/
structure SameShape (s t : State) : Prop where
  wf : Store.wf unlisted.node numNodes t.node = true
  root : t.root = s.root
  nNode : t.nNode = s.nNode
  recs : ∀ n, skeleton (t.nodeAt n) = skeleton (s.nodeAt n)

theorem SameShape.trans {s t u : State} (h : SameShape s t) (h' : SameShape t u) : SameShape s u :=
  ⟨h'.wf, h'.root.trans h.root, h'.nNode.trans h.nNode, fun n => (h'.recs n).trans (h.recs n)⟩

theorem SameShape.of_tree_eq {s t : State} (hw : Store.wf unlisted.node numNodes s.node = true) (h : t.tree = s.tree) :
    SameShape s t := by
  simp only [State.tree, Prod.mk.injEq] at h
  obtain ⟨hroot, hn, hnode⟩ := h
  exact ⟨hnode ▸ hw, hroot, hn, fun n => by rw [State.nodeAt, State.nodeAt, hnode]⟩

theorem SameShape.of_source {s s' t : State} (h : SameShape s' t) (htree : s'.tree = s.tree) : SameShape s t := by
  simp only [State.tree, Prod.mk.injEq] at htree
  obtain ⟨hroot, hn, hnode⟩ := htree
  exact ⟨h.wf, h.root.trans hroot, h.nNode.trans hn, fun n => by rw [h.recs n, State.nodeAt, State.nodeAt, hnode]⟩

theorem SameShape.andThen {s : State} {x : Flow} {f : State → Flow} (h : SameShape s x.state)
    (hf : ∀ t, SameShape s t → SameShape t (f t).state) : SameShape s (x.andThen f).state := by
  cases x with
  | go t => exact SameShape.trans h (hf t h)
  | stop e t => exact h

theorem assignLeaf_sameShape {n : NodeIdx} (hn : n ≠ absent) (pat : Pattern) (d : CodeLen) {s : State}
    (hw : Store.wf unlisted.node numNodes s.node = true) : SameShape s (assignLeaf n pat d s).state := by
  have hrefl : SameShape s s := .of_tree_eq hw rfl
  unfold assignLeaf
  split_ifs
  · exact hrefl
  · exact hrefl
  · have hlt : n.toNat < numNodes := by
      have hne : n.toNat ≠ 511 := fun e => hn (BitVec.eq_of_toNat_eq e)
      show n.toNat < 511
      omega
    refine ⟨wf_putNode hw _ hlt, rfl, rfl, fun m => ?_⟩
    rw [Flow.state_go, nodeAt_putNode hw]
    split_ifs with hm
    · rw [hm]
      rfl
    · rfl

theorem visit_sameShape (k : Nat) : ∀ (n : NodeIdx) (pat : Pattern) (d : CodeLen) (s : State),
    Store.wf unlisted.node numNodes s.node = true → SameShape s (visit k n pat d s).state := by
  induction k with
  | zero => exact fun _ _ _ _ hw => .of_tree_eq hw rfl
  | succ k ih =>
    intro n pat d s hw
    unfold visit
    split
    · exact .of_tree_eq hw rfl
    next hn =>
      split
      · exact (assignLeaf_sameShape (s := { s with patReg := pat, depth := d }) hn pat d hw).of_source rfl
      · have hleft := (ih (s.nodeAt n).left (childPat pat false) (d + 1#8)
          (State.pushFrame n pat d { s with patReg := pat, depth := d }) hw).of_source (s := s) rfl
        exact (hleft.andThen fun t ht => ih _ _ _ t ht.wf).andThen fun t ht => .of_tree_eq ht.wf rfl

theorem go_of_andThen_go {x : Flow} {f : State → Flow} {u : State} (h : x.andThen f = .go u) :
    ∃ t, x = .go t ∧ f t = .go u := by
  cases x with
  | go t => exact ⟨t, rfl, h⟩
  | stop e t => cases h

/-- A successful ENCODE ran its four phases to their end. -/
theorem Encodes.phases {s t : State} (h : Encodes s t) : ∃ u, encodePhases s = .go u ∧ t = encodeSuccess u := by
  obtain ⟨hready, he, hp⟩ := h
  obtain ⟨hf, hpres, hlen, hcap, hm⟩ := hready
  have hexec := (execEncode_phases hf hpres hcap hlen).symm.trans he
  obtain ⟨f, T, -, -, -, -, ⟨-, u, hu, -⟩ | ⟨-, u, hu, -⟩⟩ := phases_spec s hm hlen
  · rw [hu] at hexec
    cases hexec
    exact ⟨u, hu, rfl⟩
  · rw [hu] at hexec
    cases hexec
    cases hp

/-- ASSIGN and PACK keep the tree BUILD made. -/
theorem sameShape_of_assign_pack {a b u : State} (hw : Store.wf unlisted.node numNodes b.node = true)
    (ha : assign b = .go a) (hu : pack a = .go u) : SameShape b u := by
  have hassign : SameShape b a := by
    have hvisit : SameShape b (assign b).state :=
      (visit_sameShape walkFuel b.root 0#255 0#8 { b.enter .assign with stack := [] } hw).of_source rfl
    rwa [ha] at hvisit
  have hkept := tree_pack a
  rw [hu] at hkept
  exact hassign.trans (.of_tree_eq hassign.wf hkept)

/-- The tree of the blob is the one BUILD made of the counts of the input. -/
theorem Encodes.exists_build {s t : State} (h : Encodes s t) :
    ∃ c b, build c = .go b ∧ Store.wf unlisted.node numNodes c.node = true ∧ c.tie = s.tie ∧
      (∀ x, (c.freqAt x).toNat = s.input.count x) ∧
      (Store.wf unlisted.node numNodes b.node = true → SameShape b t) := by
  have ⟨⟨_, _, _, _, hm⟩, _⟩ := h
  obtain ⟨-, -, -, hwN, hwF, -⟩ := (Memory.wf_iff s).1 hm
  obtain ⟨hfr, -, hcount⟩ := fcount_spec s hwF
  obtain ⟨u, hphases, he⟩ := h.phases
  obtain ⟨a, hfront, hpack⟩ := go_of_andThen_go hphases
  obtain ⟨b, hb, hassign⟩ := go_of_andThen_go hfront
  have hnode : (fcount s).node = s.node := by rw [hfr]
  have htie : (fcount s).tie = s.tie := by rw [hfr]
  refine ⟨fcount s, b, hb, hnode ▸ hwN, htie, hcount, fun hw => ?_⟩
  have hu := sameShape_of_assign_pack hw hassign hpack
  rw [he]
  exact ⟨hu.wf, hu.root, hu.nNode, hu.recs⟩

/-! ### The tree is determined by its root and its links -/

theorem Tree.Rep.eq_leaf {f : NodeIdx → Node} {T : Tree} (h : T.Rep f) (hk : (f T.root).kind = .leaf) :
    T = .leaf T.root := by
  cases T with
  | leaf n => rfl
  | wrap n l =>
    obtain ⟨-, hk', -⟩ := h
    cases hk'.symm.trans hk
  | node n l r =>
    obtain ⟨-, hk', -⟩ := h
    cases hk'.symm.trans hk

theorem Tree.Rep.unique {f g : NodeIdx → Node} {T T' : Tree} (h : T.Rep f) (h' : T'.Rep g) (hroot : T'.root = T.root)
    (e : ∀ n ∈ T.idxs, skeleton (g n) = skeleton (f n)) : T' = T := by
  induction T generalizing T' with
  | leaf n =>
    obtain ⟨-, hk⟩ := h
    obtain ⟨hkind, -⟩ := skeleton_eq_iff.1 (e n (List.mem_cons_self ..))
    have hleaf : (g T'.root).kind = .leaf := by rw [hroot]; exact hkind.trans hk
    rw [h'.eq_leaf hleaf, hroot]
    rfl
  | wrap n l ih =>
    obtain ⟨-, hk, hl, hr, hrep⟩ := h
    obtain ⟨hkind, -, hleft, hright⟩ := skeleton_eq_iff.1 (e n (List.mem_cons_self ..))
    cases T' with
    | leaf m =>
      obtain rfl : m = n := hroot
      obtain ⟨-, hk'⟩ := h'
      cases (hkind.trans hk).symm.trans hk'
    | wrap m l' =>
      obtain rfl : m = n := hroot
      obtain ⟨-, -, hl', -, hrep'⟩ := h'
      rw [ih hrep hrep' (by rw [← hl', hleft, hl]) fun k hk => e k (List.mem_cons_of_mem _ hk)]
    | node m l' r' =>
      obtain rfl : m = n := hroot
      obtain ⟨-, -, -, hr', -, hrepr'⟩ := h'
      exact absurd (by rw [← hr', hright, hr]) hrepr'.root_ne
  | node n l r ihl ihr =>
    obtain ⟨-, hk, hl, hr, hrepl, hrepr⟩ := h
    obtain ⟨hkind, -, hleft, hright⟩ := skeleton_eq_iff.1 (e n (List.mem_cons_self ..))
    cases T' with
    | leaf m =>
      obtain rfl : m = n := hroot
      obtain ⟨-, hk'⟩ := h'
      cases (hkind.trans hk).symm.trans hk'
    | wrap m l' =>
      obtain rfl : m = n := hroot
      obtain ⟨-, -, -, hr', -⟩ := h'
      exact absurd (by rw [← hr, ← hright, hr']) hrepr.root_ne
    | node m l' r' =>
      obtain rfl : m = n := hroot
      obtain ⟨-, -, hl', hr', hrepl', hrepr'⟩ := h'
      rw [ihl hrepl hrepl' (by rw [← hl', hleft, hl]) fun k hk =>
          e k (List.mem_cons_of_mem _ (List.mem_append_left _ hk)),
        ihr hrepr hrepr' (by rw [← hr', hright, hr]) fun k hk =>
          e k (List.mem_cons_of_mem _ (List.mem_append_right _ hk))]

/-! ### Two ENCODEs of the same input (R212, R235) -/

theorem Encodes.freqAt_eq {s s' t t' : State} (h : Encodes s t) (h' : Encodes s' t') (hin : s'.input = s.input) :
    t'.freqAt = t.freqAt := by
  obtain ⟨T, henc⟩ := encodes_spec h
  obtain ⟨T', henc'⟩ := encodes_spec h'
  funext x
  exact BitVec.eq_of_toNat_eq (by rw [henc.coded.freq, henc'.coded.freq, hin])

/-- The trees are alike, since BUILD starts from the same counts. -/
theorem Encodes.same_shape {s s' t t' : State} (h : Encodes s t) (h' : Encodes s' t') (htie : s'.tie = s.tie)
    (hin : s'.input = s.input) :
    t'.root = t.root ∧ t'.nNode = t.nNode ∧
      ∀ n : NodeIdx, n.toNat < t.nNode.toNat → skeleton (t'.nodeAt n) = skeleton (t.nodeAt n) := by
  obtain ⟨c, b, hb, hw, ht, hcount, hkept⟩ := h.exists_build
  obtain ⟨c', b', hb', hw', ht', hcount', hkept'⟩ := h'.exists_build
  have hfreq : c'.freqAt = c.freqAt := by
    funext x
    exact BitVec.eq_of_toNat_eq (by rw [hcount, hcount', hin])
  have htie' : c'.tie = c.tie := by rw [ht, ht', htie]
  have hbuild := build_related hw hw' hfreq htie'
  rw [hb, hb', Flow.related_go_iff] at hbuild
  have hs := hkept hbuild.wf
  have hs' := hkept' hbuild.wf'
  refine ⟨by rw [hs.root, hs'.root, hbuild.root], by rw [hs.nNode, hs'.nNode, hbuild.nNode], fun n hn => ?_⟩
  rw [hs.recs, hs'.recs, hbuild.recs n (by rw [← hs.nNode]; exact hn)]

theorem eq_of_skeleton_eq {r r' : Node} (h : skeleton r' = skeleton r) (hsym : r'.sym = r.sym) (hclen : r'.clen = r.clen)
    (hpat : r'.pat = r.pat) : r' = r := by
  obtain ⟨hkind, hfreq, hleft, hright⟩ := skeleton_eq_iff.1 h
  cases r
  cases r'
  simp_all

/-- What two blobs share when their machines made the same tree `T` of the same counts. -/
structure SameBlob (s s' t t' : State) (T : Tree) : Prop where
  left : Encoded s t T
  right : Encoded s' t' T
  input : s'.input = s.input
  freq : t'.freqAt = t.freqAt
  nNode : t'.nNode = t.nNode
  shape : ∀ n : NodeIdx, n.toNat < t.nNode.toNat → skeleton (t'.nodeAt n) = skeleton (t.nodeAt n)

theorem Encodes.sameBlob {s s' t t' : State} (h : Encodes s t) (h' : Encodes s' t') (htie : s'.tie = s.tie)
    (hin : s'.input = s.input) : ∃ T, SameBlob s s' t t' T := by
  obtain ⟨T, henc⟩ := encodes_spec h
  obtain ⟨T', henc'⟩ := encodes_spec h'
  obtain ⟨hroot, hn, hshape⟩ := h.same_shape h' htie hin
  obtain rfl : T' = T := henc.coded.rep.unique henc'.coded.rep (by rw [← henc.coded.root, ← henc'.coded.root, hroot])
    fun n hmem => hshape n ((henc.mem_idxs n).1 hmem)
  exact ⟨T', henc, henc', hin, h.freqAt_eq h' hin, hn, hshape⟩

/-- A leaf holds its path as its code, an internal record no code. -/
theorem SameBlob.nodeAt_eq {s s' t t' : State} {T : Tree} (h : SameBlob s s' t t' T) {n : NodeIdx}
    (hn : n.toNat < t.nNode.toNat) : t'.nodeAt n = t.nodeAt n := by
  have hdistinct : t'.distinct = t.distinct := by rw [State.distinct, State.distinct, h.freq]
  by_cases hleaf : n.toNat < t.distinct
  · obtain ⟨p, hp, rfl, -, -, hrec, -⟩ := h.left.code n hleaf
    obtain ⟨-, -, -, hrec'⟩ := h.right.coded.code p hp
    rw [hrec, hrec', h.freq]
  · have hint : t.distinct ≤ n.toNat := Nat.le_of_not_lt hleaf
    obtain ⟨-, -, -, hclen, hpat, hsym⟩ := h.left.internal n hint hn
    obtain ⟨-, -, -, hclen', hpat', hsym'⟩ := h.right.internal n (hdistinct ▸ hint) (h.nNode ▸ hn)
    exact eq_of_skeleton_eq (h.shape n hn) (hsym'.trans hsym.symm) (hclen'.trans hclen.symm) (hpat'.trans hpat.symm)

theorem SameBlob.leaf_eq {s s' t t' : State} {T : Tree} (h : SameBlob s s' t t' T) {n : NodeIdx} (hn : n ∈ T.leaves) :
    t'.nodeAt n = t.nodeAt n :=
  h.nodeAt_eq ((h.left.mem_idxs n).1 (T.leaves_subset_idxs n hn))

theorem SameBlob.lutAt_eq {s s' t t' : State} {T : Tree} (h : SameBlob s s' t t' T) : t'.lutAt = t.lutAt := by
  funext x
  by_cases hx : ∃ n ∈ T.leaves, (t.nodeAt n).sym = x
  · obtain ⟨n, hn, rfl⟩ := hx
    have hentry := h.right.tabled.leaf n hn
    rw [h.leaf_eq hn] at hentry
    rw [hentry, h.left.tabled.leaf n hn]
  · have hnone : ∀ n ∈ T.leaves, (t.nodeAt n).sym ≠ x := fun n hn hsym => hx ⟨n, hn, hsym⟩
    rw [h.left.tabled.other x hnone, h.right.tabled.other x fun n hn => by rw [h.leaf_eq hn]; exact hnone n hn]

theorem SameBlob.streamOf_eq {s s' t t' : State} {T : Tree} (h : SameBlob s s' t t' T) :
    streamOf t' s'.input = streamOf t s.input := by
  rw [streamOf, streamOf, h.input]
  refine List.flatMap_congr fun x hx => ?_
  obtain ⟨n, hn, rfl⟩ := h.left.coded.exists_leaf hx
  rw [State.codeOf, State.codeOf, h.lutAt_eq, h.left.tabled.leaf n hn, h.leaf_eq hn]

/-- A word is its 64 stream bits. -/
theorem packAt_eq_of_streamBit {s t : State} {i : Nat}
    (h : ∀ j, j < 64 → s.streamBit (64 * i + j) = t.streamBit (64 * i + j)) : s.packAt i = t.packAt i := by
  refine BitVec.eq_of_getLsbD_eq fun k hk => ?_
  have hbit := h (63 - k) (by omega)
  rwa [State.streamBit, State.streamBit, show (64 * i + (63 - k)) / 64 = i by omega,
    show 63 - (64 * i + (63 - k)) % 64 = k by omega] at hbit

/-- Settles O40: the second RELEASE finds no blob; and the two blobs share the tree, from which records, table and stream follow. -/
theorem noLeaksBetweenBlobs : Obligations.NoLeaksBetweenBlobs := by
  refine ⟨fun s t hf h => ?_, fun s s' t t' henc henc' htie hin => ?_⟩
  · obtain ⟨hagain, -⟩ := afterRelease s t hf h
    exact hagain
  obtain ⟨hroot, hn, -⟩ := henc.same_shape henc' htie.symm hin.symm
  obtain ⟨T, h⟩ := henc.sameBlob henc' htie.symm hin.symm
  have hlen : s'.len = s.len := BitVec.eq_of_toNat_eq (by rw [← length_input, ← length_input, hin])
  have hwords : t.wordCnt = t'.wordCnt :=
    BitVec.eq_of_toNat_eq (by rw [h.left.wordCnt, h.right.wordCnt, h.streamOf_eq])
  refine ⟨by rw [h.left.orig, h.right.orig, hlen],
    BitVec.eq_of_toNat_eq (by rw [h.left.bitCnt, h.right.bitCnt, h.streamOf_eq]), hwords, hroot.symm, hn.symm,
    fun n hlt => (h.nodeAt_eq hlt).symm, fun i hi => packAt_eq_of_streamBit fun j hj => ?_, h.freq.symm, h.lutAt_eq.symm⟩
  rw [h.left.streamBit_eq (by omega), h.right.streamBit_eq (by rw [← hwords]; omega), h.streamOf_eq]

end Sys2Proof.Machine

/-! ## Decoding a corrupted blob (R238)

A decode writes OUT inside its destination and no other store, whatever the blob holds. It ends when REM is 0, so it never acts on
a bit at or above BITCNT: exchanging the buffer above that bit commutes with it. -/

namespace Sys2Proof.Machine

/-! ### What a decode writes -/

/-- OUT after the common part of DECODE and DECODEA differs from OUT before at most inside the destination. -/
theorem decodeFrom_out (base : Nat) {s : State} (hf : s.faulted = false) (hm : Memory.wf s = true) :
    ∃ e u, decodeFrom base s = .stop e u ∧ DecodeFrame s u ∧
      ∀ j, ¬ (base ≤ j ∧ j < base + s.origLen.toNat) → u.outAt j = s.outAt j := by
  cases hp : s.present with
  | false => exact ⟨_, _, decodeFrom_absent base hp, rfl, fun _ _ => rfl⟩
  | true =>
    by_cases ho : s.outCap.toNat < base + s.origLen.toNat
    · exact ⟨_, _, decodeFrom_outCap hp ho, .refl s, fun _ _ => rfl⟩
    by_cases hc : s.packCap < s.wordCnt
    · exact ⟨_, _, decodeFrom_packCap hp (Nat.not_lt.1 ho) hc, .refl s, fun _ _ => rfl⟩
    obtain ⟨u, hu, hemit, -⟩ := decodeFrom_ready ⟨hf, hp, Nat.not_lt.1 ho, BitVec.not_lt.1 hc, hm⟩
    have hbound := hemit.bound
    exact ⟨_, u, hu, hemit.frame, fun j hj => (hemit.bytes j).trans (if_neg (by omega))⟩

/-- The six stores. -/
def State.stores (s : State) :
    List Host.Cell × List Host.Cell × List (Nat × PackWord) × List (Nat × Node) × List (Nat × Count) × List (Nat × NodeIdx) :=
  (s.inp, s.out, s.pack, s.node, s.freq, s.lut)

theorem stores_of_conclude {x : Flow} {t : State} (h : conclude x = .next t) : t.stores = x.state.stores := by
  cases x with
  | go u => cases h; rfl
  | stop e u =>
    cases e with
    | undef r => cases h
    | done | refuse c | fail c | fatal f => cases h; rfl

theorem stores_advanceFill (x : Flow) : (advanceFill x).state.stores = x.state.stores := by
  cases x with
  | go u => rfl
  | stop e u => cases e <;> rfl

/-- Where a decode command writes: DECODE from 0, DECODEA from OUTFILL (R213, R215). -/
def decodeBase (i : Instr) (s : State) : Nat := if i = .decodea then s.outFill.toNat else 0

/-- A decode command is its common part, of which DECODEA advances OUTFILL. -/
theorem stores_of_exec_decode {i : Instr} (hi : i ∈ [Instr.decode, .decodea]) {s t : State} (hf : s.faulted = false)
    (h : exec i s = .next t) : t.stores = (decodeFrom (decodeBase i s) s).state.stores := by
  obtain rfl | rfl : i = .decode ∨ i = .decodea := by simpa using hi
  · exact stores_of_conclude ((execDecode_of hf).symm.trans h)
  · cases hp : s.present with
    | false => exact stores_of_conclude ((execDecodea_of_absent hf hp).symm.trans h)
    | true => exact (stores_of_conclude ((execDecodea_of_present hf hp).symm.trans h)).trans (stores_advanceFill _)

/-! ### Bits at and above BITCNT -/

/-- The machine with another packed buffer, and a shifter loaded from it. -/
def withBuffer (p : List (Nat × PackWord)) (x : PackWord) (s : State) : State := { s with pack := p, shReg := x }

section
variable (p : List (Nat × PackWord)) (x : PackWord)

theorem unpackLeaf_withBuffer (base : Nat) (s : State) :
    unpackLeaf base (withBuffer p x s) = (unpackLeaf base s).map (withBuffer p x) := by
  unfold unpackLeaf
  simp only [apply_ite (Flow.map (withBuffer p x))]
  rfl

theorem unpackArrive_withBuffer (base : Nat) (s : State) :
    unpackArrive base (withBuffer p x s) = (unpackArrive base s).map (withBuffer p x) := by
  have hpos : (withBuffer p x s).pos = s.pos := rfl
  have hrec : (withBuffer p x s).nodeAt s.pos = s.nodeAt s.pos := rfl
  rw [unpackArrive, unpackArrive, hpos, hrec]
  by_cases habsent : s.pos = absent
  · rw [if_pos habsent, if_pos habsent]
    rfl
  rw [if_neg habsent, if_neg habsent]
  cases (s.nodeAt s.pos).kind with
  | leaf => exact unpackLeaf_withBuffer p x base s
  | internal => rfl

/-- UNPACKBIT does the same on another buffer when it is handed the same bit, and with no bit left to consume whatever bit it
is handed (R189, R190). -/
theorem unpackBit_withBuffer {b b' : Bool} (base : Nat) {s : State} (hb : s.rem ≠ 0#40 → b' = b) :
    unpackBit b' base (withBuffer p x s) = (unpackBit b base s).map (withBuffer p x) := by
  have hrem : (withBuffer p x s).rem = s.rem := rfl
  rw [unpackBit, unpackBit, hrem]
  by_cases hzero : s.rem = 0#40
  · rw [if_pos hzero, if_pos hzero]
    rfl
  · rw [if_neg hzero, if_neg hzero, hb hzero]
    exact unpackArrive_withBuffer p x base (unpackMove b (s.enter .unpackBit))

theorem unpackExhaust_withBuffer (s : State) :
    unpackExhaust (withBuffer p x s) = (unpackExhaust s).map (withBuffer p x) := by
  unfold unpackExhaust
  simp only [apply_ite (Flow.map (withBuffer p x))]
  rfl

end

/-- A bit that does not end the decode was one to consume (R189). -/
theorem rem_of_unpackBit_go {b : Bool} {base : Nat} {s t : State} (h : unpackBit b base s = .go t) :
    t.rem.toNat + 1 = s.rem.toNat := by
  have hrem : s.rem ≠ 0#40 ∧ t.rem = s.rem - 1#40 := by
    rcases unpackBit_cases b base s with ⟨-, e⟩ | ⟨-, -, e⟩ | ⟨h0, -, -, e⟩ | ⟨-, -, -, -, e⟩ |
      ⟨h0, -, -, -, ⟨-, -, e⟩ | ⟨-, -, e⟩ | ⟨-, e⟩⟩
    all_goals
      rw [e] at h
      cases h
    all_goals exact ⟨h0, rfl⟩
  obtain ⟨h0, hrem⟩ := hrem
  rw [hrem]
  bv_omega

theorem rem_of_unpackStep_go {base i : Nat} {s t : State} (h : unpackStep base i s = .go t) :
    t.rem.toNat + 1 = s.rem.toNat :=
  rem_of_unpackBit_go (s := { s with bitIdx := BitVec.ofNat 6 i, shReg := s.shReg <<< 1 }) h

theorem shReg_of_unpackStep_go {base i : Nat} {s t : State} (h : unpackStep base i s = .go t) :
    t.shReg = s.shReg <<< 1 :=
  unpackBit_go_shReg h

/-- The lanes of a word from lane `i` on, on two buffers whose words `w`, `w'` agree in the lanes to be consumed. -/
theorem lanes_withBuffer (p : List (Nat × PackWord)) (base : Nat) (w w' : PackWord) (n : Nat) : ∀ (i : Nat) (s : State),
    i + n ≤ 64 → s.shReg = w <<< i →
    (∀ j, j < 64 → j < i + s.rem.toNat → w'.getLsbD (63 - j) = w.getLsbD (63 - j)) →
    ∃ x, loopFlow n i (unpackStep base) (withBuffer p (w' <<< i) s) =
      (loopFlow n i (unpackStep base) s).map (withBuffer p x) := by
  induction n with
  | zero => exact fun i s _ _ _ => ⟨_, rfl⟩
  | succ n ih =>
    intro i s hi hs hagree
    have hstep : unpackStep base i (withBuffer p (w' <<< i) s) =
        (unpackStep base i s).map (withBuffer p (w' <<< (i + 1))) := by
      have hmsb : s.rem ≠ 0#40 → (w' <<< i).msb = s.shReg.msb := fun hrem => by
        rw [hs, msb_shiftLeft_eq w (by omega), msb_shiftLeft_eq w' (by omega)]
        exact hagree i (by omega) (by bv_omega)
      rw [BitVec.shiftLeft_add]
      exact unpackBit_withBuffer p _ base (s := { s with bitIdx := BitVec.ofNat 6 i, shReg := s.shReg <<< 1 }) hmsb
    rw [loopFlow_succ, loopFlow_succ, hstep]
    cases ht : unpackStep base i s with
    | stop e t => exact ⟨_, rfl⟩
    | go t =>
      have hrem := rem_of_unpackStep_go ht
      refine ih (i + 1) t (by omega) ?_ fun j hj hlt => hagree j hj (by omega)
      rw [shReg_of_unpackStep_go ht, hs, BitVec.shiftLeft_add]

/-- A word that does not end the decode took 64 bits, and none of it changed the buffer. -/
theorem unpackWord_go {base w : Nat} {s t : State} (h : unpackWord base w s = .go t) :
    t.rem.toNat + 64 = s.rem.toNat ∧ t.pack = s.pack := by
  have hlanes := sat_loopFlow (f := unpackStep base) (Q := fun _ _ => True)
    (fun i u => u.rem.toNat + i = s.rem.toNat ∧ u.pack = s.pack) 64 0
    (fun i u _ _ ⟨hr, hp⟩ => by
      have hframe := unpackStep_frame base i u
      cases hv : unpackStep base i u with
      | stop e v => trivial
      | go v =>
        have hrem := rem_of_unpackStep_go hv
        rw [hv] at hframe
        exact ⟨by omega, hframe.pack_eq.trans hp⟩)
    { s with wIdx := BitVec.ofNat 34 w, shReg := s.packAt w } ⟨rfl, rfl⟩
  unfold unpackWord at h
  cases hx : loopFlow 64 0 (unpackStep base) { s with wIdx := BitVec.ofNat 34 w, shReg := s.packAt w } with
  | stop e u =>
    rw [hx] at h
    cases h
  | go u =>
    rw [hx] at h hlanes
    cases h
    exact hlanes

/-- The words from word `w` on, on two buffers that agree in the stream bits to be consumed. -/
theorem words_withBuffer (p : List (Nat × PackWord)) (base n : Nat) : ∀ (w : Nat) (x : PackWord) (s : State),
    (∀ k, k < 64 * w + s.rem.toNat → (withBuffer p x s).streamBit k = s.streamBit k) →
    ∃ x', loopFlow n w (unpackWord base) (withBuffer p x s) =
      (loopFlow n w (unpackWord base) s).map (withBuffer p x') := by
  induction n with
  | zero => exact fun w x s _ => ⟨_, rfl⟩
  | succ n ih =>
    intro w x s hagree
    have hword : ∃ x', unpackWord base w (withBuffer p x s) = (unpackWord base w s).map (withBuffer p x') := by
      obtain ⟨x', hx'⟩ := lanes_withBuffer p base (s.packAt w) ((withBuffer p x s).packAt w) 64 0
        { s with wIdx := BitVec.ofNat 34 w, shReg := s.packAt w } (Nat.le_refl 64) (by simp) fun j hj hlt => by
          have hbit := hagree (64 * w + j) (by simpa using hlt)
          rwa [State.streamBit, State.streamBit, show (64 * w + j) / 64 = w by omega,
            show (64 * w + j) % 64 = j by omega] at hbit
      rw [BitVec.shiftLeft_zero] at hx'
      exact ⟨x', (congrArg (Flow.andThen · _) hx').trans (Flow.map_andThen (fun _ => rfl) _)⟩
    obtain ⟨x', hx'⟩ := hword
    rw [loopFlow_succ, loopFlow_succ, hx']
    cases ht : unpackWord base w s with
    | stop e t => exact ⟨_, rfl⟩
    | go t =>
      obtain ⟨hrem, hpack⟩ := unpackWord_go ht
      refine ih (w + 1) x' t fun k hk => ?_
      have hbit := hagree k (by omega)
      rw [streamBit_congr hpack, ← hbit]
      rfl

/-- UNPACK on two buffers that agree below BITCNT. -/
theorem unpack_withBuffer (p : List (Nat × PackWord)) (base : Nat) {x : PackWord} {s : State}
    (hagree : ∀ k, k < s.bitCnt.toNat → (withBuffer p x s).streamBit k = s.streamBit k) :
    ∃ x', unpack base (withBuffer p x s) = (unpack base s).map (withBuffer p x') := by
  obtain ⟨x', hx'⟩ := words_withBuffer p base s.wordCnt.toNat 0 x { unpackInit s with wIdx := 0#34 } fun k hk =>
    hagree k (by simpa [unpackInit] using hk)
  exact ⟨x', (congrArg (Flow.andThen · _) hx').trans (Flow.map_andThen (unpackExhaust_withBuffer p x') _)⟩

theorem decodeFrom_withBuffer {p : List (Nat × PackWord)} (base : Nat) {x : PackWord} {s : State}
    (hf : s.faulted = false) (hm : Memory.wf s = true) (hm' : Memory.wf (withBuffer p x s) = true)
    (hagree : ∀ k, k < s.bitCnt.toNat → (withBuffer p x s).streamBit k = s.streamBit k) :
    ∃ x', decodeFrom base (withBuffer p x s) = (decodeFrom base s).map (withBuffer p x') := by
  cases hp : s.present with
  | false => exact ⟨x, by rw [decodeFrom_absent base hp, decodeFrom_absent base (s := withBuffer p x s) hp]; rfl⟩
  | true =>
    have hp' : (withBuffer p x s).present = true := hp
    by_cases ho : s.outCap.toNat < base + s.origLen.toNat
    · exact ⟨x, by rw [decodeFrom_outCap hp ho, decodeFrom_outCap hp' ho]; rfl⟩
    have hroom := Nat.not_lt.1 ho
    by_cases hc : s.packCap < s.wordCnt
    · exact ⟨x, by rw [decodeFrom_packCap hp hroom hc, decodeFrom_packCap hp' hroom hc]; rfl⟩
    have hready : DecodeReady base s := ⟨hf, hp, hroom, BitVec.not_lt.1 hc, hm⟩
    have hready' : DecodeReady base (withBuffer p x s) := ⟨hf, hp, hroom, BitVec.not_lt.1 hc, hm'⟩
    rw [decodeFrom_eq_unpack hready, decodeFrom_eq_unpack hready']
    exact unpack_withBuffer p base hagree

theorem conclude_withBuffer (p : List (Nat × PackWord)) (x : PackWord) {y : Flow} {t : State}
    (h : conclude y = .next t) : conclude (y.map (withBuffer p x)) = .next (withBuffer p x t) := by
  cases y with
  | go s => cases h; rfl
  | stop e s =>
    cases e with
    | undef r => cases h
    | done | refuse c | fail c | fatal f => cases h; rfl

theorem advanceFill_withBuffer (p : List (Nat × PackWord)) (x : PackWord) (y : Flow) :
    advanceFill (y.map (withBuffer p x)) = (advanceFill y).map (withBuffer p x) := by
  cases y with
  | go s => rfl
  | stop e s => cases e <;> rfl

/-- DECODE and DECODEA act alike on two buffers that agree below BITCNT. -/
theorem exec_decode_withBuffer {i : Instr} (hi : i ∈ [Instr.decode, .decodea]) {p : List (Nat × PackWord)}
    {x : PackWord} {s t : State} (hf : s.faulted = false) (hm : Memory.wf s = true)
    (hm' : Memory.wf (withBuffer p x s) = true) (h : exec i s = .next t)
    (hagree : ∀ k, k < s.bitCnt.toNat → (withBuffer p x s).streamBit k = s.streamBit k) :
    ∃ x', exec i (withBuffer p x s) = .next (withBuffer p x' t) := by
  have hf' : (withBuffer p x s).faulted = false := hf
  obtain rfl | rfl : i = .decode ∨ i = .decodea := by simpa using hi
  · obtain ⟨x', hx'⟩ := decodeFrom_withBuffer 0 hf hm hm' hagree
    have hend := conclude_withBuffer p x' ((execDecode_of hf).symm.trans h)
    rw [← hx'] at hend
    exact ⟨x', (execDecode_of hf').trans hend⟩
  · obtain ⟨x', hx'⟩ := decodeFrom_withBuffer s.outFill.toNat hf hm hm' hagree
    cases hp : s.present with
    | false =>
      have hend := conclude_withBuffer p x' ((execDecodea_of_absent hf hp).symm.trans h)
      rw [← hx'] at hend
      exact ⟨x', (execDecodea_of_absent (s := withBuffer p x s) hf' hp).trans hend⟩
    | true =>
      have hend := conclude_withBuffer p x' ((execDecodea_of_present hf hp).symm.trans h)
      rw [← advanceFill_withBuffer, ← hx'] at hend
      exact ⟨x', (execDecodea_of_present (s := withBuffer p x s) hf' hp).trans hend⟩

/-- Settles O46: the common part of the two commands writes inside the destination alone, and the buffer above BITCNT commutes
with it. -/
theorem corruptionNeverOverruns : Obligations.CorruptionNeverOverruns := by
  intro s hf hm i hi
  obtain ⟨t, ht, hpost⟩ := exec_post i s hm hf
  obtain ⟨e, u, hu, hframe, hout⟩ := decodeFrom_out (decodeBase i s) hf hm
  have hstores := stores_of_exec_decode hi hf ht
  rw [hu, Flow.state_stop] at hstores
  have hkept : u.stores = { s with out := u.out }.stores := by rw [hframe]; rfl
  obtain ⟨hinp, houtEq, hpack, hnode, hfreq, hlut⟩ :
      t.inp = s.inp ∧ t.out = u.out ∧ t.pack = s.pack ∧ t.node = s.node ∧ t.freq = s.freq ∧ t.lut = s.lut := by
    simpa [State.stores] using hstores.trans hkept
  have hbyte : ∀ j, ¬ (decodeBase i s ≤ j ∧ j < decodeBase i s + s.origLen.toNat) → t.outAt j = s.outAt j := fun j hj => by
    rw [← hout j hj, State.outAt, State.outAt, houtEq]
  obtain ⟨-, hnoFatal⟩ := hpost.ca
  refine ⟨t, ht, fun j hj => hbyte j fun ⟨_, hlt⟩ => Nat.not_lt.2 hj hlt, fun j hj hlt => hbyte j fun ⟨hle, _⟩ => ?_,
    hinp, hpack, hnode, hfreq, hlut, hpost.flt, hpost.fc, hnoFatal, fun s' hm' hs' hagree => ?_⟩
  · rw [decodeBase, if_pos hj] at hle
    omega
  · have hs' : s' = withBuffer s'.pack s.shReg s := hs'
    obtain ⟨x', hx'⟩ := exec_decode_withBuffer hi hf hm (hs' ▸ hm') ht fun k hk => hs' ▸ hagree k hk
    rw [← hs'] at hx'
    exact ⟨_, hx', rfl⟩

end Sys2Proof.Machine

/-! ## The round trip (R230 to R232)

The packed stream of a blob is the paths of the input's leaves, so the decoder emits the input. -/

namespace Sys2Proof.Machine

/-- A blob ENCODE made has its stream in PACK: its words fit. -/
theorem Encodes.wordCnt_le {s t : State} (h : Encodes s t) : t.wordCnt ≤ s.packCap := by
  have ⟨hready, he, hp⟩ := h
  obtain ⟨u, hu, -, hfull⟩ := encodeSucceedsExactlyWhenItFits s hready
  cases hu.symm.trans he
  obtain ⟨T, henc⟩ := encodes_spec h
  have hfits : bitsOf t s.input ≤ 64 * s.packCap.toNat := by
    by_contra hlong
    obtain ⟨habsent, -⟩ := hfull (Nat.not_le.1 hlong)
    rw [hp] at habsent
    cases habsent
  have hwords := henc.wordCnt
  rw [length_streamOf] at hwords
  rw [BitVec.le_def]
  omega

/-- Such a blob can be decoded wherever the input fits OUT. -/
theorem Encodes.decodeReady {s t : State} {base : Nat} (h : Encodes s t) (hroom : base + s.len.toNat ≤ s.outCap.toNat) :
    DecodeReady base t := by
  have ⟨hready, he, hp⟩ := h
  have ⟨_, _, _, _, hm⟩ := hready
  obtain ⟨T, henc⟩ := encodes_spec h
  obtain ⟨-, -, -, hf⟩ := henc.flags
  obtain ⟨hframe, -⟩ := encodeFrame s t hm he
  obtain ⟨u, hu, hwf, -⟩ := execEncode_post hready
  cases hu.symm.trans he
  have hwords := h.wordCnt_le
  have hout : t.outCap = s.outCap := by rw [hframe]
  have hpack : t.packCap = s.packCap := by rw [hframe]
  exact ⟨hf, hp, by rw [henc.orig, hout]; exact hroom, by rw [hpack]; exact hwords, hwf⟩

/-- The decoder emits the input from a blob ENCODE made (R198, R230). -/
theorem Encodes.decoded_eq {s t : State} (h : Encodes s t) (hroom : s.len ≤ s.outCap) :
    t.decoded.cause = .none ∧ t.decoded.out = s.input := by
  have hready : DecodeReady 0 t := h.decodeReady (by rw [Nat.zero_add]; exact hroom)
  obtain ⟨T, henc⟩ := encodes_spec h
  have ⟨⟨_, _, hlen, _⟩, _⟩ := h
  obtain ⟨hstream, -⟩ := streamIsTheCodesInOrder s t h
  have hpaths : ∀ x ∈ s.input, GoodPath t (t.lutAt x, codeBits (t.codeOf x)) := fun x hx => by
    obtain ⟨hpath, -⟩ := henc.coded.goodPath henc.tabled hx
    exact hpath
  have hsym : ∀ x ∈ s.input, (t.nodeAt (t.lutAt x)).sym = x := fun x hx => by
    obtain ⟨-, hsym⟩ := henc.coded.goodPath henc.tabled hx
    exact hsym
  have hcount : (s.input.map fun x => (t.lutAt x, codeBits (t.codeOf x))).length = t.origLen.toNat := by
    rw [List.length_map, length_input, henc.orig]
  obtain ⟨u, hu, -, hcause, houtPos, -, -, hbytes, -⟩ :=
    decodeOfPathsSucceeds t (s.input.map fun x => (t.lutAt x, codeBits (t.codeOf x))) hready
      (by simpa using input_ne_nil hlen) (List.forall_mem_map.2 hpaths) hcount henc.bitCnt_le
      (by rw [hstream, List.flatMap_map]; rfl)
  obtain ⟨v, hv, hanswer⟩ := exec_decode_answer hready
  cases hv.symm.trans hu
  have hlength : t.decoded.out.length = s.input.length := by
    rw [← hanswer.count, houtPos, henc.orig, length_input]
  refine ⟨hanswer.cause.symm.trans hcause, List.ext_getElem hlength fun i hi hi' => ?_⟩
  have hbyte := hanswer.bytes i
  rw [if_pos (by omega), Nat.sub_zero, List.getD_eq_getElem _ _ hi, hbytes i (by simpa using hi'), List.getElem_map] at hbyte
  exact hbyte.symm.trans (hsym _ (List.getElem_mem hi'))

theorem getD_input {s : State} {i : Nat} (hi : i < s.len.toNat) : s.input.getD i 0#8 = s.inAt i := by
  rw [List.getD_eq_getElem _ _ (by simpa using hi)]
  simp only [State.input, List.getElem_map, List.getElem_range]

/-- DECODE gives the input back where OUT has room (R230). -/
theorem Encodes.decode {s t : State} (h : Encodes s t) (hroom : s.len ≤ s.outCap) :
    ∃ u, exec .decode t = .next u ∧ u.ok = true ∧ ∀ i, i < s.len.toNat → u.outAt i = s.inAt i := by
  obtain ⟨hcause, hout⟩ := h.decoded_eq hroom
  obtain ⟨u, hu, hanswer⟩ := exec_decode_answer (h.decodeReady (by rw [Nat.zero_add]; exact hroom))
  refine ⟨u, hu, by rw [hanswer.ok, hcause]; rfl, fun i hi => ?_⟩
  have hbyte := hanswer.bytes i
  rw [hout, length_input, if_pos (by omega), Nat.sub_zero, getD_input hi] at hbyte
  exact hbyte

/-- DECODEA gives the input back behind what OUT holds already, and counts it in (R230). -/
theorem Encodes.decodea {s t : State} (h : Encodes s t) (hroom : s.outFill.toNat + s.len.toNat ≤ s.outCap.toNat) :
    ∃ u, exec .decodea t = .next u ∧ u.ok = true ∧ u.outFill.toNat = s.outFill.toNat + s.len.toNat ∧
      ∀ i, i < s.len.toNat → u.outAt (s.outFill.toNat + i) = s.inAt i := by
  have ⟨⟨_, _, _, _, hm⟩, he, _⟩ := h
  obtain ⟨hcause, hout⟩ := h.decoded_eq (BitVec.le_def.2 (by omega))
  obtain ⟨T, henc⟩ := encodes_spec h
  obtain ⟨hframe, -⟩ := encodeFrame s t hm he
  have hfill : t.outFill = s.outFill := by rw [hframe]
  have hready : DecodeReady t.outFill.toNat t := h.decodeReady (by rw [hfill]; exact hroom)
  have ⟨hf, _, _, _, hwf⟩ := hready
  obtain ⟨-, hall⟩ := decodeaAppends
  obtain ⟨-, -, -, hdecodea⟩ := hall t hf hwf
  obtain ⟨u, hu, heq, hufill, hbytes⟩ := hdecodea hready
  rw [hcause, if_pos rfl, hfill, henc.orig] at hufill
  refine ⟨u, hu, by rw [heq, hcause]; rfl, hufill, fun i hi => ?_⟩
  have hbyte := hbytes (s.outFill.toNat + i)
  rw [hout, hfill, length_input, if_pos (by omega), Nat.add_sub_cancel_left, getD_input hi] at hbyte
  exact hbyte

/-- Settles O50: ENCODE succeeds where the stream fits, and then each of the three commands finds the input's blob. -/
theorem roundTrip : Obligations.RoundTrip := by
  intro s hready
  obtain ⟨t, ht, hfits, -⟩ := encodeSucceedsExactlyWhenItFits s hready
  refine ⟨t, ht, fun hbits => ?_⟩
  obtain ⟨hpresent, hok, -⟩ := hfits hbits
  have henc : Encodes s t := ⟨hready, ht, hpresent⟩
  obtain ⟨-, -, holen⟩ := olenResult
  exact ⟨hok, henc.decode, henc.decodea, _, holen s t henc, hok, rfl⟩

/-! ### One byte value repeated (R232) -/

theorem mem_input_iff (s : State) (x : Sym) : x ∈ s.input ↔ ∃ i, i < s.len.toNat ∧ s.inAt i = x := by
  simp [State.input]

theorem input_eq_replicate {s : State} {x : Sym} (h : ∀ i, i < s.len.toNat → s.inAt i = x) :
    s.input = List.replicate s.len.toNat x := by
  refine List.eq_replicate_iff.2 ⟨length_input s, fun y hy => ?_⟩
  obtain ⟨i, hi, rfl⟩ := (mem_input_iff s y).1 hy
  exact h i hi

/-- An input of one byte value has one present symbol. -/
theorem Coded.presentSyms_of_replicate {s f : State} {T : Tree} (h : Coded s f T) {x : Sym} (hlen : s.len ≠ 0#32)
    (hx : s.input = List.replicate s.len.toNat x) : presentSyms f.freqAt = [x] := by
  have hpos : s.len.toNat ≠ 0 := fun e => hlen (BitVec.eq_of_toNat_eq e)
  refine List.perm_singleton.1 ((List.perm_ext_iff_of_nodup (nodup_presentSyms _) (List.nodup_singleton x)).2 fun y => ?_)
  rw [mem_presentSyms, present_iff_mem h.freq, hx, List.mem_replicate, List.mem_singleton]
  exact and_iff_right hpos

/-- With one present symbol the code of every input byte is the one bit 0 (R152). -/
theorem Coded.codeBits_of_sole {s f : State} {T : Tree} (h : Coded s f T) (ht : Tabled f T)
    (h1 : (presentSyms f.freqAt).length = 1) {x : Sym} (hx : x ∈ s.input) : codeBits (f.codeOf x) = [false] := by
  obtain ⟨p, hp, -, -, hbits⟩ := codeOf_spec h ht hx
  obtain ⟨-, rfl, -⟩ | ⟨h2, -⟩ := h.shape
  · rw [hbits, List.mem_singleton.1 hp]
  · omega

/-- So the stream is as many zero bits as there are input bytes. -/
theorem Coded.streamOf_of_sole {s f : State} {T : Tree} (h : Coded s f T) (ht : Tabled f T)
    (h1 : (presentSyms f.freqAt).length = 1) : streamOf f s.input = List.replicate s.len.toNat false := by
  calc streamOf f s.input
      = s.input.flatMap fun _ => [false] := List.flatMap_congr fun x hx => h.codeBits_of_sole ht h1 hx
    _ = s.input.map fun _ => false := List.map_eq_flatMap.symm
    _ = List.replicate s.len.toNat false := by rw [List.map_const', length_input]

/-- ENCODE of one byte value repeated succeeds where as many bits fit PACK, and its tree has one leaf. -/
theorem encodes_of_replicate {s : State} {x : Sym} (hready : EncodeReady s)
    (hx : s.input = List.replicate s.len.toNat x) (hroom : (s.len.toNat + 63) / 64 ≤ s.packCap.toNat) :
    ∃ t, Encodes s t ∧ t.distinct = 1 := by
  have ⟨_, _, hlen, _⟩ := hready
  obtain ⟨f, T, hc, ht, -, -, ⟨-, u, hu, -⟩ | ⟨hfull, -⟩⟩ := execEncode_ready hready
  · have henc : Encodes s (encodeSuccess u) := ⟨hready, hu, rfl⟩
    obtain ⟨_, h⟩ := encodes_spec henc
    exact ⟨_, henc, congrArg List.length (h.coded.presentSyms_of_replicate hlen hx)⟩
  · have hsole := congrArg List.length (hc.presentSyms_of_replicate hlen hx)
    rw [hc.streamOf_of_sole ht hsole, List.length_replicate] at hfull
    omega

/-- What the blob of one byte value repeated looks like (R232). -/
theorem Encoded.of_sole {s t : State} {T : Tree} (h : Encoded s t T) (h1 : t.distinct = 1) {x : Sym} (hx : x ∈ s.input) :
    (t.codeOf x).clen = 1#8 ∧ (t.codeOf x).pat = 0#255 ∧ t.bitCnt.toNat = s.len.toNat ∧
      t.wordCnt.toNat = (s.len.toNat + 63) / 64 ∧ ∀ k, k < 64 * t.wordCnt.toNat → t.streamBit k = false := by
  have hstream := h.coded.streamOf_of_sole h.tabled h1
  obtain ⟨n, hn, hcode, -⟩ := h.leaf_of_mem hx
  obtain rfl : n = 0#9 := BitVec.eq_of_toNat_eq (by show n.toNat = 0; omega)
  obtain ⟨hclen, hpat⟩ := h.sole_code h1
  rw [hcode]
  refine ⟨hclen, hpat, by rw [h.bitCnt, hstream, List.length_replicate],
    by rw [h.wordCnt, hstream, List.length_replicate], fun k hk => ?_⟩
  rw [h.streamBit_eq hk, hstream, List.getElem?_replicate]
  split_ifs <;> rfl

/-- Settles O39: the synthetic root over the sole leaf gives every byte the one bit 0, and the round trip is that of any input. -/
theorem singleSymbolInput : Obligations.SingleSymbolInput := by
  refine ⟨fun s x hready hin hroom => ?_, fun s t henc n hn => ?_⟩
  · have hx := input_eq_replicate hin
    obtain ⟨t, henc, h1⟩ := encodes_of_replicate hready hx hroom
    obtain ⟨T, h⟩ := encodes_spec henc
    obtain ⟨hpresent, hok, -⟩ := h.flags
    obtain ⟨-, hn, -⟩ := h.single h1
    have hmem : x ∈ s.input := (mem_input_iff s x).2 ⟨0, hready.len_pos, hin 0 hready.len_pos⟩
    obtain ⟨hclen, hpat, hbits, hwords, hzero⟩ := h.of_sole h1 hmem
    have ⟨_, hexec, _⟩ := henc
    refine ⟨t, hexec, hok, hpresent, hn, hclen, hpat, hbits, hwords, hzero, fun hout => ?_⟩
    obtain ⟨u, hu, huok, hbytes⟩ := henc.decode hout
    exact ⟨u, hu, huok, fun i hi => (hbytes i hi).trans (hin i hi)⟩
  · obtain ⟨hcodes, -⟩ := codesArePaths s t henc
    obtain ⟨hpos, -⟩ := hcodes n hn
    exact hpos

/-! ### The empty input (R231) -/

/-- Settles O51: ENCODE of nothing only sets the flags, and on the absent blob each command takes its short way. -/
theorem emptyInputIsTheAbsentBlob : Obligations.EmptyInputIsTheAbsentBlob := by
  intro s hf hp hlen
  exact ⟨_, execEncode_empty hf hp hlen, rfl, hp, ⟨_, exec_decode_absent hf hp, rfl, rfl, rfl⟩,
    ⟨_, exec_olen_of_absent hf hp, rfl⟩, exec_release_of_absent hf hp⟩

end Sys2Proof.Machine

/-! ## After reset (R270 to R275)

`AtReset` fixes every register of the block and leaves the stores and the hidden registers open, so a fact about the fixed ones is
evaluated on `State.reset` with the open fields replaced. -/

namespace Sys2Proof.Machine

theorem atReset_reset : AtReset State.reset := ⟨rfl, rfl⟩

theorem atReset_applyReset (s : State) : AtReset (applyReset s) := ⟨Memory.wf_applyReset s, rfl⟩

section
variable {s : State} (h : AtReset s)
include h

theorem AtReset.present : s.present = false := congrArg State.present h.2
theorem AtReset.ok : s.ok = false := congrArg State.ok h.2
theorem AtReset.faulted : s.faulted = false := congrArg State.faulted h.2
theorem AtReset.cause : s.cause = .none := congrArg State.cause h.2
theorem AtReset.fcode : s.fcode = .none := congrArg State.fcode h.2
theorem AtReset.len : s.len = 0#32 := congrArg State.len h.2
theorem AtReset.outPos : s.outPos = 0#32 := congrArg State.outPos h.2
theorem AtReset.seq : s.seq = .idle := congrArg State.seq h.2

/-- STATUS reads 0 (R271). -/
theorem AtReset.statusWord_eq : statusWord s = 0x0000#16 := by
  rw [statusWord, h.fcode, h.cause, h.faulted, h.ok, h.present]
  rfl

/-- The registers do not depend on the fields reset leaves open (R272). -/
theorem AtReset.csrValue_eq (r : Csr) : s.csrValue r = State.reset.csrValue r := by
  rw [h.2]
  cases r <;> rfl

theorem AtReset.hostRead_eq (r : Csr) {n : Nat} (hn : Csr.ofNumber n = some r) :
    hostRead s 0 n = State.reset.csrValue r :=
  (hostRead_csr r hn s).trans (h.csrValue_eq r)

/-! ### Operations that find what they would write -/

theorem AtReset.enter_idle_eq : s.enter .idle = s := by
  rw [h.2]
  rfl

theorem AtReset.clearBlob_eq : clearBlob s = s := by
  rw [h.2]
  rfl

theorem AtReset.absentDecode_eq : absentDecode s = s := by
  rw [h.2]
  rfl

theorem AtReset.succeed_eq : succeed s = { s with ok := true } := by
  rw [succeed, ← h.cause]

theorem AtReset.succeed_outPos_eq : succeed s = { s with ok := true, outPos := 0#32 } := by
  rw [← h.outPos, h.succeed_eq]

theorem AtReset.succeed_result_eq : succeed { s with result := 0#32 } = { s with ok := true, result := 0#32 } := by
  rw [succeed, ← h.cause]

end

/-- Settles O6: each register is read through the port and evaluated on `State.reset`. -/
theorem resetRegisters : Obligations.ResetRegisters :=
  ⟨atReset_reset, fun _ h => ⟨h.hostRead_eq .id rfl, h.hostRead_eq .cmd rfl, h.hostRead_eq .status rfl,
    h.hostRead_eq .len rfl, h.hostRead_eq .origLen rfl, h.hostRead_eq .bitCnt rfl, h.hostRead_eq .wordCnt rfl,
    h.hostRead_eq .root rfl, h.hostRead_eq .blobCtl rfl, h.hostRead_eq .outFill rfl, h.hostRead_eq .result rfl,
    h.hostRead_eq .rem rfl, h.hostRead_eq .outPos rfl, h.hostRead_eq .pos rfl, h.seq, h.clearBlob_eq⟩⟩

/-- Settles O8: the step is `applyReset`, which changes neither the host's list nor the open parameters. -/
theorem resetInputRestoresRegisters : Obligations.ResetInputRestoresRegisters :=
  fun _ _ h => ⟨_, step_of_script_cons h, atReset_applyReset _, rfl, rfl, rfl, rfl, rfl, rfl⟩

/-- Settles O9: no blob is held and LEN is 0, so every command takes its short way. -/
theorem firstCommandsAfterReset : Obligations.FirstCommandsAfterReset := by
  intro s h
  have hf := h.faulted
  have hp := h.present
  have hdecode : succeed ((absentDecode s).enter .idle) = { s with ok := true, outPos := 0#32 } := by
    rw [h.absentDecode_eq, h.enter_idle_eq, h.succeed_outPos_eq]
  refine ⟨?_, ?_, ?_, ?_, ?_⟩
  · rw [exec_olen_of_absent hf hp, h.succeed_result_eq]
  · rw [exec_decode_absent hf hp, hdecode]
  · rw [exec_decodea_absent hf hp, hdecode]
  · rw [exec_release_of_absent hf hp, h.succeed_eq]
  · rw [show exec .encode s = execEncode s from rfl, execEncode_empty hf hp h.len, h.enter_idle_eq, h.succeed_eq]

end Sys2Proof.Machine

/-! ## The invariant of every run (R246)

A step is one action of the host, and an action is a word written to CMD, a store to one element, an access that changes no
register, or RESET. -/

namespace Sys2Proof.Machine

/-- What a write of the host that is answered does: it names no element and changes nothing, or it writes CMD and runs
CommandWrite, or it stores to its element. -/
theorem hostWrite_inversion {space index v : Nat} {s t : State} (h : hostWrite space index v s = .next t) :
    (s.element space index = none ∧ t = s) ∨
    (s.element space index = some (.csr .cmd) ∧ commandWrite (BitVec.ofNat 32 v) s = .next t) ∨
    (∃ e, s.element space index = some e ∧ e ≠ .csr .cmd ∧ v < 2 ^ e.width ∧ t = s.store e v) := by
  cases he : s.element space index with
  | none =>
    cases (hostWrite_of_element_none he v).symm.trans h
    exact .inl ⟨rfl, rfl⟩
  | some e =>
    by_cases hv : v < 2 ^ e.width
    case neg => cases (tooWideValueRefused s space index v e he (Nat.not_lt.1 hv)).symm.trans h
    by_cases hcmd : e = .csr .cmd
    · subst hcmd
      exact .inr (.inl ⟨rfl, (hostWrite_eq_writeElement he hv).symm.trans h⟩)
    · cases (hostWrite_eq_store he hcmd hv).symm.trans h
      exact .inr (.inr ⟨e, rfl, hcmd, hv, rfl⟩)

theorem AtReset.inv {s : State} (h : AtReset s) : Inv s where
  memory := h.1
  idle := h.seq
  sound := h.faulted
  noFatal := h.fcode
  causes := by simp [h.cause]
  okCause := fun _ => h.cause

theorem Inv.store {s : State} (h : Inv s) {space index : Nat} {e : Element} (he : s.element space index = some e)
    (v : Nat) : Inv (s.store e v) := by
  obtain ⟨hseq, hfaulted, hfcode, hcause, hok⟩ := store_flags s e v
  exact ⟨Memory.wf_store h.memory he v, hseq.trans h.idle, hfaulted.trans h.sound, hfcode.trans h.noFatal,
    hcause ▸ h.causes, fun ho => hcause.trans (h.okCause (hok ▸ ho))⟩

/-- The value the host read and the host's list are no part of the invariant. -/
theorem Inv.setHost {s : State} (h : Inv s) (x : BitVec 255) (rest : List HostAction) :
    Inv { s with readVal := x, script := rest } :=
  ⟨h.memory, h.idle, h.sound, h.noFatal, h.causes, h.okCause⟩

theorem inv_of_hostWrite {space index v : Nat} {s t : State} (h : Inv s) (hw : hostWrite space index v s = .next t) :
    Inv t := by
  obtain ⟨-, rfl⟩ | ⟨-, hcmd⟩ | ⟨e, he, -, -, rfl⟩ := hostWrite_inversion hw
  · exact h
  · exact inv_cmd h _ hcmd
  · exact h.store he v

theorem inv_of_act {a : HostAction} {s t : State} (h : Inv s) (ha : act a s = .next t) : Inv t := by
  cases a with
  | read space index =>
    cases ha
    exact h.setHost _ s.script
  | write space index v => exact inv_of_hostWrite h ha
  | reset =>
    cases ha
    exact (atReset_applyReset s).inv

/-- Settles O58: by the action the step takes, if any. -/
theorem stepKeepsInvariant : Obligations.StepKeepsInvariant := by
  intro s t h hstep
  cases hscript : s.script with
  | nil =>
    cases (step_of_script_nil hscript).symm.trans hstep
    exact h
  | cons a rest =>
    exact inv_of_act (h.setHost s.readVal rest) ((step_of_script_cons hscript).symm.trans hstep)

/-- Settles O57: the flags, the codes and SEQ are among the fields reset fixes. -/
theorem resetMeetsInvariant : Obligations.ResetMeetsInvariant := ⟨atReset_reset, fun _ h => h.inv⟩

theorem Reaches.inv {s t : State} (h : Reaches s t) (hs : Inv s) : Inv t := by
  induction h with
  | start => exact hs
  | more _ hstep ih => exact stepKeepsInvariant _ _ ih hstep

/-- Settles O59: the invariant holds after reset and every step keeps it. -/
theorem noFatalIsReachable : Obligations.NoFatalIsReachable := by
  intro s t hreset hreach
  have ht : Inv t := hreach.inv hreset.inv
  exact ⟨ht.sound, ht.noFatal, ht.causes⟩

end Sys2Proof.Machine

/-! ## FAULTED and the fatal machinery (R245, R249, R255) -/

namespace Sys2Proof.Machine

/-! ### While FAULTED = 1 (R249, R255) -/

theorem fault_kept_by_hostWrite {space index v : Nat} {s t : State} (hf : s.faulted = true)
    (h : hostWrite space index v s = .next t) : t.faulted = true ∧ t.fcode = s.fcode := by
  obtain ⟨-, rfl⟩ | ⟨-, hcmd⟩ | ⟨e, -, -, -, rfl⟩ := hostWrite_inversion h
  · exact ⟨hf, rfl⟩
  · cases (commandWrite_of_faulted hf _).symm.trans hcmd
    exact ⟨hf, rfl⟩
  · obtain ⟨-, hfaulted, hfcode, -⟩ := store_flags s e v
    exact ⟨hfaulted.trans hf, hfcode⟩

/-- Settles O55: a read changes no flag, a write stores to no flag but PRESENT, a command is refused. -/
theorem onlyResetLeavesFaulted : Obligations.OnlyResetLeavesFaulted := by
  intro s t a rest hf hscript hstep
  have hact : act a { s with script := rest } = .next t := (step_of_script_cons hscript).symm.trans hstep
  cases a with
  | read space index =>
    cases hact
    exact ⟨fun _ => ⟨hf, rfl⟩, nofun⟩
  | write space index v => exact ⟨fun _ => fault_kept_by_hostWrite (s := { s with script := rest }) hf hact, nofun⟩
  | reset =>
    cases hact
    exact ⟨absurd rfl, fun _ => ⟨rfl, rfl⟩⟩

/-- Settles O18: one law for each check of R249. -/
theorem orderOfAcceptanceChecks : Obligations.OrderOfAcceptanceChecks := by
  refine fun s => ⟨fun hf w => commandWrite_of_faulted hf w, fun hf => ⟨fun w => commandWrite_of_not_command hf,
    execEncode_held hf, execEncode_tooLong hf, execEncode_empty hf, fun i hi hp => ?_, fun hp =>
    ⟨exec_decode_outCap hf hp, exec_decode_packCap hf hp, exec_decodea_outCap hf hp, exec_decodea_packCap hf hp⟩⟩⟩
  obtain rfl | rfl : i = .decode ∨ i = .decodea := by simpa using hi
  · exact exec_decode_absent hf hp
  · exact exec_decodea_absent hf hp

/-- Settles O52: a FAULTED block refuses the command; otherwise it runs to its own end. -/
theorem everyCommandAnswers : Obligations.EveryCommandAnswers := by
  intro i s hm
  cases hf : s.faulted with
  | true => exact ⟨_, exec_of_faulted hf i, hm⟩
  | false =>
    obtain ⟨t, ht, hpost⟩ := exec_post i s hm hf
    exact ⟨t, ht, hpost.wf⟩

/-! ### The port does not look at FAULTED (R245) -/

theorem Csr.ofNumber_eq_status_iff (n : Nat) : Csr.ofNumber n = some .status ↔ n = 2 := by
  unfold Csr.ofNumber
  split <;> grind

/-- STATUS is the only element that shows FAULTED. -/
theorem value_setFaulted {e : Element} (h : e ≠ .csr .status) (s : State) (b : Bool) :
    ({ s with faulted := b } : State).value e = s.value e := by
  cases e with
  | csr r =>
    cases r with
    | status => exact absurd rfl h
    | _ => rfl
  | _ => rfl

theorem store_setFaulted (s : State) (b : Bool) (e : Element) (v : Nat) :
    ({ s with faulted := b } : State).store e v = { s.store e v with faulted := b } := by
  cases e with
  | csr r => cases r <;> rfl
  | _ => rfl

theorem hostRead_setFaulted (s : State) (b : Bool) (space index : Nat) :
    hostRead { s with faulted := b } space index =
      if space = 0 ∧ index = 2 then (statusWord { s with faulted := b }).setWidth 255 else hostRead s space index := by
  split
  next hstatus =>
    obtain ⟨rfl, rfl⟩ := hstatus
    exact hostRead_status _
  next hother =>
    cases he : s.element space index with
    | none => exact (hostRead_of_element_none he).symm ▸ hostRead_of_element_none he
    | some e =>
      have hne : e ≠ .csr .status := by
        rintro rfl
        obtain ⟨hspace, hn⟩ := (element_eq_csr_iff s space index .status).1 he
        exact hother ⟨hspace, (Csr.ofNumber_eq_status_iff index).1 hn⟩
      rw [hostRead_eq_value he, ← value_setFaulted hne s b]
      exact hostRead_eq_value he

theorem hostWrite_setFaulted {space index v : Nat} {s t : State} (hcmd : space ≠ 0 ∨ index ≠ 1)
    (h : hostWrite space index v s = .next t) (b : Bool) :
    hostWrite space index v { s with faulted := b } = .next { t with faulted := b } := by
  obtain ⟨he, rfl⟩ | ⟨he, -⟩ | ⟨e, he, hne, hv, rfl⟩ := hostWrite_inversion h
  · exact hostWrite_of_element_none (s := { t with faulted := b }) he v
  · obtain ⟨hspace, hn⟩ := (element_eq_csr_iff s space index .cmd).1 he
    have hindex : index = 1 := (Csr.ofNumber_eq_cmd_iff index).1 hn
    exact absurd hspace (hcmd.resolve_right (not_not_intro hindex))
  · exact (hostWrite_eq_store (s := { s with faulted := b }) he hne hv).trans
      (congrArg Host.Outcome.next (store_setFaulted s b e v))

/-! ### Raising a fatal (R153, R169, R245) -/

theorem assignLeaf_of_depth_zero (n : NodeIdx) (pat : Pattern) (s : State) :
    assignLeaf n pat 0#8 s = .stop (.fatal .codeLen0) s :=
  if_pos rfl

theorem assignLeaf_of_coded {n : NodeIdx} {d : CodeLen} {s : State} (hd : d ≠ 0#8) (hc : (s.nodeAt n).clen ≠ 0#8)
    (pat : Pattern) : assignLeaf n pat d s = .stop (.fatal .codeTwice) s := by
  rw [assignLeaf, if_neg hd, if_pos hc]

theorem assignLeaf_of_uncoded {n : NodeIdx} {d : CodeLen} {s : State} (hd : d ≠ 0#8) (hc : (s.nodeAt n).clen = 0#8)
    (pat : Pattern) : assignLeaf n pat d s = .go (s.putNode n { s.nodeAt n with pat := pat, clen := d }) := by
  rw [assignLeaf, if_neg hd, if_neg (not_not_intro hc)]

theorem packSym_of_absent {x : Sym} {s : State} (h : s.lutAt x = absent) :
    packSym x s = .stop (.fatal .noCode) (s.enter .packSym) :=
  if_pos h

/-- Settles O60: `raiseFatal` after the end of the command, the three branches of AssignLeaf, and the port as above. -/
theorem raisingAFatal : Obligations.RaisingAFatal := by
  refine ⟨fun f s => ⟨rfl, conclude_fatal f s⟩, fun n pat d s => ⟨?_, fun hd hc => assignLeaf_of_coded hd hc pat, ?_⟩,
    fun x s h => packSym_of_absent h, fun s w hf => commandWrite_of_faulted hf w, fun s space index v b hcmd =>
    ⟨hostRead_setFaulted s b space index, fun t h => hostWrite_setFaulted hcmd h b⟩⟩
  · rintro rfl
    exact assignLeaf_of_depth_zero n pat s
  · intro hd hc hm
    obtain ⟨-, -, -, hnode, -, -⟩ := (Memory.wf_iff s).1 hm
    refine ⟨_, assignLeaf_of_uncoded hd hc pat, ?_, fun m hmn => ?_, rfl⟩
    · rw [nodeAt_putNode hnode, if_pos rfl]
    · rw [nodeAt_putNode hnode, if_neg hmn]

end Sys2Proof.Machine

/-! ## The flags after a word written to CMD (R30, R210, R271)

OK = 1 goes with CAUSE = 0 in any state, canonical stores or not, because no micro-operation refuses or fails with cause NONE. -/

namespace Sys2Proof.Machine

/-- OK and CAUSE as every end of a command sets them (R210). -/
def State.FlagsAgree (s : State) : Prop := s.ok = true ↔ s.cause = .none

theorem flagsAgree_succeed (s : State) : (succeed s).FlagsAgree := iff_of_true rfl rfl

theorem flagsAgree_report {c : Cause} (hc : c ≠ .none) (s : State) : (report c s).FlagsAgree :=
  iff_of_false Bool.false_ne_true hc

theorem flagsAgree_raiseFatal (f : FCode) (s : State) : (raiseFatal f s).FlagsAgree := iff_of_false nofun nofun

/-- A piece of a command that ends in a refusal or a failure names its cause. An inductive predicate, so that no proof runs the
piece. -/
inductive Flow.NamesCause : Flow → Prop where
  | go (s : State) : NamesCause (.go s)
  | done (s : State) : NamesCause (.stop .done s)
  | refuse {c : Cause} (hc : c ≠ .none) (s : State) : NamesCause (.stop (.refuse c) s)
  | fail {c : Cause} (hc : c ≠ .none) (s : State) : NamesCause (.stop (.fail c) s)
  | fatal (f : FCode) (s : State) : NamesCause (.stop (.fatal f) s)
  | undef (r : Fault) (s : State) : NamesCause (.stop (.undef r) s)

/-! ### Sequencing, loops and the ends of a command -/

theorem Flow.NamesCause.andThen {x : Flow} {f : State → Flow} (hx : x.NamesCause) (hf : ∀ t, (f t).NamesCause) :
    (x.andThen f).NamesCause := by
  cases x with
  | go s => exact hf s
  | stop e s => exact hx

theorem namesCause_loopFlow {f : Nat → State → Flow} (hf : ∀ i t, (f i t).NamesCause) (n : Nat) :
    ∀ (a : Nat) (s : State), (loopFlow n a f s).NamesCause := by
  induction n with
  | zero => exact fun _ s => .go s
  | succ n ih => exact fun a s => (hf a s).andThen (ih (a + 1))

theorem flagsAgree_of_conclude {x : Flow} {t : State} (hx : x.NamesCause) (h : conclude x = .next t) :
    t.FlagsAgree := by
  cases hx with
  | go s | done s => cases h; exact flagsAgree_succeed _
  | refuse hc s | fail hc s => cases h; exact flagsAgree_report hc _
  | fatal f s => cases h; exact flagsAgree_raiseFatal f _
  | undef r s => cases h

theorem flagsAgree_of_accept {s t : State} {run : State → Result} (hrun : run s = .next t → t.FlagsAgree)
    (h : accept s run = .next t) : t.FlagsAgree := by
  cases hf : s.faulted with
  | true =>
    cases (accept_of_faulted hf run).symm.trans h
    exact flagsAgree_report (by decide) s
  | false => exact hrun (accept_of_ready hf run ▸ h)

theorem flagsAgree_of_accept_conclude {body : State → Flow} (hb : ∀ s, (body s).NamesCause) {s t : State}
    (h : accept s (fun u => conclude (body u)) = .next t) : t.FlagsAgree :=
  flagsAgree_of_accept (flagsAgree_of_conclude (hb s)) h

/-! ### The micro-operations of ENCODE -/

theorem namesCause_merge (s : State) : (merge s).NamesCause := by
  unfold merge
  split
  · exact .undef _ _
  · split
    · exact .undef _ _
    · exact .go _

theorem namesCause_wrap (s : State) : (wrap s).NamesCause := by
  unfold wrap
  split
  · exact .undef _ _
  · exact .go _

theorem namesCause_rootsel (s : State) : (rootsel s).NamesCause := by
  unfold rootsel
  split
  · exact .undef _ _
  · exact .go _

theorem namesCause_wrapIfSole (s : State) : (wrapIfSole s).NamesCause := by
  unfold wrapIfSole
  split
  · exact namesCause_wrap s
  · exact .go _

theorem namesCause_mergeLoop (k : Nat) : ∀ s : State, (mergeLoop k s).NamesCause := by
  induction k with
  | zero => exact fun _ => .go _
  | succ k ih =>
    intro s
    unfold mergeLoop
    split
    · exact (namesCause_merge s).andThen ih
    · exact .go _

theorem namesCause_build (s : State) : (build s).NamesCause := by
  unfold build
  -- the loop of QINIT must not be run
  generalize qinit s = q
  dsimp only
  split
  · exact .done _
  · exact ((namesCause_wrapIfSole q).andThen fun t => namesCause_mergeLoop _ t).andThen namesCause_rootsel

theorem namesCause_assignLeaf (n : NodeIdx) (pat : Pattern) (d : CodeLen) (s : State) :
    (assignLeaf n pat d s).NamesCause := by
  unfold assignLeaf
  split_ifs
  · exact .fatal _ _
  · exact .fatal _ _
  · exact .go _

theorem namesCause_visit (k : Nat) : ∀ (n : NodeIdx) (pat : Pattern) (d : CodeLen) (s : State),
    (visit k n pat d s).NamesCause := by
  induction k with
  | zero => exact fun _ _ _ _ => .undef _ _
  | succ k ih =>
    intro n pat d s
    unfold visit
    split
    · exact .go _
    · split
      · exact namesCause_assignLeaf n pat d _
      · exact ((ih _ _ _ _).andThen (ih _ _ _)).andThen fun _ => .go _

theorem namesCause_assign (s : State) : (assign s).NamesCause := namesCause_visit _ _ _ _ _

theorem namesCause_walkLut (k : Nat) : ∀ (n : NodeIdx) (s : State), (walkLut k n s).NamesCause := by
  induction k with
  | zero => exact fun _ _ => .undef _ _
  | succ k ih =>
    intro n s
    unfold walkLut
    split
    · exact .go _
    · split
      · exact .go _
      · exact (ih _ s).andThen (ih _)

theorem namesCause_flatten (s : State) : (flatten s).NamesCause := namesCause_walkLut _ _ _

theorem namesCause_writeWord (s : State) : (writeWord s).NamesCause := by
  unfold writeWord
  split
  · exact .fail (by decide) _
  · exact .go _

theorem namesCause_packBit (b : Bool) (s : State) : (packBit b s).NamesCause := by
  unfold packBit
  split
  · exact (namesCause_writeWord _).andThen fun _ => .go _
  · exact .go _

theorem namesCause_packCode (k : Nat) (p : Pattern) : ∀ s : State, (packCode k p s).NamesCause := by
  induction k with
  | zero => exact fun _ => .go _
  | succ k ih => exact fun s => (namesCause_packBit _ s).andThen ih

theorem namesCause_packByte (i : Nat) (s : State) : (packByte i s).NamesCause := by
  unfold packByte packSym
  split
  · exact .fatal _ _
  · exact namesCause_packCode _ _ _

theorem namesCause_flush (s : State) : (flush s).NamesCause := by
  refine Flow.NamesCause.andThen ?_ fun _ => .go _
  split
  · exact .go _
  · exact namesCause_writeWord _

theorem namesCause_pack (s : State) : (pack s).NamesCause :=
  ((namesCause_flatten s).andThen fun _ => namesCause_loopFlow namesCause_packByte _ _ _).andThen
    namesCause_flush

theorem namesCause_encodePhases (s : State) : (encodePhases s).NamesCause :=
  ((namesCause_build (fcount s)).andThen namesCause_assign).andThen namesCause_pack

theorem namesCause_encodeFinish {x : Flow} (h : x.NamesCause) : (encodeFinish x).NamesCause := by
  cases x with
  | go s => exact .go _
  | stop e s =>
    cases e with
    | fail c => cases h with | fail hc s => exact .fail hc _
    | done | refuse c | fatal f | undef r => exact h

theorem namesCause_encodeBody (s : State) : (encodeBody s).NamesCause := by
  unfold encodeBody
  split_ifs
  · exact .refuse (by decide) _
  · exact .refuse (by decide) _
  · exact .done _
  · exact namesCause_encodeFinish (namesCause_encodePhases s)

/-! ### The micro-operations of DECODE -/

theorem namesCause_unpackLeaf (base : Nat) (s : State) : (unpackLeaf base s).NamesCause := by
  unfold unpackLeaf
  split_ifs
  · exact .fail (by decide) _
  · exact .done _
  · exact .fail (by decide) _
  · exact .go _

theorem namesCause_unpackArrive (base : Nat) (s : State) : (unpackArrive base s).NamesCause := by
  unfold unpackArrive
  split
  · exact .fail (by decide) _
  · split
    · exact namesCause_unpackLeaf base s
    · exact .go _

theorem namesCause_unpackStep (base i : Nat) (s : State) : (unpackStep base i s).NamesCause := by
  unfold unpackStep unpackBit
  split
  · exact .fail (by decide) _
  · exact namesCause_unpackArrive base _

theorem namesCause_unpackWord (base w : Nat) (s : State) : (unpackWord base w s).NamesCause :=
  (namesCause_loopFlow (namesCause_unpackStep base) _ _ _).andThen fun _ => .go _

theorem namesCause_unpackExhaust (s : State) : (unpackExhaust s).NamesCause := by
  unfold unpackExhaust
  split_ifs
  · exact .fail (by decide) _
  · exact .done _
  · exact .fail (by decide) _

theorem namesCause_decodeFrom (base : Nat) (s : State) : (decodeFrom base s).NamesCause := by
  unfold decodeFrom
  split_ifs
  · exact .done _
  · exact .refuse (by decide) _
  · exact .refuse (by decide) _
  · exact (namesCause_loopFlow (namesCause_unpackWord base) _ _ _).andThen namesCause_unpackExhaust

theorem namesCause_advanceFill {x : Flow} (h : x.NamesCause) : (advanceFill x).NamesCause := by
  cases x with
  | go s => exact h
  | stop e s =>
    cases e with
    | done => exact .done _
    | refuse c | fail c | fatal f | undef r => exact h

theorem namesCause_decodeaBody (s : State) : (decodeaBody s).NamesCause := by
  unfold decodeaBody
  split
  · exact namesCause_advanceFill (namesCause_decodeFrom _ s)
  · exact namesCause_decodeFrom _ s

/-! ### The commands -/

theorem flagsAgree_of_execOlen {s t : State} (h : execOlen s = .next t) : t.FlagsAgree := by
  unfold execOlen at h
  exact flagsAgree_of_accept (fun e => by cases e; exact flagsAgree_succeed _) h

theorem flagsAgree_of_execRelease {s t : State} (h : execRelease s = .next t) : t.FlagsAgree := by
  unfold execRelease at h
  exact flagsAgree_of_accept (fun e => by cases e; exact flagsAgree_succeed _) h

theorem flagsAgree_of_exec {i : Instr} {s t : State} (h : exec i s = .next t) : t.FlagsAgree := by
  cases i with
  | encode => exact flagsAgree_of_accept_conclude namesCause_encodeBody h
  | decode => exact flagsAgree_of_accept_conclude (namesCause_decodeFrom 0) h
  | decodea => exact flagsAgree_of_accept_conclude namesCause_decodeaBody h
  | olen => exact flagsAgree_of_execOlen h
  | release => exact flagsAgree_of_execRelease h

theorem flagsAgree_of_commandWrite {w : CmdWord} {s t : State} (h : commandWrite w s = .next t) : t.FlagsAgree := by
  unfold commandWrite at h
  split at h
  · exact flagsAgree_of_exec h
  · exact flagsAgree_of_accept (fun e => by cases e; exact flagsAgree_report (by decide) s) h

theorem Cause.code_eq_zero_iff (c : Cause) : c.code = 0#4 ↔ c = .none := by
  cases c <;> decide

/-- STATUS is 0 only where OK = 0 stands with CAUSE = 0. -/
theorem statusWord_ne_zero {s : State} (h : s.FlagsAgree) : statusWord s ≠ 0x0000#16 := by
  intro hzero
  have hok : s.ok = false := by rw [← statusWord_bit_ok, hzero]; rfl
  have hcause : s.cause = .none := by
    rw [← Cause.code_eq_zero_iff, ← statusWord_cause_field, hzero]
    rfl
  exact Bool.false_ne_true (hok.symm.trans (h.2 hcause))

/-- Settles O7: STATUS after reset is evaluated; after a word written to CMD, OK and CAUSE agree. -/
theorem statusZeroOnlyAfterReset : Obligations.StatusZeroOnlyAfterReset :=
  ⟨fun _ h => ⟨h.present, h.ok, h.faulted, h.cause, h.fcode, h.statusWord_eq⟩, fun _ _ _ hw =>
    ⟨flagsAgree_of_commandWrite hw, statusWord_ne_zero (flagsAgree_of_commandWrite hw)⟩⟩

end Sys2Proof.Machine
